-- ==== Sys2Proof/Word.lean ====
section
/-! DEFINITION. The word types of the plato-rdcu CORE: bytes of MEM and 32-bit register words (10_state.md R21,
20_memory.md R50). -/

namespace Sys2Proof

/-- One byte of MEM (20_memory.md R50: one byte = 8 bits). -/
abbrev Byte := BitVec 8

/-- One register word, or one word of the output stream (10_state.md R21, 20_memory.md R55). -/
abbrev Word := BitVec 32

end Sys2Proof
end

