-- ==== Sys2Proof/Config.lean ====
section
/-! DEFINITION. What does not change while the machine runs and is fixed outside the state: the constants the
source itself fixes (00_scope.md R8, "fixed" rows), the address width, and the FREE VALUES of the model, opaque
constants that nothing can evaluate (93_implementation_defined.md, treatment `any value`). The parameters whose
default is the spec's own decision stand in `Sys2Proof/Machine/Params.lean`. -/

namespace Sys2Proof.Config

/-- `ADDR_W`, the width of a buffer handle's address (00_scope.md R8, decision D8; log 17). -/
def addrW : Nat := 32

/-- `MAX_MODEL_VALUE` (00_scope.md R8: 16, fixed). -/
def maxModelValue : Nat := 16

/-- `MAX_ICU_ROUND` (00_scope.md R8: 3, fixed). -/
def maxIcuRound : Nat := 3

/-- `MIN_ICU_GOLOMB_PAR` (00_scope.md R8: 1, fixed). -/
def minIcuGolombPar : Nat := 1

/-- `SMALL_BUFFER`, the capacity-error sentinel (00_scope.md R8: −2, fixed). -/
def smallBuffer : Int := -2

/-- FREE VALUE. What the byte of MEM at an address holds after power-on, before anything has written it:
unspecified (10_state.md R40, 93 U6), so nothing constrains it. One value per address, because MEM is plain memory
whose reads are idempotent (20_memory.md R59). Log 3. -/
opaque powerOnByte : Nat → Byte

/-- FREE VALUE. What a byte of MEM holds after an event that leaves it unspecified: OUT after a capacity or internal
error (20_memory.md R68, 93 U1), the writable buffers after a reset during a job (10_state.md R40, 93 U6). The first
argument is the draw (a counter of the state), the second the address. Logs 4 and 5. -/
opaque freeByte : Nat → Nat → Byte

/-- FREE VALUE. What the host reads from `STATUS.kind`, `RETVAL` or an INFO register while a job runs (10_state.md
R32, 93 U14). The arguments are the draw (a counter of the state), the phase's number and the register's offset.
Log 6. -/
opaque inFlightWord : Nat → Nat → Nat → Word

end Sys2Proof.Config
end

