-- ==== Sys2Proof/Syntax.lean ====
section
/-! DEFINITION. The instructions of the core: one constructor of `Instr` per row of `opcode_table.json`, that is one
per job mode (30_encoding.md R82). An instruction is a whole job: the mode word is the opcode, the other eleven register
words of the job format (R80) are its operands. The types a mode word stands for (shape, pre-processing, escape: R83)
stand here too. -/

namespace Sys2Proof

/-- The eleven operand words of a job, in offset order 0x14 to 0x3C (30_encoding.md R80, 10_state.md R23). -/
structure JobOperands where
  /-- `golomb_par`, offset 0x14. -/
  golombPar : Word
  /-- `spill`, offset 0x18. -/
  spill : Word
  /-- `model_value`, offset 0x1C. -/
  modelValue : Word
  /-- `round`, offset 0x20. -/
  round : Word
  /-- `samples`, offset 0x24. -/
  samples : Word
  /-- `buffer_length`, offset 0x28. -/
  bufferLength : Word
  /-- `CFG_PRESENT`, offset 0x2C: bits 0 to 3 are input, model, updated_model, output; bits 31:4 are zero. -/
  cfgPresent : Word
  /-- `input.base`, offset 0x30. -/
  inputBase : Word
  /-- `model.base`, offset 0x34. -/
  modelBase : Word
  /-- `updated_model.base`, offset 0x38. -/
  updatedModelBase : Word
  /-- `output.base`, offset 0x3C. -/
  outputBase : Word
deriving DecidableEq, Repr

/-- The seven sample shapes (30_encoding.md R84). -/
inductive Shape where
  | u16 | u32 | sFx | sFxEfx | sFxNcob | sFxEfxNcobEcob | fFx
deriving DecidableEq, Repr

/-- The pre-processing of a mode (30_encoding.md R83). -/
inductive Pre where
  | none | diff | model
deriving DecidableEq, Repr

/-- The two escape mechanisms (30_encoding.md R83, 43_entropy_encoder.md R175). -/
inductive Escape where
  | zero | multi
deriving DecidableEq, Repr

/-- `Descriptor(mode)`, the triple of 30_encoding.md R83; `esc = NONE` is `Option.none`. -/
structure Descriptor where
  /-- The sample shape. -/
  shape : Shape
  /-- The pre-processing. -/
  pre : Pre
  /-- The escape mechanism, absent in raw modes. -/
  esc : Option Escape
deriving DecidableEq, Repr

/-- The instructions: the 30 job modes of 30_encoding.md R82, each with the operand words of its job. -/
inductive Instr where
  /-- `RAW` (45_dispatcher.md R240). -/
  | raw (o : JobOperands)
  /-- `MODEL_ZERO` (45_dispatcher.md R241). -/
  | modelZero (o : JobOperands)
  /-- `DIFF_ZERO` (45_dispatcher.md R242). -/
  | diffZero (o : JobOperands)
  /-- `MODEL_MULTI` (45_dispatcher.md R243). -/
  | modelMulti (o : JobOperands)
  /-- `DIFF_MULTI` (45_dispatcher.md R244). -/
  | diffMulti (o : JobOperands)
  /-- `RAW_S_FX` (45_dispatcher.md R245). -/
  | rawSFx (o : JobOperands)
  /-- `MODEL_ZERO_S_FX` (45_dispatcher.md R246). -/
  | modelZeroSFx (o : JobOperands)
  /-- `DIFF_ZERO_S_FX` (45_dispatcher.md R247). -/
  | diffZeroSFx (o : JobOperands)
  /-- `MODEL_MULTI_S_FX` (45_dispatcher.md R248). -/
  | modelMultiSFx (o : JobOperands)
  /-- `DIFF_MULTI_S_FX` (45_dispatcher.md R249). -/
  | diffMultiSFx (o : JobOperands)
  /-- `MODEL_ZERO_S_FX_EFX` (45_dispatcher.md R250). -/
  | modelZeroSFxEfx (o : JobOperands)
  /-- `DIFF_ZERO_S_FX_EFX` (45_dispatcher.md R251). -/
  | diffZeroSFxEfx (o : JobOperands)
  /-- `MODEL_MULTI_S_FX_EFX` (45_dispatcher.md R252). -/
  | modelMultiSFxEfx (o : JobOperands)
  /-- `DIFF_MULTI_S_FX_EFX` (45_dispatcher.md R253). -/
  | diffMultiSFxEfx (o : JobOperands)
  /-- `MODEL_ZERO_S_FX_NCOB` (45_dispatcher.md R254). -/
  | modelZeroSFxNcob (o : JobOperands)
  /-- `DIFF_ZERO_S_FX_NCOB` (45_dispatcher.md R255). -/
  | diffZeroSFxNcob (o : JobOperands)
  /-- `MODEL_MULTI_S_FX_NCOB` (45_dispatcher.md R256). -/
  | modelMultiSFxNcob (o : JobOperands)
  /-- `DIFF_MULTI_S_FX_NCOB` (45_dispatcher.md R257). -/
  | diffMultiSFxNcob (o : JobOperands)
  /-- `MODEL_ZERO_S_FX_EFX_NCOB_ECOB` (45_dispatcher.md R258). -/
  | modelZeroSFxEfxNcobEcob (o : JobOperands)
  /-- `DIFF_ZERO_S_FX_EFX_NCOB_ECOB` (45_dispatcher.md R259). -/
  | diffZeroSFxEfxNcobEcob (o : JobOperands)
  /-- `MODEL_MULTI_S_FX_EFX_NCOB_ECOB` (45_dispatcher.md R260). -/
  | modelMultiSFxEfxNcobEcob (o : JobOperands)
  /-- `DIFF_MULTI_S_FX_EFX_NCOB_ECOB` (45_dispatcher.md R261). -/
  | diffMultiSFxEfxNcobEcob (o : JobOperands)
  /-- `MODEL_ZERO_F_FX` (45_dispatcher.md R262). -/
  | modelZeroFFx (o : JobOperands)
  /-- `DIFF_ZERO_F_FX` (45_dispatcher.md R263). -/
  | diffZeroFFx (o : JobOperands)
  /-- `MODEL_MULTI_F_FX` (45_dispatcher.md R264). -/
  | modelMultiFFx (o : JobOperands)
  /-- `DIFF_MULTI_F_FX` (45_dispatcher.md R265). -/
  | diffMultiFFx (o : JobOperands)
  /-- `MODEL_ZERO_32` (45_dispatcher.md R266). -/
  | modelZero32 (o : JobOperands)
  /-- `DIFF_ZERO_32` (45_dispatcher.md R267). -/
  | diffZero32 (o : JobOperands)
  /-- `MODEL_MULTI_32` (45_dispatcher.md R268). -/
  | modelMulti32 (o : JobOperands)
  /-- `DIFF_MULTI_32` (45_dispatcher.md R269). -/
  | diffMulti32 (o : JobOperands)
deriving DecidableEq, Repr

/-- The operand words of a job. -/
def Instr.operands (i : Instr) : JobOperands :=
  match i with
  | .raw o => o
  | .modelZero o => o
  | .diffZero o => o
  | .modelMulti o => o
  | .diffMulti o => o
  | .rawSFx o => o
  | .modelZeroSFx o => o
  | .diffZeroSFx o => o
  | .modelMultiSFx o => o
  | .diffMultiSFx o => o
  | .modelZeroSFxEfx o => o
  | .diffZeroSFxEfx o => o
  | .modelMultiSFxEfx o => o
  | .diffMultiSFxEfx o => o
  | .modelZeroSFxNcob o => o
  | .diffZeroSFxNcob o => o
  | .modelMultiSFxNcob o => o
  | .diffMultiSFxNcob o => o
  | .modelZeroSFxEfxNcobEcob o => o
  | .diffZeroSFxEfxNcobEcob o => o
  | .modelMultiSFxEfxNcobEcob o => o
  | .diffMultiSFxEfxNcobEcob o => o
  | .modelZeroFFx o => o
  | .diffZeroFFx o => o
  | .modelMultiFFx o => o
  | .diffMultiFFx o => o
  | .modelZero32 o => o
  | .diffZero32 o => o
  | .modelMulti32 o => o
  | .diffMulti32 o => o

end Sys2Proof
end

