-- ==== Sys2Proof/WellFormed.lean ====
section
/-! DEFINITION. Which instructions are well formed. Every value of every operand word is a legal encoding (30_encoding.md
R80, R86: values outside the ranges are configuration errors, not other encodings), with one exception: the bits 31:4 of
the word `CFG_PRESENT` are always zero (10_state.md R23). -/

namespace Sys2Proof

/-- The bits 31:4 of the word `CFG_PRESENT` are zero (10_state.md R23). -/
def JobOperands.reservedZero (o : JobOperands) : Bool :=
  o.cfgPresent.extractLsb' 4 28 == 0#28

/-- An instruction is well formed when its job words are words the register block can hold. -/
def Instr.wellFormed (i : Instr) : Bool :=
  i.operands.reservedZero

end Sys2Proof
end

