-- ==== Sys2Proof/Decode.lean ====
section
/-! DEFINITION. The decoder of jobs and, after it, the encoder. A job is twelve 32-bit register words in offset order
0x10 to 0x3C (30_encoding.md R80); the first, `mode`, is the opcode. The register block is read word by word, so the
decoder takes words and no byte order enters (log 21). -/

namespace Sys2Proof

/-- Why a list of words is no instruction. -/
inductive DecodeError where
  /-- The list does not have the twelve words of the job format (30_encoding.md R80). -/
  | wordCount (n : Nat)
  /-- The mode word is not one of the 30 codes (30_encoding.md R87). -/
  | unrecognisedMode (mode : Word)
deriving DecidableEq, Repr

/-- One row of the mode table of 30_encoding.md R82. -/
structure ModeRow where
  /-- The mode code. -/
  code : Word
  /-- The instruction the code selects. -/
  build : JobOperands → Instr
  /-- The shape column. -/
  shape : Shape
  /-- The pre column. -/
  pre : Pre
  /-- The esc column. -/
  esc : Option Escape

/-- The mode table of 30_encoding.md R82: `MODE_CODE` and the descriptor of every mode (log 15). -/
def modeTable : List ModeRow := [
  ⟨0, .raw, .u16, .none, none⟩,
  ⟨1, .modelZero, .u16, .model, some .zero⟩,
  ⟨2, .diffZero, .u16, .diff, some .zero⟩,
  ⟨3, .modelMulti, .u16, .model, some .multi⟩,
  ⟨4, .diffMulti, .u16, .diff, some .multi⟩,
  ⟨100, .rawSFx, .sFx, .none, none⟩,
  ⟨101, .modelZeroSFx, .sFx, .model, some .zero⟩,
  ⟨102, .diffZeroSFx, .sFx, .diff, some .zero⟩,
  ⟨103, .modelMultiSFx, .sFx, .model, some .multi⟩,
  ⟨104, .diffMultiSFx, .sFx, .diff, some .multi⟩,
  ⟨110, .modelZeroSFxEfx, .sFxEfx, .model, some .zero⟩,
  ⟨111, .diffZeroSFxEfx, .sFxEfx, .diff, some .zero⟩,
  ⟨112, .modelMultiSFxEfx, .sFxEfx, .model, some .multi⟩,
  ⟨113, .diffMultiSFxEfx, .sFxEfx, .diff, some .multi⟩,
  ⟨120, .modelZeroSFxNcob, .sFxNcob, .model, some .zero⟩,
  ⟨121, .diffZeroSFxNcob, .sFxNcob, .diff, some .zero⟩,
  ⟨122, .modelMultiSFxNcob, .sFxNcob, .model, some .multi⟩,
  ⟨123, .diffMultiSFxNcob, .sFxNcob, .diff, some .multi⟩,
  ⟨130, .modelZeroSFxEfxNcobEcob, .sFxEfxNcobEcob, .model, some .zero⟩,
  ⟨131, .diffZeroSFxEfxNcobEcob, .sFxEfxNcobEcob, .diff, some .zero⟩,
  ⟨132, .modelMultiSFxEfxNcobEcob, .sFxEfxNcobEcob, .model, some .multi⟩,
  ⟨133, .diffMultiSFxEfxNcobEcob, .sFxEfxNcobEcob, .diff, some .multi⟩,
  ⟨140, .modelZeroFFx, .fFx, .model, some .zero⟩,
  ⟨141, .diffZeroFFx, .fFx, .diff, some .zero⟩,
  ⟨142, .modelMultiFFx, .fFx, .model, some .multi⟩,
  ⟨143, .diffMultiFFx, .fFx, .diff, some .multi⟩,
  ⟨200, .modelZero32, .u32, .model, some .zero⟩,
  ⟨201, .diffZero32, .u32, .diff, some .zero⟩,
  ⟨202, .modelMulti32, .u32, .model, some .multi⟩,
  ⟨203, .diffMulti32, .u32, .diff, some .multi⟩]

/-- The row of a mode word, if the mode is recognised (30_encoding.md R82, R87). -/
def modeRow (mode : Word) : Option ModeRow :=
  modeTable.find? (fun r => r.code == mode)

/-- The register block keeps only the bits 3:0 of a word written to `CFG_PRESENT` (10_state.md R23: unlisted bits
ignore writes). -/
def presentBits (w : Word) : Word :=
  w &&& 0xF#32

/-- The job that a list of register words encodes (30_encoding.md R80, R82). Total: any list is decoded or rejected by
name. -/
def decode (ws : List Word) : Except DecodeError Instr :=
  match ws with
  | [mode, golombPar, spill, modelValue, round, samples, bufferLength, present, input, model, updatedModel, output] =>
    match modeRow mode with
    | some r =>
      .ok (r.build
        { golombPar, spill, modelValue, round, samples, bufferLength
          cfgPresent := presentBits present
          inputBase := input
          modelBase := model
          updatedModelBase := updatedModel
          outputBase := output })
    | none => .error (.unrecognisedMode mode)
  | _ => .error (.wordCount ws.length)

/-- The mode code of an instruction, `MODE_CODE` (30_encoding.md R82; log 15). -/
def Instr.modeCode (i : Instr) : Word :=
  match i with
  | .raw _ => 0
  | .modelZero _ => 1
  | .diffZero _ => 2
  | .modelMulti _ => 3
  | .diffMulti _ => 4
  | .rawSFx _ => 100
  | .modelZeroSFx _ => 101
  | .diffZeroSFx _ => 102
  | .modelMultiSFx _ => 103
  | .diffMultiSFx _ => 104
  | .modelZeroSFxEfx _ => 110
  | .diffZeroSFxEfx _ => 111
  | .modelMultiSFxEfx _ => 112
  | .diffMultiSFxEfx _ => 113
  | .modelZeroSFxNcob _ => 120
  | .diffZeroSFxNcob _ => 121
  | .modelMultiSFxNcob _ => 122
  | .diffMultiSFxNcob _ => 123
  | .modelZeroSFxEfxNcobEcob _ => 130
  | .diffZeroSFxEfxNcobEcob _ => 131
  | .modelMultiSFxEfxNcobEcob _ => 132
  | .diffMultiSFxEfxNcobEcob _ => 133
  | .modelZeroFFx _ => 140
  | .diffZeroFFx _ => 141
  | .modelMultiFFx _ => 142
  | .diffMultiFFx _ => 143
  | .modelZero32 _ => 200
  | .diffZero32 _ => 201
  | .modelMulti32 _ => 202
  | .diffMulti32 _ => 203

/-- The twelve register words of an instruction, in offset order (30_encoding.md R80, R89). -/
def encode (i : Instr) : List Word :=
  let o := i.operands
  [i.modeCode, o.golombPar, o.spill, o.modelValue, o.round, o.samples, o.bufferLength, o.cfgPresent,
    o.inputBase, o.modelBase, o.updatedModelBase, o.outputBase]

/-- The twelve register words held in the number `w`, its bit 0 the least significant bit of the first word and only
its low `nbits` bits counted, so that words the opcode table gives no bits are zero. -/
def wordsOfNat (nbits w : Nat) : List Word :=
  (List.range 12).map (fun k => BitVec.ofNat 32 ((w % 2 ^ nbits) >>> (32 * k)))

/-- The instruction that the decoder reads from a row of the opcode table whose bits are `w`. -/
def decodeTableWord (nbits w : Nat) : Option Instr :=
  match decode (wordsOfNat nbits w) with
  | .ok i => some i
  | .error _ => none

end Sys2Proof
end

