-- ==== Sys2Proof/Machine/Params.lean ====
section
/-! DEFINITION. The parameters of 00_scope.md R8 whose value the source leaves open, each instantiated with the default
the spec decides (92_eei_decisions.md D1 to D5, D9), and the natural-number operations of R10 they are written with.
`MODE_CODE` stands in `Decode.lean`, `ERR_BIT` in `Flags.lean`. No operation changes any of them. -/

namespace Sys2Proof.Machine

/-- `ceil_div(a, b)` (00_scope.md R10). -/
def ceilDiv (a b : Nat) : Nat := (a + b - 1) / b

/-- `ilog2(m)`, the index of the most significant one bit of `m ≥ 1` (00_scope.md R10). -/
def ilog2 (m : Nat) : Nat := Nat.log2 m

/-- `is_pow2(m)` (00_scope.md R10). -/
def isPow2 (m : Nat) : Bool := decide (1 ≤ m) && (m &&& (m - 1)) == 0

/-- `MAX_ICU_GOLOMB_PAR` (00_scope.md R8, D1; log 10). -/
def maxIcuGolombPar : Nat := 65535

/-- `MIN_ICU_SPILL` (00_scope.md R8, D2; log 11). -/
def minIcuSpill : Nat := 2

/-- `GOLOMB_PAR_EXPOSURE_FLAGS` (00_scope.md R8, D4; log 13). -/
def golombParExposureFlags : Nat := 1

/-- `INTERNAL_ERROR` (00_scope.md R8, D9; log 18). -/
def internalError : Int := -1

/-- The Golomb cutoff `c = 2^(L+1) − m`, the number of codewords of group 0 (43_entropy_encoder.md R172, 90 C1). -/
def golombCutoff (m : Nat) : Nat := 2 ^ (ilog2 m + 1) - m

/-- `MAX_SPILL(m, mode)`, the default of 43_entropy_encoder.md R186 (D3; log 12): the same for every mode, and 0 for a
parameter that is out of range. -/
def maxSpill (m : Nat) (_mode : Word) : Nat :=
  if m = 0 ∨ maxIcuGolombPar < m then 0
  else (32 - 1 - ilog2 m) * m + golombCutoff m - 15 - 1

/-- `CAL_UP_MODEL(a, b, w)`, the default of 41_preprocessor.md R138 (D5; log 14): weight `w` on the prior model `b`, the
rest on the observation `a`, truncating division. -/
def calUpModel (a b w : Nat) : Nat :=
  (w * b + (Config.maxModelValue - w) * a) / 16

end Sys2Proof.Machine
end

