-- ==== Sys2Proof/Machine/State.lean ====
section
/-! DEFINITION. The state of the core as plain data (10_state.md R20: this is all of it), the reasons a step can stop,
and the state after reset (10_state.md R40, 70 R330). Three fields of `State` are the model's own and not the spec's:
`hostQueue`, `pace`, `freeDraws` (logs 1, 2, 4). -/

namespace Sys2Proof.Machine

/-- A buffer handle: present or absent, and a byte address into MEM (10_state.md R22). -/
structure Handle where
  /-- The handle's `present` bit. -/
  present : Bool
  /-- The handle's `base`, ignored when the handle is absent. -/
  base : Word
deriving DecidableEq, Repr

/-- A job record: the seven scalars and the four handles. The registers CFG and their latched copy J have this form
(10_state.md R21, R22, R24). -/
structure JobRecord where
  /-- `mode`. -/
  mode : Word
  /-- `golomb_par`. -/
  golombPar : Word
  /-- `spill`. -/
  spill : Word
  /-- `model_value`. -/
  modelValue : Word
  /-- `round`. -/
  round : Word
  /-- `samples`. -/
  samples : Word
  /-- `buffer_length`, in 16-bit words. -/
  bufferLength : Word
  /-- The input buffer. -/
  input : Handle
  /-- The model buffer. -/
  model : Handle
  /-- The updated-model buffer. -/
  updatedModel : Handle
  /-- The output buffer. -/
  output : Handle
deriving DecidableEq, Repr

/-- `SEQ.phase` (10_state.md R27). -/
inductive Phase where
  | idle | validate | pre | map | encode | pad | done
deriving DecidableEq, Repr

/-- The sequencer SEQ (10_state.md R27, R28). -/
structure Seq where
  /-- `SEQ.phase`. -/
  phase : Phase
  /-- `SEQ.i`, the index of the sample last worked on. -/
  i : Nat
  /-- `SEQ.f`, the index of the field last worked on. -/
  f : Nat
deriving DecidableEq, Repr

/-- The two kinds of normal codewords (10_state.md R30). -/
inductive CodeKind where
  | rice | golomb
deriving DecidableEq, Repr

/-- An encoder setup record (10_state.md R30, 43_entropy_encoder.md R170). -/
structure EncSetup where
  /-- The Golomb parameter. -/
  m : Nat
  /-- `ilog2(m)`. -/
  log2m : Nat
  /-- Rice or Golomb. -/
  kind : CodeKind
  /-- The outlier threshold. -/
  spill : Nat
  /-- The escape mechanism. -/
  esc : Escape
deriving DecidableEq, Repr

/-- The encoder state ENC (10_state.md R29, R30). -/
structure Enc where
  /-- `ENC.stream_len`, the bit cursor. -/
  streamLen : Nat
  /-- `ENC.pri`, for data fields. -/
  pri : EncSetup
  /-- `ENC.sec`, for `exp_flags`. -/
  sec : EncSetup
deriving DecidableEq, Repr

/-- `STATUS.kind` (10_state.md R32). -/
inductive JobKind where
  | ok | cfgErr | smallBuf | internal
deriving DecidableEq, Repr

/-- STATUS and RETVAL (10_state.md R32, R36). -/
structure Status where
  /-- A job is running. -/
  busy : Bool
  /-- The last started job has finished. -/
  done : Bool
  /-- How the last job ended. -/
  kind : JobKind
  /-- `STATUS.retval`, two's complement. -/
  retval : Word
deriving DecidableEq, Repr

/-- The result registers INFO (10_state.md R33 to R35). -/
structure Info where
  /-- The error bitset. -/
  cmpErr : BitVec 16
  /-- The compressed size in bits. -/
  cmpSize : Word
  /-- `cmp_mode_used`. -/
  cmpModeUsed : Word
  /-- `model_value_used`. -/
  modelValueUsed : Word
  /-- `golomb_par_used`. -/
  golombParUsed : Word
  /-- `spill_used`. -/
  spillUsed : Word
  /-- `round_used`. -/
  roundUsed : Word
  /-- `samples_used`. -/
  samplesUsed : Word
deriving DecidableEq, Repr

/-- MEM (10_state.md R37, 20_memory.md R50): the bytes that something has written, by address. The canonical form is
`Memory.wf`; an address with no entry has never been written and reads as the free value `Config.powerOnByte`
(log 3). -/
structure Memory where
  /-- The written bytes, addresses strictly rising. -/
  cells : List Host.Cell
deriving DecidableEq, Repr

/-- A move of the host (10_state.md R23, R31, R40; 20_memory.md R62). -/
inductive HostAction where
  /-- The host writes a word at a byte offset of the register block; at `CTRL` this is the start command. -/
  | writeReg (offset : Nat) (value : Word)
  /-- The host writes a byte of MEM. -/
  | writeMem (address : Nat) (value : Byte)
  /-- The core is reset. -/
  | reset
  /-- The host lets the core move. -/
  | yieldTurn
deriving DecidableEq, Repr

/-- How far the core runs before the host may move again (log 1): a whole job in one step (45_dispatcher.md R230), or
one phase a step (10_state.md R28). -/
inductive Pace where
  | wholeJob | byPhase
deriving DecidableEq, Repr

/-- The errors that end a job (60_exceptions.md R300). -/
inductive JobError where
  /-- `ConfigError(n)`: `n` validator checks fired (R303). -/
  | config (n : Nat)
  /-- `SmallBuffer` (R304). -/
  | smallBuffer
  /-- `InternalError` (R305). -/
  | internal
deriving DecidableEq, Repr

/-- The state of the machine. -/
structure State where
  /-- The configuration registers CFG (10_state.md R21, R22). -/
  cfg : JobRecord
  /-- The latched job record J (R24). -/
  j : JobRecord
  /-- The sequencer SEQ (R27, R28). -/
  seq : Seq
  /-- The encoder state ENC (R29, R30). -/
  enc : Enc
  /-- STATUS and RETVAL (R32, R36). -/
  status : Status
  /-- The result registers INFO (R33 to R35). -/
  info : Info
  /-- The data memory MEM (R37). -/
  mem : Memory
  /-- MODEL'S OWN: the host's moves that have not landed yet, the next first (log 2). -/
  hostQueue : List HostAction
  /-- MODEL'S OWN: the grain of the core's moves (log 1). -/
  pace : Pace
  /-- MODEL'S OWN: how many free values have been drawn (log 4). -/
  freeDraws : Nat
deriving DecidableEq, Repr

/-- Why the machine stops with a fault. The core itself has none: its errors are outcomes of a job, and "no behaviour
of this core is treated as stuck" (93_implementation_defined.md, end of part 1). -/
inductive Fault where
  /-- Raised by a move of the host that names a MEM address at or above `2^ADDR_W`, which does not exist
  (20_memory.md R50). Safe: nothing is concluded about such a move. -/
  | noSuchAddress (address : Nat)
deriving DecidableEq, Repr

/-- Why the machine refuses. All but the first are the launches and host moves that the spec gives no meaning and tells a
model to refuse (70 R335 to R338, 20_memory.md R62; 93 U11 to U13). -/
inductive Refusal where
  /-- An instruction that has no meaning in the model. No arm raises it. -/
  | notModelled (mnemonic : String)
  /-- Raised by a launch whose buffers overlap (70 R335). Safe: nothing is concluded about such a launch. -/
  | overlappingBuffers
  /-- Raised by a launch with a buffer that runs over the top of MEM (70 R336 (a)). Safe. -/
  | bufferWraps
  /-- Raised by a launch whose output base is not a multiple of 4 (70 R336 (b), 20_memory.md R57). Safe. -/
  | outputMisaligned
  /-- Raised by a non-raw launch whose capacity is `2^32` bits or more (70 R337 (a)). Safe. -/
  | capacityTooLarge
  /-- Raised by a raw launch of `2^32` bits or more (70 R337 (b)). Safe. -/
  | rawSizeTooLarge
  /-- Raised by a launch with more sample bytes than MEM has (70 R337 (c)). Safe. -/
  | samplesTooLarge
  /-- Raised by a host write to a byte of a buffer that the running job has borrowed (20_memory.md R62, 93 U13). Safe for
  a host that keeps the rule; assumption A1 of 70 R334 says that a host does. -/
  | hostTouchesBuffer (address : Nat)
deriving DecidableEq, Repr

/-- An absent handle, as reset leaves the four handles (10_state.md R40). -/
def Handle.absent : Handle := { present := false, base := 0 }

/-- A job record of zeros with absent handles: CFG after reset (10_state.md R40); for J, which reset leaves unspecified,
the model's choice (log 7). -/
def JobRecord.zero : JobRecord :=
  { mode := 0, golombPar := 0, spill := 0, modelValue := 0, round := 0, samples := 0, bufferLength := 0
    input := .absent, model := .absent, updatedModel := .absent, output := .absent }

/-- An encoder setup for `ENC.pri` and `ENC.sec` after reset, which the spec leaves unspecified: the model's choice
(log 7), the least legal parameter and zeros. -/
def EncSetup.initial : EncSetup :=
  { m := 1, log2m := 0, kind := .rice, spill := 0, esc := .zero }

/-- The machine right after reset (10_state.md R40, 70 R330), with a MEM in which nothing has been written. -/
def State.reset : State :=
  { cfg := .zero
    j := .zero
    seq := { phase := .idle, i := 0, f := 0 }
    enc := { streamLen := 0, pri := .initial, sec := .initial }
    status := { busy := false, done := false, kind := .ok, retval := 0 }
    info := { cmpErr := 0, cmpSize := 0, cmpModeUsed := 0, modelValueUsed := 0, golombParUsed := 0, spillUsed := 0
              roundUsed := 0, samplesUsed := 0 }
    mem := { cells := [] }
    hostQueue := []
    pace := .wholeJob
    freeDraws := 0 }

end Sys2Proof.Machine
end

