-- ==== Sys2Proof/Machine/Ops.lean ====
section
/-! DEFINITION. The shared operations over memory and registers: the bytes of MEM, the big-endian primitives `MemRead`
and `MemWrite` (20_memory.md R51), the copy and the free fill, the end of a job, and raising an error, which is what
this core has in place of taking an exception (60_exceptions.md R300 to R309). There is no return from one (R311): the
result registers stay readable until the next accepted start command. -/

namespace Sys2Proof.Machine

/-! ### The bytes of MEM -/

/-- Addresses are taken modulo `2^ADDR_W` (20_memory.md R51). -/
def wrapAddress (a : Nat) : Nat := a % 2 ^ Config.addrW

/-- The byte that the written cells hold at an address, if something has written it. -/
def lookupCell : List Host.Cell → Nat → Option Byte
  | [], _ => none
  | c :: rest, a => if c.1 = a then some c.2 else lookupCell rest a

/-- The written cells with the byte at `a` replaced, addresses kept in rising order. -/
def insertCell : List Host.Cell → Nat → Byte → List Host.Cell
  | [], a, b => [(a, b)]
  | c :: rest, a, b =>
    if a < c.1 then (a, b) :: c :: rest
    else if a = c.1 then (a, b) :: rest
    else c :: insertCell rest a b

/-- What MEM holds at an address: the byte last written there, or the free value of a byte nothing has written (10_state.md
R40, 93 U6; log 3). The one place that says what an unlisted address reads as. -/
def Memory.readByte (m : Memory) (a : Nat) : Byte :=
  (lookupCell m.cells a).getD (Config.powerOnByte a)

/-- MEM after one byte is stored. -/
def Memory.writeByte (m : Memory) (a : Nat) (b : Byte) : Memory :=
  { cells := insertCell m.cells a b }

/-- The canonical form of MEM: addresses strictly rising, all below `2^ADDR_W` (20_memory.md R50). -/
def Memory.wf (m : Memory) : Bool :=
  decide (m.cells.Pairwise (fun c d => c.1 < d.1)) && m.cells.all (fun c => decide (c.1 < 2 ^ Config.addrW))

/-- `MemRead(addr, n)`: the byte at the lowest address is the most significant (20_memory.md R51). -/
def Memory.read (m : Memory) (addr : Nat) : Nat → Nat
  | 0 => 0
  | n + 1 => m.read addr n * 256 + (m.readByte (wrapAddress (addr + n))).toNat

/-- `MemWrite(addr, n, v)`: the byte at the lowest address is the most significant (20_memory.md R51). -/
def Memory.write (m : Memory) (addr : Nat) : Nat → Nat → Memory
  | 0, _ => m
  | n + 1, v => (m.write addr n (v / 256)).writeByte (wrapAddress (addr + n)) (BitVec.ofNat 8 v)

/-- Copy `n` bytes upward from `src` to `dst`, the lowest address first (44_bitpacker.md R222). -/
def Memory.copy (m : Memory) (src dst : Nat) : Nat → Memory
  | 0 => m
  | n + 1 =>
    let m' := m.copy src dst n
    m'.writeByte (wrapAddress (dst + n)) (m'.readByte (wrapAddress (src + n)))

/-- The `n` bytes from `base` on become free values of one draw: their content is unspecified (20_memory.md R68, 10_state.md
R40; logs 4, 5). -/
def Memory.fillFree (m : Memory) (draw base : Nat) : Nat → Memory
  | 0 => m
  | n + 1 =>
    (m.fillFree draw base n).writeByte (wrapAddress (base + n)) (Config.freeByte draw (wrapAddress (base + n)))

/-! ### The end of a job and its errors -/

/-- `Finish` (45_dispatcher.md R230): phase DONE, not busy, done. -/
def finishJob (s : State) : State :=
  { s with
    seq := { s.seq with phase := .done }
    status := { s.status with busy := false, done := true } }

/-- Position of `SMALL_BUFFER_ERR_BIT` in the error bitset (10_state.md R33, `ERR_BIT`; log 16). -/
def smallBufferErrBit : Nat := 0

/-- The error bitset with one bit set (10_state.md R33: bits are set, never cleared, during a job). -/
def setErrBit (err : BitVec 16) (bit : Nat) : BitVec 16 :=
  err ||| BitVec.ofNat 16 (2 ^ bit)

/-- What an error leaves in `STATUS.kind` (60_exceptions.md R303 to R305). -/
def JobError.kind : JobError → JobKind
  | .config _ => .cfgErr
  | .smallBuffer => .smallBuf
  | .internal => .internal

/-- What an error leaves in `STATUS.retval` (60_exceptions.md R303 to R305, 10_state.md R36). -/
def JobError.retval : JobError → Word
  | .config n => BitVec.ofInt 32 (-(n : Int))
  | .smallBuffer => BitVec.ofInt 32 Config.smallBuffer
  | .internal => BitVec.ofInt 32 internalError

/-- What an error adds to `INFO.cmp_err` (60_exceptions.md R303 to R305): the validator has set the bits of a
configuration error already. -/
def JobError.errBits (e : JobError) (err : BitVec 16) : BitVec 16 :=
  match e with
  | .config _ => err
  | .smallBuffer => setErrBit err smallBufferErrBit
  | .internal => err

/-- `raise e` (60_exceptions.md R303 to R305, R309): the result registers are written and the job finishes. Nothing is
saved and no register but STATUS, INFO and the phase changes. -/
def raiseError (e : JobError) (s : State) : State :=
  finishJob
    { s with
      status := { s.status with kind := e.kind, retval := e.retval }
      info := { s.info with cmpErr := e.errBits s.info.cmpErr, cmpSize := 0 } }

/-- A successful end of a job with its size in bits (44_bitpacker.md R225, R223). -/
def succeedJob (sizeBits : Nat) (s : State) : State :=
  finishJob
    { s with
      status := { s.status with kind := .ok, retval := 0 }
      info := { s.info with cmpSize := BitVec.ofNat 32 sizeBits } }

/-- The next free draw: the counter of free values is advanced (log 4). -/
def drawFree (s : State) : State :=
  { s with freeDraws := s.freeDraws + 1 }

/-! ### Sequencing inside a phase -/

/-- What part of a phase leads to: the job goes on, or it stops with an error in the state reached. -/
inductive Run where
  | go (s : State)
  | stop (e : JobError) (s : State)
deriving DecidableEq, Repr

/-- Go on with `k` unless an error has stopped the job. -/
def Run.andThen (r : Run) (k : State → Run) : Run :=
  match r with
  | .go s => k s
  | .stop e s => .stop e s

/-- Run a body for each item in order, up to the first error. -/
def runEach {α : Type} (body : α → State → Run) : List α → State → Run
  | [], s => .go s
  | x :: rest, s => (body x s).andThen (runEach body rest)

/-- `SEQ.i <- i; SEQ.f <- f` (10_state.md R28). -/
def setCursor (i f : Nat) (s : State) : State :=
  { s with seq := { s.seq with i := i, f := f } }

/-- `SEQ.phase <- p` (10_state.md R27). -/
def enterPhase (p : Phase) (s : State) : State :=
  { s with seq := { s.seq with phase := p } }

end Sys2Proof.Machine
end

