-- ==== Sys2Proof/Machine/Operands.lean ====
section
/-! DEFINITION. The operands of a job: the record a job's words stand for, the descriptor of its mode (30_encoding.md
R83), the shape and field tables (R84, R85), access to a field of a buffer (20_memory.md R54) and to an output word
(R56), the capacity (44_bitpacker.md R211), the extents of the buffers (20_memory.md R52) and the launch premises
(70 R335 to R338). -/

namespace Sys2Proof.Machine

/-! ### The job record of an instruction -/

/-- A handle from its bit of `CFG_PRESENT` and its base (10_state.md R22, R23). -/
def handleOf (present : Word) (bit : Nat) (base : Word) : Handle :=
  { present := present.getLsbD bit, base := base }

/-- The job record that an instruction's words stand for (10_state.md R23). -/
def jobOf (i : Instr) : JobRecord :=
  let o := i.operands
  { mode := i.modeCode
    golombPar := o.golombPar
    spill := o.spill
    modelValue := o.modelValue
    round := o.round
    samples := o.samples
    bufferLength := o.bufferLength
    input := handleOf o.cfgPresent 0 o.inputBase
    model := handleOf o.cfgPresent 1 o.modelBase
    updatedModel := handleOf o.cfgPresent 2 o.updatedModelBase
    output := handleOf o.cfgPresent 3 o.outputBase }

/-- What the register `CFG_PRESENT` reads as (10_state.md R23): the four `present` bits, the other bits zero. -/
def presentWord (j : JobRecord) : Word :=
  BitVec.ofNat 32 (j.input.present.toNat + 2 * j.model.present.toNat + 4 * j.updatedModel.present.toNat
    + 8 * j.output.present.toNat)

/-- Fetching the job: the twelve register words of CFG in offset order (30_encoding.md R80). -/
def fetchWords (c : JobRecord) : List Word :=
  [c.mode, c.golombPar, c.spill, c.modelValue, c.round, c.samples, c.bufferLength, presentWord c,
    c.input.base, c.model.base, c.updatedModel.base, c.output.base]

/-! ### Descriptor and class predicates (30_encoding.md R83, 45_dispatcher.md R231) -/

/-- `Descriptor(mode)`, undefined for an unrecognised mode. -/
def descriptor (mode : Word) : Option Descriptor :=
  (modeRow mode).map (fun r => { shape := r.shape, pre := r.pre, esc := r.esc })

/-- `is_raw(mode)`. -/
def isRaw (mode : Word) : Bool :=
  match descriptor mode with
  | some d => d.pre == .none
  | none => false

/-- `is_diff(mode)`. -/
def isDiff (mode : Word) : Bool :=
  match descriptor mode with
  | some d => d.pre == .diff
  | none => false

/-- `is_model(mode)`. -/
def isModel (mode : Word) : Bool :=
  match descriptor mode with
  | some d => d.pre == .model
  | none => false

/-- `zero_escape(mode)`. -/
def zeroEscape (mode : Word) : Bool :=
  match descriptor mode with
  | some d => d.esc == some .zero
  | none => false

/-- `multi_escape(mode)`. -/
def multiEscape (mode : Word) : Bool :=
  match descriptor mode with
  | some d => d.esc == some .multi
  | none => false

/-! ### Shapes and fields (30_encoding.md R84, R85) -/

/-- The native widths of fields (00_scope.md R10). -/
inductive Width where
  | w8 | w16 | w32
deriving DecidableEq, Repr

/-- `W`, the width in bits. -/
def Width.bits : Width → Nat
  | .w8 => 8
  | .w16 => 16
  | .w32 => 32

/-- `W/8`, the width in bytes (20_memory.md R53). -/
def Width.bytes : Width → Nat
  | .w8 => 1
  | .w16 => 2
  | .w32 => 4

/-- The names of fields (30_encoding.md R84). -/
inductive FieldName where
  | v | expFlags | fx | efx | ncobX | ncobY | ecobX | ecobY
deriving DecidableEq, Repr

/-- A field of a shape: its name, width and byte offset in a packed sample (30_encoding.md R84). -/
structure Field where
  /-- The field's name. -/
  name : FieldName
  /-- The field's native width. -/
  width : Width
  /-- The field's byte offset inside a sample. -/
  off : Nat
deriving DecidableEq, Repr

/-- The field list of a shape, in the order of layout, pre-processing, mapping and encoding (30_encoding.md R84). -/
def shapeFields : Shape → List Field
  | .u16 => [⟨.v, .w16, 0⟩]
  | .u32 => [⟨.v, .w32, 0⟩]
  | .sFx => [⟨.expFlags, .w8, 0⟩, ⟨.fx, .w32, 1⟩]
  | .sFxEfx => [⟨.expFlags, .w8, 0⟩, ⟨.fx, .w32, 1⟩, ⟨.efx, .w32, 5⟩]
  | .sFxNcob => [⟨.expFlags, .w8, 0⟩, ⟨.fx, .w32, 1⟩, ⟨.ncobX, .w32, 5⟩, ⟨.ncobY, .w32, 9⟩]
  | .sFxEfxNcobEcob =>
    [⟨.expFlags, .w8, 0⟩, ⟨.fx, .w32, 1⟩, ⟨.ncobX, .w32, 5⟩, ⟨.ncobY, .w32, 9⟩, ⟨.efx, .w32, 13⟩,
      ⟨.ecobX, .w32, 17⟩, ⟨.ecobY, .w32, 21⟩]
  | .fFx => [⟨.fx, .w32, 0⟩]

/-- `sample_bytes`, the packed size of a sample (30_encoding.md R84). -/
def sampleBytes : Shape → Nat
  | .u16 => 2
  | .u32 => 4
  | .sFx => 5
  | .sFxEfx => 9
  | .sFxNcob => 13
  | .sFxEfxNcobEcob => 25
  | .fFx => 4

/-- `sample_bits` (30_encoding.md R84). -/
def sampleBits (sh : Shape) : Nat := 8 * sampleBytes sh

/-- The `bias` attribute: true for every field except `exp_flags` (30_encoding.md R85). -/
def Field.biased (f : Field) : Bool := f.name != .expFlags

/-- The field is coded by `ENC.sec`: only `exp_flags` (30_encoding.md R85, 43_entropy_encoder.md R187). -/
def Field.secondary (f : Field) : Bool := f.name == .expFlags

/-! ### Access to fields and output words (20_memory.md R54, R56) -/

/-- The address of field `f` of sample `i` of the buffer at `h` (20_memory.md R53, R54). -/
def fieldAddress (h : Handle) (sh : Shape) (i : Nat) (f : Field) : Nat :=
  h.base.toNat + i * sampleBytes sh + f.off

/-- `Fld(space, i, f)` (20_memory.md R54). -/
def fieldRead (m : Memory) (h : Handle) (sh : Shape) (i : Nat) (f : Field) : BitVec f.width.bits :=
  BitVec.ofNat f.width.bits (m.read (fieldAddress h sh i f) f.width.bytes)

/-- `Fld(space, i, f) <- v` (20_memory.md R54). -/
def fieldWrite (m : Memory) (h : Handle) (sh : Shape) (i : Nat) (f : Field) (v : BitVec f.width.bits) : Memory :=
  m.write (fieldAddress h sh i f) f.width.bytes v.toNat

/-- `OutW(w)` (20_memory.md R56). -/
def outRead (m : Memory) (out : Handle) (w : Nat) : Word :=
  BitVec.ofNat 32 (m.read (out.base.toNat + 4 * w) 4)

/-- `OutW(w) <- v` (20_memory.md R56). -/
def outWrite (m : Memory) (out : Handle) (w : Nat) (v : Word) : Memory :=
  m.write (out.base.toNat + 4 * w) 4 v.toNat

/-! ### Handles, capacity, extents -/

/-- Two handles are equal iff both are present and their bases are equal (10_state.md R22). -/
def Handle.same (a b : Handle) : Bool := a.present && b.present && a.base == b.base

/-- The number of 32-bit output words, `ceil_div(buffer_length, 2)` (20_memory.md R52, 44_bitpacker.md R211). -/
def outputWords (j : JobRecord) : Nat := ceilDiv j.bufferLength.toNat 2

/-- The capacity `cap` in bits (44_bitpacker.md R211): rounded up to whole 32-bit words. -/
def capacity (j : JobRecord) : Nat := outputWords j * 32

/-- The bytes of a sample buffer, `samples × sample_bytes` (20_memory.md R52). -/
def sampleSpan (j : JobRecord) (sh : Shape) : Nat := j.samples.toNat * sampleBytes sh

/-- The target of the model update: `UPD` if present, else `MDL` (41_preprocessor.md R136). -/
def modelTarget (j : JobRecord) : Handle :=
  if j.updatedModel.present then j.updatedModel else j.model

/-- A run of bytes of MEM. -/
structure Extent where
  /-- The first address. -/
  base : Nat
  /-- The number of bytes. -/
  len : Nat
deriving DecidableEq, Repr

/-- An address lies inside an extent. DESIGN CHOICE (log 9): an extent that runs over the top of MEM does not wrap, so it covers
no low address. A launch that gets past VALIDATE has no such extent (70 R336 (a)); for a job that is still in VALIDATE the spec
does not say. -/
def Extent.covers (e : Extent) (a : Nat) : Bool := decide (e.base ≤ a) && decide (a < e.base + e.len)

/-- Two extents share no byte. -/
def Extent.disjoint (a b : Extent) : Bool := decide (a.base + a.len ≤ b.base) || decide (b.base + b.len ≤ a.base)

/-- The extent of the output buffer (20_memory.md R52): whole words, or in raw modes the bytes of the copy. -/
def outputExtent (j : JobRecord) (d : Descriptor) : Extent :=
  { base := j.output.base.toNat, len := if d.pre = .none then sampleSpan j d.shape else outputWords j * 4 }

/-- The extent of a sample buffer (20_memory.md R52). -/
def sampleExtent (j : JobRecord) (d : Descriptor) (h : Handle) : Extent :=
  { base := h.base.toNat, len := sampleSpan j d.shape }

/-- A buffer whose handle is absent has no extent: its base is ignored (10_state.md R22, 20_memory.md R52). -/
def ifPresent (h : Handle) (e : Extent) : List Extent := if h.present then [e] else []

/-- The extents of the model buffers a job uses: none outside model modes; `UPD` counts when it is not the same buffer as
`MDL` (20_memory.md R52, R65; 70 R335). -/
def modelExtents (j : JobRecord) (d : Descriptor) : List Extent :=
  if d.pre = .model then
    ifPresent j.model (sampleExtent j d j.model)
      ++ (if j.updatedModel.same j.model then [] else ifPresent j.updatedModel (sampleExtent j d j.updatedModel))
  else []

/-- The extents of the buffers a job uses (20_memory.md R52). -/
def usedExtents (j : JobRecord) (d : Descriptor) : List Extent :=
  ifPresent j.input (sampleExtent j d j.input) ++ ifPresent j.output (outputExtent j d) ++ modelExtents j d

/-- The extents a job can write (20_memory.md R67): the output; outside raw modes also the input; in model modes also
the target of the model update. -/
def writableExtents (j : JobRecord) (d : Descriptor) : List Extent :=
  ifPresent j.output (outputExtent j d) ++
    match d.pre with
    | .none => []
    | .diff => ifPresent j.input (sampleExtent j d j.input)
    | .model =>
      ifPresent j.input (sampleExtent j d j.input) ++ ifPresent (modelTarget j) (sampleExtent j d (modelTarget j))

/-- The extents of a list are pairwise disjoint. -/
def pairwiseDisjoint : List Extent → Bool
  | [] => true
  | e :: rest => rest.all (fun x => e.disjoint x) && pairwiseDisjoint rest

/-- The launch premises of 70 R335 to R338, as the first that a launch breaks: sizes (R337), the top of MEM (R336 (a)),
the output's alignment (R336 (b)), disjoint extents (R335). A launch that keeps them all is not refused. R336 (c) and R338
hold of every launch here, because all of the model's MEM exists and is plain memory (log 8). -/
def launchRefusal (j : JobRecord) (d : Descriptor) : Option Refusal :=
  if d.pre ≠ .none ∧ 2 ^ 32 ≤ capacity j then some .capacityTooLarge
  else if d.pre = .none ∧ 2 ^ 32 ≤ j.samples.toNat * sampleBits d.shape then some .rawSizeTooLarge
  else if 2 ^ Config.addrW < sampleSpan j d.shape then some .samplesTooLarge
  else if (usedExtents j d).any (fun e => decide (2 ^ Config.addrW < e.base + e.len)) then some .bufferWraps
  else if j.output.base.toNat % 4 ≠ 0 then some .outputMisaligned
  else if pairwiseDisjoint (usedExtents j d) then none
  else some .overlappingBuffers

end Sys2Proof.Machine
end

