-- ==== Sys2Proof/Machine/Bitpacker.lean ====
section
/-! DEFINITION. The bit-packer, stage 4b (44_bitpacker.md): `put_n_bits32`, `Put`, the tail padding and the raw copy. It
alone writes the output buffer. -/

namespace Sys2Proof.Machine

/-- What `put_n_bits32` returns (44_bitpacker.md R213). -/
inductive PutResult where
  /-- `n` bits were written; the call returns `n`. -/
  | wrote (n : Nat)
  /-- `n = 0` or `n > 32`: nothing done; the call returns 0 (R217). -/
  | noOp
  /-- The write would exceed the capacity: nothing done; the call returns `SMALL_BUFFER` (R218). -/
  | smallBuffer
deriving DecidableEq, Repr

/-- The number that `put_n_bits32` returns (44_bitpacker.md R213, R217, R218). -/
def PutResult.code : PutResult → Int
  | .wrote n => n
  | .noOp => 0
  | .smallBuffer => Config.smallBuffer

/-- The word with `n` one bits at the bottom, `2^n − 1`. -/
def lowOnes (n : Nat) : Word := BitVec.ofNat 32 (2 ^ n - 1)

/-- The single-word case (44_bitpacker.md R213, R214): `n` bits of word `w` are replaced, from bit `b` of the word on,
counted from its most significant bit; needs `b + n ≤ 32`. -/
def putSingle (out : Handle) (v : Word) (w b n : Nat) (m : Memory) : Memory :=
  let sh := 32 - b - n
  outWrite m out w ((outRead m out w &&& ~~~(lowOnes n <<< sh)) ||| (v <<< sh))

/-- The split case (44_bitpacker.md R213, R215): the `hi = 32 − b` most significant bits end word `w`, the
`lo = n − hi` others begin word `w + 1`; needs `b + n > 32`. -/
def putSplit (out : Handle) (v : Word) (w b n : Nat) (m : Memory) : Memory :=
  let hi := 32 - b
  let lo := n - hi
  let m₁ := outWrite m out w ((outRead m out w &&& ~~~(lowOnes hi)) ||| (v >>> lo))
  outWrite m₁ out (w + 1)
    ((outRead m₁ out (w + 1) &&& lowOnes (32 - lo)) ||| ((v &&& lowOnes lo) <<< (32 - lo)))

/-- `put_n_bits32(value, o, n)` on the output buffer at `out` with capacity `cap` bits (44_bitpacker.md R213 to R219). -/
def putNBits32 (out : Handle) (cap : Nat) (value : Word) (o n : Nat) (m : Memory) : PutResult × Memory :=
  if n = 0 ∨ 32 < n then (.noOp, m)
  else if cap < o + n then (.smallBuffer, m)
  else if o % 32 + n ≤ 32 then (.wrote n, putSingle out (value &&& lowOnes n) (o / 32) (o % 32) n m)
  else (.wrote n, putSplit out (value &&& lowOnes n) (o / 32) (o % 32) n m)

/-- `Put(v, n)` (44_bitpacker.md R220): write at the bit cursor and advance it, or stop with the capacity error. -/
def put (v n : Nat) (s : State) : Run :=
  match putNBits32 s.j.output (capacity s.j) (BitVec.ofNat 32 v) s.enc.streamLen n s.mem with
  | (.smallBuffer, _) => .stop .smallBuffer s
  | (.noOp, _) => .go s
  | (.wrote k, m) => .go { s with mem := m, enc := { s.enc with streamLen := s.enc.streamLen + k } }

/-- The tail padding of the PAD phase (44_bitpacker.md R221): zero bits up to the next multiple of 32, none for an empty
stream; the cursor does not move. -/
def padMemory (j : JobRecord) (len : Nat) (m : Memory) : Memory :=
  if 0 < len ∧ len % 32 ≠ 0 then (putNBits32 j.output (capacity j) 0 len (32 - len % 32) m).2 else m

/-- The PAD phase (45_dispatcher.md R230). -/
def padPhase (s : State) : State :=
  { enterPhase .pad s with mem := padMemory s.j s.enc.streamLen s.mem }

/-- `RawCopy` (44_bitpacker.md R222 to R224), the ENCODE phase of raw modes: the capacity check before the first write,
then the copy, then completion with the size of the copy in bits. -/
def rawPhase (sh : Shape) (s : State) : State :=
  if capacity s.j / 8 < sampleSpan s.j sh then raiseError .smallBuffer (enterPhase .encode s)
  else
    succeedJob (s.j.samples.toNat * sampleBits sh)
      { enterPhase .encode s with
        mem := s.mem.copy s.j.input.base.toNat s.j.output.base.toNat (sampleSpan s.j sh) }

/-- The output buffer after a capacity or internal error of a non-raw job: every byte of its extent has an unspecified
value (20_memory.md R68, 93 U1; log 4). -/
def abandonOutput (s : State) : State :=
  { drawFree s with mem := s.mem.fillFree s.freeDraws s.j.output.base.toNat (outputWords s.j * 4) }

end Sys2Proof.Machine
end

