-- ==== Sys2Proof/Machine/Encoder.lean ====
section
/-! DEFINITION. The entropy encoder, stage 4a (43_entropy_encoder.md): encoder setup, Rice and Golomb codewords, the
outlier predicate, the two escape mechanisms and the encode loop. Values are natural numbers, the field values
zero-extended (R189). -/

namespace Sys2Proof.Machine

/-- `Setup(m, spill, esc)` (43_entropy_encoder.md R170). -/
def encoderSetup (m spill : Nat) (esc : Escape) : EncSetup :=
  { m := m, log2m := ilog2 m, kind := if isPow2 m then .rice else .golomb, spill := spill, esc := esc }

/-- A codeword: its value and its length in bits. -/
structure Codeword where
  /-- The value `cw`. -/
  value : Nat
  /-- The length `len`. -/
  len : Nat
deriving DecidableEq, Repr

/-- `Rice(u, L)` (43_entropy_encoder.md R171): `u >> L` one bits, a zero bit, the low `L` bits of `u`. -/
def riceCodeword (u l : Nat) : Codeword :=
  let q := u / 2 ^ l
  let r := u % 2 ^ l
  { value := (2 ^ q - 1) * 2 ^ (l + 1) + r, len := q + 1 + l }

/-- `Golomb(u, m, L)` (43_entropy_encoder.md R172, with the cutoff of 90 C1 and the suffix width of 90 C2). -/
def golombCodeword (u m l : Nat) : Codeword :=
  let c := 2 ^ (l + 1) - m
  if u < c then { value := u, len := l + 1 }
  else
    let g := (u - c) / m
    let r := (u - c) - g * m
    { value := (2 ^ g - 1) * 2 ^ (l + 2) + 2 * c + r, len := g + l + 2 }

/-- `NormalCW(u, S)` (43_entropy_encoder.md R173). -/
def normalCodeword (u : Nat) (e : EncSetup) : Codeword :=
  match e.kind with
  | .rice => riceCodeword u e.log2m
  | .golomb => golombCodeword u e.m e.log2m

/-- `EmitNormal(u, S)` (43_entropy_encoder.md R174): a codeword longer than 32 bits is an internal error, detected before
the capacity (60_exceptions.md R307). -/
def emitNormal (u : Nat) (e : EncSetup) (s : State) : Run :=
  if 32 < (normalCodeword u e).len then .stop .internal s
  else put (normalCodeword u e).value (normalCodeword u e).len s

/-- `Outlier(u, S)` (43_entropy_encoder.md R176). -/
def outlier (u : Nat) (e : EncSetup) : Bool :=
  match e.esc with
  | .multi => decide (e.spill ≤ u)
  | .zero => decide (e.spill ≤ u) || u == 0

/-- `cal_multi_offset(d)` (43_entropy_encoder.md R181, R182; the step table of 90 C3): the first row `k` of the table with
`d ≤ 4^(k+1) − 1`, and 15 if there is none below 15. -/
def calMultiOffset (d : Nat) : Nat :=
  ((List.range 15).find? (fun k => decide (d ≤ 4 ^ (k + 1) - 1))).getD 15

/-- The zero-escape outlier (43_entropy_encoder.md R178): the codeword of 0, then `u` in `w` raw bits. -/
def emitZeroEscape (u w : Nat) (e : EncSetup) (s : State) : Run :=
  (emitNormal 0 e s).andThen (put u w)

/-- The multi-escape outlier (43_entropy_encoder.md R179): the codeword of `spill + offset`, then `u − spill` in
`2 (offset + 1)` raw bits. -/
def emitMultiEscape (u : Nat) (e : EncSetup) (s : State) : Run :=
  let d := u - e.spill
  let offset := calMultiOffset d
  (emitNormal (e.spill + offset) e s).andThen (put d ((offset + 1) * 2))

/-- `EncodeValue(u, W, S)` (43_entropy_encoder.md R180). -/
def encodeValue (u w : Nat) (e : EncSetup) (s : State) : Run :=
  if outlier u e then
    match e.esc with
    | .zero => emitZeroEscape u w e s
    | .multi => emitMultiEscape u e s
  else emitNormal u e s

/-- The emission of field `f`, at position `fi` of the field list, of sample `i` (43_entropy_encoder.md R187, R189):
`exp_flags` by the secondary encoder, every other field by the primary one. -/
def encodeField (sh : Shape) (i fi : Nat) (f : Field) (s : State) : Run :=
  encodeValue (fieldRead s.mem s.j.input sh i f).toNat f.width.bits (if f.secondary then s.enc.sec else s.enc.pri)
    (setCursor i fi s)

/-- The emission of sample `i`: its fields in list order (43_entropy_encoder.md R188, R189). -/
def encodeSample (sh : Shape) (i : Nat) (s : State) : Run :=
  runEach (fun p => encodeField sh i p.2 p.1) (shapeFields sh).zipIdx s

/-- The encode loop: the samples in ascending order (43_entropy_encoder.md R188, R189). -/
def encodeAll (sh : Shape) (s : State) : Run :=
  runEach (encodeSample sh) (List.range s.j.samples.toNat) s

/-- Entry to the ENCODE phase of a non-raw job (43_entropy_encoder.md R170). -/
def setupEncoders (esc : Escape) (s : State) : State :=
  { s with
    enc :=
      { streamLen := 0
        pri := encoderSetup s.j.golombPar.toNat s.j.spill.toNat esc
        sec := encoderSetup golombParExposureFlags s.j.spill.toNat esc } }

/-- The ENCODE phase of a non-raw job up to its last emission (45_dispatcher.md R230). -/
def encodePhase (sh : Shape) (esc : Escape) (s : State) : Run :=
  encodeAll sh (setupEncoders esc (enterPhase .encode s))

end Sys2Proof.Machine
end

