-- ==== Sys2Proof/Machine/Flags.lean ====
section
/-! DEFINITION. The error bits of `INFO.cmp_err` (10_state.md R33) and the validator, the stage that sets them
(40_validator.md R100 to R120): fifteen checks, each a named condition with the bit it sets. The validator reads the
job record only, never MEM. -/

namespace Sys2Proof.Machine

/-! ### The positions of the error bits, `ERR_BIT` (10_state.md R33; log 16). `SMALL_BUFFER_ERR_BIT` stands in `Ops.lean`. -/

/-- `CMP_MODE_ERR_BIT`. -/
def cmpModeErrBit : Nat := 1

/-- `MODEL_VALUE_ERR_BIT`. -/
def modelValueErrBit : Nat := 2

/-- `CMP_PAR_ERR_BIT`. -/
def cmpParErrBit : Nat := 3

/-- `AP1_CMP_PAR_ERR_BIT`, never set by this core (00_scope.md R5). -/
def ap1CmpParErrBit : Nat := 4

/-- `AP2_CMP_PAR_ERR_BIT`, never set by this core (00_scope.md R5). -/
def ap2CmpParErrBit : Nat := 5

/-! ### The fifteen checks -/

/-- V1: `input` absent (40_validator.md R101). -/
def checkV1 (j : JobRecord) : Bool := !j.input.present

/-- V2: `output` absent (R102). -/
def checkV2 (j : JobRecord) : Bool := !j.output.present

/-- V3: `input` and `output` are equal handles (R103). -/
def checkV3 (j : JobRecord) : Bool := j.input.same j.output

/-- V4: `buffer_length = 0` and `samples > 0` (R104). -/
def checkV4 (j : JobRecord) : Bool := decide (j.bufferLength.toNat = 0) && decide (0 < j.samples.toNat)

/-- V5: a model mode with `model` absent (R105). -/
def checkV5 (j : JobRecord) : Bool := isModel j.mode && !j.model.present

/-- V6: a model mode with `model` equal to `input` (R106). -/
def checkV6 (j : JobRecord) : Bool := isModel j.mode && j.model.same j.input

/-- V7: a model mode with `model` equal to `output` (R107). -/
def checkV7 (j : JobRecord) : Bool := isModel j.mode && j.model.same j.output

/-- V8: a model mode with `updated_model` equal to `input` (R108). -/
def checkV8 (j : JobRecord) : Bool := isModel j.mode && j.updatedModel.same j.input

/-- V9: a model mode with `updated_model` equal to `output` (R109). -/
def checkV9 (j : JobRecord) : Bool := isModel j.mode && j.updatedModel.same j.output

/-- V10: a raw mode with `samples > buffer_length` (R110). -/
def checkV10 (j : JobRecord) : Bool := isRaw j.mode && decide (j.bufferLength.toNat < j.samples.toNat)

/-- V11: `mode` unrecognised (R111). -/
def checkV11 (j : JobRecord) : Bool := (descriptor j.mode).isNone

/-- V12: a model mode with `model_value > MAX_MODEL_VALUE` (R113). -/
def checkV12 (j : JobRecord) : Bool := isModel j.mode && decide (Config.maxModelValue < j.modelValue.toNat)

/-- V13: `golomb_par` outside `[MIN_ICU_GOLOMB_PAR, MAX_ICU_GOLOMB_PAR]` (R114). -/
def checkV13 (j : JobRecord) : Bool :=
  decide (j.golombPar.toNat < Config.minIcuGolombPar) || decide (maxIcuGolombPar < j.golombPar.toNat)

/-- V14: `spill` outside `[MIN_ICU_SPILL, MAX_SPILL(golomb_par, mode)]` (R115). -/
def checkV14 (j : JobRecord) : Bool :=
  decide (j.spill.toNat < minIcuSpill) || decide (maxSpill j.golombPar.toNat j.mode < j.spill.toNat)

/-- V15: `round > MAX_ICU_ROUND` (R116). -/
def checkV15 (j : JobRecord) : Bool := decide (Config.maxIcuRound < j.round.toNat)

/-- The checks that are always evaluated, V1 to V11, each with the bit it sets (40_validator.md R100, R120). -/
def checksAlways (j : JobRecord) : List (Bool × Option Nat) :=
  [(checkV1 j, none), (checkV2 j, none), (checkV3 j, none), (checkV4 j, some smallBufferErrBit),
    (checkV5 j, none), (checkV6 j, none), (checkV7 j, none), (checkV8 j, none), (checkV9 j, none),
    (checkV10 j, some smallBufferErrBit), (checkV11 j, some cmpModeErrBit)]

/-- The parameter checks, V12 to V15, each with the bit it sets (40_validator.md R100, R120). -/
def checksParameters (j : JobRecord) : List (Bool × Option Nat) :=
  [(checkV12 j, some modelValueErrBit), (checkV13 j, some cmpParErrBit), (checkV14 j, some cmpParErrBit),
    (checkV15 j, some cmpParErrBit)]

/-- The checks of a job: raw modes short-circuit after V11 (40_validator.md R112). -/
def checksOf (j : JobRecord) : List (Bool × Option Nat) :=
  if isRaw j.mode then checksAlways j else checksAlways j ++ checksParameters j

/-- `Validate(J)`: the number of checks that fire (40_validator.md R100). -/
def validateCount (j : JobRecord) : Nat :=
  ((checksOf j).filter (fun c => c.1)).length

/-- The error bits that the firing checks set (40_validator.md R100). -/
def validateBits (j : JobRecord) : BitVec 16 :=
  ((checksOf j).filter (fun c => c.1)).foldl
    (fun err c => match c.2 with
      | some b => setErrBit err b
      | none => err) 0

end Sys2Proof.Machine
end

