-- ==== Sys2Proof/Machine/Mapper.lean ====
section
/-! DEFINITION. The mapper, stage 3 (42_mapper.md): the signed-to-unsigned fold of every residual and the bias of the
zero escape, in place in the input buffer. It sets no error bit and cannot fail. -/

namespace Sys2Proof.Machine

/-- `map_to_pos_W(s)` (42_mapper.md R161): residuals read as two's complement, all arithmetic modulo `2^W`. -/
def mapToPos {w : Nat} (s : BitVec w) : BitVec w :=
  if s.msb then (-s) * 2 - 1 else s * 2

/-- `Map(s, W, bias)` (42_mapper.md R163): the fold, and one more under the zero escape in a biased field. -/
def mapValue {w : Nat} (esc : Escape) (biased : Bool) (s : BitVec w) : BitVec w :=
  if esc = .zero ∧ biased = true then mapToPos s + 1 else mapToPos s

/-- The mapping of one field of one sample (42_mapper.md R160). -/
def mapField (input : Handle) (sh : Shape) (esc : Escape) (i : Nat) (f : Field) (m : Memory) : Memory :=
  fieldWrite m input sh i f (mapValue esc f.biased (fieldRead m input sh i f))

/-- What the MAP phase does to MEM (42_mapper.md R160). -/
def mapMemory (j : JobRecord) (sh : Shape) (esc : Escape) (m : Memory) : Memory :=
  (List.range j.samples.toNat).foldl
    (fun m i => (shapeFields sh).foldl (fun m f => mapField j.input sh esc i f m) m) m

/-- The MAP phase (45_dispatcher.md R230). SEQ ends at the last field of the last sample (log 22). -/
def mapPhase (sh : Shape) (esc : Escape) (s : State) : State :=
  setCursor (s.j.samples.toNat - 1) ((shapeFields sh).length - 1)
    { enterPhase .map s with mem := mapMemory s.j sh esc s.mem }

end Sys2Proof.Machine
end

