-- ==== Sys2Proof/Machine/Preprocessor.lean ====
section
/-! DEFINITION. The pre-processor, stage 2 (41_preprocessor.md): lossy rounding, the difference transform, the model
residual and the model update, all in place in MEM. It sets no error bit and cannot fail (R143). -/

namespace Sys2Proof.Machine

/-- `round_fwd(v, k) = v >> k` in the field's width (41_preprocessor.md R131). -/
def roundFwd {w : Nat} (v : BitVec w) (k : Nat) : BitVec w := v >>> k

/-- `round_inv_W(v, k) = v <<_W k` (41_preprocessor.md R132). -/
def roundInv {w : Nat} (v : BitVec w) (k : Nat) : BitVec w := v <<< k

/-- The difference transform of one field, samples `n` down to 1 and then sample 0 (41_preprocessor.md R133, R134): tail
to head, so that each read of the sample before still finds the launch value. -/
def diffField (input : Handle) (sh : Shape) (k : Nat) (f : Field) : Nat → Memory → Memory
  | 0, m => fieldWrite m input sh 0 f (roundFwd (fieldRead m input sh 0 f) k)
  | n + 1, m =>
    diffField input sh k f n
      (fieldWrite m input sh (n + 1) f
        (roundFwd (fieldRead m input sh (n + 1) f) k - roundFwd (fieldRead m input sh n f) k))

/-- The difference transform of every field of the shape (41_preprocessor.md R130, R133). -/
def diffMemory (j : JobRecord) (sh : Shape) (m : Memory) : Memory :=
  (shapeFields sh).foldl (fun m f => diffField j.input sh j.round.toNat f (j.samples.toNat - 1) m) m

/-- The model residual and the model update of one field of one sample (41_preprocessor.md R135, R136): the model enters
the residual rounded and the update unrounded; the residual is written first, then the updated model. -/
def modelField (j : JobRecord) (sh : Shape) (i : Nat) (f : Field) (m : Memory) : Memory :=
  let k := j.round.toNat
  let x := fieldRead m j.input sh i f
  let y := fieldRead m j.model sh i f
  let rin := roundFwd x k
  let updated := calUpModel (roundInv rin k).toNat y.toNat j.modelValue.toNat
  fieldWrite (fieldWrite m j.input sh i f (rin - roundFwd y k)) (modelTarget j) sh i f (BitVec.ofNat _ updated)

/-- The model transform of every sample, head to tail (41_preprocessor.md R135, R137). -/
def modelMemory (j : JobRecord) (sh : Shape) (m : Memory) : Memory :=
  (List.range j.samples.toNat).foldl (fun m i => (shapeFields sh).foldl (fun m f => modelField j sh i f m) m) m

/-- What the PRE phase does to MEM (41_preprocessor.md R130). -/
def preMemory (j : JobRecord) (sh : Shape) (pre : Pre) (m : Memory) : Memory :=
  match pre with
  | .none => m
  | .diff => diffMemory j sh m
  | .model => modelMemory j sh m

/-- Where SEQ stands at the end of the PRE phase: the difference transform ends with sample 0, the model transform with
the last sample, both with the last field (10_state.md R28; log 22). -/
def preCursor (j : JobRecord) (pre : Pre) : Nat :=
  match pre with
  | .model => j.samples.toNat - 1
  | _ => 0

/-- The PRE phase (45_dispatcher.md R230). -/
def prePhase (sh : Shape) (pre : Pre) (s : State) : State :=
  setCursor (preCursor s.j pre) ((shapeFields sh).length - 1)
    { enterPhase .pre s with mem := preMemory s.j sh pre s.mem }

end Sys2Proof.Machine
end

