-- ==== Sys2Proof/Machine/Job.lean ====
section
/-! DEFINITION. The job as a whole (45_dispatcher.md R230 to R233): the latch at an accepted start command, the
validator's verdict, the phases of a raw and of a compressing job, and one phase at a time for the finer grain
(10_state.md R27, R28; log 1). The meanings of the modes are one line each over `rawJob` and `compressedJob`. -/

namespace Sys2Proof.Machine

/-- What a step of the core answers. -/
abbrev StepResult : Type := Host.Outcome State Fault Refusal

/-- Go on from a step's answer. -/
def andThen (r : StepResult) (k : State → StepResult) : StepResult :=
  match r with
  | .next s => k s
  | .fault e => .fault e
  | .refused e => .refused e

/-- An accepted start command latches the job record and re-initialises the per-job state (45_dispatcher.md R230,
10_state.md R24, R35). One free draw is taken, for reads of registers in flight (log 6). -/
def latchJob (j : JobRecord) (s : State) : State :=
  { drawFree s with
    j := j
    seq := { s.seq with phase := .validate }
    enc := { s.enc with streamLen := 0 }
    status := { busy := true, done := false, kind := .ok, retval := 0 }
    info :=
      { cmpErr := 0, cmpSize := 0, cmpModeUsed := j.mode, modelValueUsed := j.modelValue
        golombParUsed := j.golombPar, spillUsed := j.spill, roundUsed := j.round, samplesUsed := j.samples } }

/-- The validator deposits the error bits (40_validator.md R100). -/
def depositBits (s : State) : State :=
  { s with info := { s.info with cmpErr := validateBits s.j } }

/-- The VALIDATE phase (45_dispatcher.md R230): a configuration error ends the job (40_validator.md R119); a job without
samples ends in success (R117); a launch outside the premises is refused (70 R335 to R338); else `k` goes on. The
descriptor `d` says which buffers the job uses. -/
def validateThen (d : Descriptor) (k : State → StepResult) (s : State) : StepResult :=
  let s₁ := depositBits s
  if 0 < validateCount s.j then .next (raiseError (.config (validateCount s.j)) s₁)
  else if s.j.samples.toNat = 0 then .next (finishJob s₁)
  else
    match launchRefusal s.j d with
    | some r => .refused r
    | none => k s₁

/-- The end of the ENCODE phase of a compressing job: on success `k` goes on (to the PAD phase); an error ends the job
and leaves the output buffer unspecified (20_memory.md R68). -/
def afterEncode (r : Run) (k : State → StepResult) : StepResult :=
  match r with
  | .go s => k s
  | .stop e s => .next (raiseError e (abandonOutput s))

/-- The PAD phase and the completion of a successful compressing job (44_bitpacker.md R221, R225). -/
def completeCompressed (s : State) : State :=
  succeedJob s.enc.streamLen (padPhase s)

/-- A raw job from its start command to its end (45_dispatcher.md R230, `pre = NONE`). -/
def rawJob (j : JobRecord) (sh : Shape) (s : State) : StepResult :=
  validateThen { shape := sh, pre := .none, esc := none } (fun s => .next (rawPhase sh s)) (latchJob j s)

/-- A compressing job from its start command to its end (45_dispatcher.md R230, R233). -/
def compressedJob (j : JobRecord) (sh : Shape) (pre : Pre) (esc : Escape) (s : State) : StepResult :=
  validateThen { shape := sh, pre := pre, esc := some esc }
    (fun s =>
      afterEncode (encodePhase sh esc (mapPhase sh esc (prePhase sh pre s)))
        (fun s => .next (completeCompressed s)))
    (latchJob j s)

/-- A job whose mode word is unrecognised (30_encoding.md R87): check V11 fires, so the job ends in a configuration
error (40_validator.md R111). The other branch, an unsupported mode at the dispatcher, is the internal error the source
prescribes and is unreachable (45_dispatcher.md R231, 93 U10; log 20). -/
def unrecognisedPhase (s : State) : State :=
  let s₁ := depositBits s
  if 0 < validateCount s.j then raiseError (.config (validateCount s.j)) s₁ else raiseError .internal s₁

/-- A job with an unrecognised mode from its start command to its end. -/
def unrecognisedJob (j : JobRecord) (s : State) : StepResult :=
  .next (unrecognisedPhase (latchJob j s))

/-! ### One phase at a time (10_state.md R27, R28; log 1) -/

/-- The VALIDATE phase as a step: it ends the job, refuses the launch, or enters the next phase (10_state.md R27: PRE, or
ENCODE in raw modes). -/
def validateStep (s : State) : StepResult :=
  match descriptor s.j.mode with
  | none => .next (unrecognisedPhase s)
  | some d =>
    validateThen d (fun s => .next (enterPhase (if d.pre = .none then .encode else .pre) s)) s

/-- The PRE phase as a step. -/
def preStep (s : State) : StepResult :=
  match descriptor s.j.mode with
  | none => .next (raiseError .internal s)
  | some d => .next (enterPhase .map (prePhase d.shape d.pre s))

/-- The MAP phase as a step. -/
def mapStep (s : State) : StepResult :=
  match descriptor s.j.mode with
  | some { shape := sh, pre := _, esc := some e } => .next (enterPhase .encode (mapPhase sh e s))
  | _ => .next (raiseError .internal s)

/-- The ENCODE phase as a step: the raw copy in raw modes, else the encoder. -/
def encodeStep (s : State) : StepResult :=
  match descriptor s.j.mode with
  | some { shape := sh, pre := _, esc := some e } => afterEncode (encodePhase sh e s) (fun s => .next (enterPhase .pad s))
  | some { shape := sh, pre := _, esc := none } => .next (rawPhase sh s)
  | none => .next (raiseError .internal s)

/-- The core's move at the grain of phases: a running job advances by one phase; an idle core does nothing (70 R330,
60_exceptions.md R320). -/
def coreMove (s : State) : StepResult :=
  if s.status.busy then
    match s.seq.phase with
    | .validate => validateStep s
    | .pre => preStep s
    | .map => mapStep s
    | .encode => encodeStep s
    | .pad => .next (completeCompressed s)
    | .idle => .next s
    | .done => .next s
  else .next s

/-- `k` moves of the core in a row. -/
def coreMoves : Nat → State → StepResult
  | 0, s => .next s
  | k + 1, s => andThen (coreMove s) (coreMoves k)

end Sys2Proof.Machine
end

