-- ==== Sys2Proof/Machine/FFx.lean ====
section
/-! DEFINITION. The four modes of shape F_FX, processed as U32 (30_encoding.md R85): one meaning per mode (45_dispatcher.md). Each fixes the mode's shape,
pre-processing and escape mechanism, as its rule writes them, and runs the job scheme of R230 and R233. -/

namespace Sys2Proof.Machine

/-- `MODEL_ZERO_F_FX`, mode code 140 (45_dispatcher.md R262): residuals against the model, which is updated; zero escape. -/
def execModelZeroFFx (o : JobOperands) (s : State) : StepResult :=
  compressedJob (jobOf (.modelZeroFFx o)) .fFx .model .zero s

/-- `DIFF_ZERO_F_FX`, mode code 141 (45_dispatcher.md R263): differences of successive samples; zero escape. -/
def execDiffZeroFFx (o : JobOperands) (s : State) : StepResult :=
  compressedJob (jobOf (.diffZeroFFx o)) .fFx .diff .zero s

/-- `MODEL_MULTI_F_FX`, mode code 142 (45_dispatcher.md R264): residuals against the model, which is updated; multi escape. -/
def execModelMultiFFx (o : JobOperands) (s : State) : StepResult :=
  compressedJob (jobOf (.modelMultiFFx o)) .fFx .model .multi s

/-- `DIFF_MULTI_F_FX`, mode code 143 (45_dispatcher.md R265): differences of successive samples; multi escape. -/
def execDiffMultiFFx (o : JobOperands) (s : State) : StepResult :=
  compressedJob (jobOf (.diffMultiFFx o)) .fFx .diff .multi s

end Sys2Proof.Machine
end

