-- ==== Sys2Proof/Machine/Imagette.lean ====
section
/-! DEFINITION. The five 16-bit modes (shape U16): one meaning per mode (45_dispatcher.md). Each fixes the mode's shape,
pre-processing and escape mechanism, as its rule writes them, and runs the job scheme of R230 and R233. -/

namespace Sys2Proof.Machine

/-- `RAW`, mode code 0 (45_dispatcher.md R240): the samples are copied unchanged, 2 bytes each. -/
def execRaw (o : JobOperands) (s : State) : StepResult :=
  rawJob (jobOf (.raw o)) .u16 s

/-- `MODEL_ZERO`, mode code 1 (45_dispatcher.md R241): residuals against the model, which is updated; zero escape. -/
def execModelZero (o : JobOperands) (s : State) : StepResult :=
  compressedJob (jobOf (.modelZero o)) .u16 .model .zero s

/-- `DIFF_ZERO`, mode code 2 (45_dispatcher.md R242): differences of successive samples; zero escape. -/
def execDiffZero (o : JobOperands) (s : State) : StepResult :=
  compressedJob (jobOf (.diffZero o)) .u16 .diff .zero s

/-- `MODEL_MULTI`, mode code 3 (45_dispatcher.md R243): residuals against the model, which is updated; multi escape. -/
def execModelMulti (o : JobOperands) (s : State) : StepResult :=
  compressedJob (jobOf (.modelMulti o)) .u16 .model .multi s

/-- `DIFF_MULTI`, mode code 4 (45_dispatcher.md R244): differences of successive samples; multi escape. -/
def execDiffMulti (o : JobOperands) (s : State) : StepResult :=
  compressedJob (jobOf (.diffMulti o)) .u16 .diff .multi s

end Sys2Proof.Machine
end

