-- ==== Sys2Proof/Machine/SFx.lean ====
section
/-! DEFINITION. The five modes of shape S_FX: one meaning per mode (45_dispatcher.md). Each fixes the mode's shape,
pre-processing and escape mechanism, as its rule writes them, and runs the job scheme of R230 and R233. -/

namespace Sys2Proof.Machine

/-- `RAW_S_FX`, mode code 100 (45_dispatcher.md R245): the samples are copied unchanged, 5 bytes each. -/
def execRawSFx (o : JobOperands) (s : State) : StepResult :=
  rawJob (jobOf (.rawSFx o)) .sFx s

/-- `MODEL_ZERO_S_FX`, mode code 101 (45_dispatcher.md R246): residuals against the model, which is updated; zero escape. -/
def execModelZeroSFx (o : JobOperands) (s : State) : StepResult :=
  compressedJob (jobOf (.modelZeroSFx o)) .sFx .model .zero s

/-- `DIFF_ZERO_S_FX`, mode code 102 (45_dispatcher.md R247): differences of successive samples; zero escape. -/
def execDiffZeroSFx (o : JobOperands) (s : State) : StepResult :=
  compressedJob (jobOf (.diffZeroSFx o)) .sFx .diff .zero s

/-- `MODEL_MULTI_S_FX`, mode code 103 (45_dispatcher.md R248): residuals against the model, which is updated; multi escape. -/
def execModelMultiSFx (o : JobOperands) (s : State) : StepResult :=
  compressedJob (jobOf (.modelMultiSFx o)) .sFx .model .multi s

/-- `DIFF_MULTI_S_FX`, mode code 104 (45_dispatcher.md R249): differences of successive samples; multi escape. -/
def execDiffMultiSFx (o : JobOperands) (s : State) : StepResult :=
  compressedJob (jobOf (.diffMultiSFx o)) .sFx .diff .multi s

end Sys2Proof.Machine
end

