-- ==== Sys2Proof/Machine/SFxEfx.lean ====
section
/-! DEFINITION. The four modes of shape S_FX_EFX: one meaning per mode (45_dispatcher.md). Each fixes the mode's shape,
pre-processing and escape mechanism, as its rule writes them, and runs the job scheme of R230 and R233. -/

namespace Sys2Proof.Machine

/-- `MODEL_ZERO_S_FX_EFX`, mode code 110 (45_dispatcher.md R250): residuals against the model, which is updated; zero escape. -/
def execModelZeroSFxEfx (o : JobOperands) (s : State) : StepResult :=
  compressedJob (jobOf (.modelZeroSFxEfx o)) .sFxEfx .model .zero s

/-- `DIFF_ZERO_S_FX_EFX`, mode code 111 (45_dispatcher.md R251): differences of successive samples; zero escape. -/
def execDiffZeroSFxEfx (o : JobOperands) (s : State) : StepResult :=
  compressedJob (jobOf (.diffZeroSFxEfx o)) .sFxEfx .diff .zero s

/-- `MODEL_MULTI_S_FX_EFX`, mode code 112 (45_dispatcher.md R252): residuals against the model, which is updated; multi escape. -/
def execModelMultiSFxEfx (o : JobOperands) (s : State) : StepResult :=
  compressedJob (jobOf (.modelMultiSFxEfx o)) .sFxEfx .model .multi s

/-- `DIFF_MULTI_S_FX_EFX`, mode code 113 (45_dispatcher.md R253): differences of successive samples; multi escape. -/
def execDiffMultiSFxEfx (o : JobOperands) (s : State) : StepResult :=
  compressedJob (jobOf (.diffMultiSFxEfx o)) .sFxEfx .diff .multi s

end Sys2Proof.Machine
end

