-- ==== Sys2Proof/Machine/SFxEfxNcobEcob.lean ====
section
/-! DEFINITION. The four modes of shape S_FX_EFX_NCOB_ECOB: one meaning per mode (45_dispatcher.md). Each fixes the mode's shape,
pre-processing and escape mechanism, as its rule writes them, and runs the job scheme of R230 and R233. -/

namespace Sys2Proof.Machine

/-- `MODEL_ZERO_S_FX_EFX_NCOB_ECOB`, mode code 130 (45_dispatcher.md R258): residuals against the model, which is updated; zero escape. -/
def execModelZeroSFxEfxNcobEcob (o : JobOperands) (s : State) : StepResult :=
  compressedJob (jobOf (.modelZeroSFxEfxNcobEcob o)) .sFxEfxNcobEcob .model .zero s

/-- `DIFF_ZERO_S_FX_EFX_NCOB_ECOB`, mode code 131 (45_dispatcher.md R259): differences of successive samples; zero escape. -/
def execDiffZeroSFxEfxNcobEcob (o : JobOperands) (s : State) : StepResult :=
  compressedJob (jobOf (.diffZeroSFxEfxNcobEcob o)) .sFxEfxNcobEcob .diff .zero s

/-- `MODEL_MULTI_S_FX_EFX_NCOB_ECOB`, mode code 132 (45_dispatcher.md R260): residuals against the model, which is updated; multi escape. -/
def execModelMultiSFxEfxNcobEcob (o : JobOperands) (s : State) : StepResult :=
  compressedJob (jobOf (.modelMultiSFxEfxNcobEcob o)) .sFxEfxNcobEcob .model .multi s

/-- `DIFF_MULTI_S_FX_EFX_NCOB_ECOB`, mode code 133 (45_dispatcher.md R261): differences of successive samples; multi escape. -/
def execDiffMultiSFxEfxNcobEcob (o : JobOperands) (s : State) : StepResult :=
  compressedJob (jobOf (.diffMultiSFxEfxNcobEcob o)) .sFxEfxNcobEcob .diff .multi s

end Sys2Proof.Machine
end

