-- ==== Sys2Proof/Machine/SFxNcob.lean ====
section
/-! DEFINITION. The four modes of shape S_FX_NCOB: one meaning per mode (45_dispatcher.md). Each fixes the mode's shape,
pre-processing and escape mechanism, as its rule writes them, and runs the job scheme of R230 and R233. -/

namespace Sys2Proof.Machine

/-- `MODEL_ZERO_S_FX_NCOB`, mode code 120 (45_dispatcher.md R254): residuals against the model, which is updated; zero escape. -/
def execModelZeroSFxNcob (o : JobOperands) (s : State) : StepResult :=
  compressedJob (jobOf (.modelZeroSFxNcob o)) .sFxNcob .model .zero s

/-- `DIFF_ZERO_S_FX_NCOB`, mode code 121 (45_dispatcher.md R255): differences of successive samples; zero escape. -/
def execDiffZeroSFxNcob (o : JobOperands) (s : State) : StepResult :=
  compressedJob (jobOf (.diffZeroSFxNcob o)) .sFxNcob .diff .zero s

/-- `MODEL_MULTI_S_FX_NCOB`, mode code 122 (45_dispatcher.md R256): residuals against the model, which is updated; multi escape. -/
def execModelMultiSFxNcob (o : JobOperands) (s : State) : StepResult :=
  compressedJob (jobOf (.modelMultiSFxNcob o)) .sFxNcob .model .multi s

/-- `DIFF_MULTI_S_FX_NCOB`, mode code 123 (45_dispatcher.md R257): differences of successive samples; multi escape. -/
def execDiffMultiSFxNcob (o : JobOperands) (s : State) : StepResult :=
  compressedJob (jobOf (.diffMultiSFxNcob o)) .sFxNcob .diff .multi s

end Sys2Proof.Machine
end

