-- ==== Sys2Proof/Machine/U32.lean ====
section
/-! DEFINITION. The four modes of shape U32: one meaning per mode (45_dispatcher.md). Each fixes the mode's shape,
pre-processing and escape mechanism, as its rule writes them, and runs the job scheme of R230 and R233. -/

namespace Sys2Proof.Machine

/-- `MODEL_ZERO_32`, mode code 200 (45_dispatcher.md R266): residuals against the model, which is updated; zero escape. -/
def execModelZero32 (o : JobOperands) (s : State) : StepResult :=
  compressedJob (jobOf (.modelZero32 o)) .u32 .model .zero s

/-- `DIFF_ZERO_32`, mode code 201 (45_dispatcher.md R267): differences of successive samples; zero escape. -/
def execDiffZero32 (o : JobOperands) (s : State) : StepResult :=
  compressedJob (jobOf (.diffZero32 o)) .u32 .diff .zero s

/-- `MODEL_MULTI_32`, mode code 202 (45_dispatcher.md R268): residuals against the model, which is updated; multi escape. -/
def execModelMulti32 (o : JobOperands) (s : State) : StepResult :=
  compressedJob (jobOf (.modelMulti32 o)) .u32 .model .multi s

/-- `DIFF_MULTI_32`, mode code 203 (45_dispatcher.md R269): differences of successive samples; multi escape. -/
def execDiffMulti32 (o : JobOperands) (s : State) : StepResult :=
  compressedJob (jobOf (.diffMulti32 o)) .u32 .diff .multi s

end Sys2Proof.Machine
end

