-- ==== Sys2Proof/Machine/Dispatch.lean ====
section
/-! DEFINITION. The dispatch: one arm per instruction, each one call of its meaning (45_dispatcher.md R231). -/

namespace Sys2Proof.Machine

def exec (i : Instr) (s : State) : Host.Outcome State Fault Refusal :=
  match i with
  | .raw o => Sys2Proof.Machine.execRaw o s
  | .modelZero o => Sys2Proof.Machine.execModelZero o s
  | .diffZero o => Sys2Proof.Machine.execDiffZero o s
  | .modelMulti o => Sys2Proof.Machine.execModelMulti o s
  | .diffMulti o => Sys2Proof.Machine.execDiffMulti o s
  | .rawSFx o => Sys2Proof.Machine.execRawSFx o s
  | .modelZeroSFx o => Sys2Proof.Machine.execModelZeroSFx o s
  | .diffZeroSFx o => Sys2Proof.Machine.execDiffZeroSFx o s
  | .modelMultiSFx o => Sys2Proof.Machine.execModelMultiSFx o s
  | .diffMultiSFx o => Sys2Proof.Machine.execDiffMultiSFx o s
  | .modelZeroSFxEfx o => Sys2Proof.Machine.execModelZeroSFxEfx o s
  | .diffZeroSFxEfx o => Sys2Proof.Machine.execDiffZeroSFxEfx o s
  | .modelMultiSFxEfx o => Sys2Proof.Machine.execModelMultiSFxEfx o s
  | .diffMultiSFxEfx o => Sys2Proof.Machine.execDiffMultiSFxEfx o s
  | .modelZeroSFxNcob o => Sys2Proof.Machine.execModelZeroSFxNcob o s
  | .diffZeroSFxNcob o => Sys2Proof.Machine.execDiffZeroSFxNcob o s
  | .modelMultiSFxNcob o => Sys2Proof.Machine.execModelMultiSFxNcob o s
  | .diffMultiSFxNcob o => Sys2Proof.Machine.execDiffMultiSFxNcob o s
  | .modelZeroSFxEfxNcobEcob o => Sys2Proof.Machine.execModelZeroSFxEfxNcobEcob o s
  | .diffZeroSFxEfxNcobEcob o => Sys2Proof.Machine.execDiffZeroSFxEfxNcobEcob o s
  | .modelMultiSFxEfxNcobEcob o => Sys2Proof.Machine.execModelMultiSFxEfxNcobEcob o s
  | .diffMultiSFxEfxNcobEcob o => Sys2Proof.Machine.execDiffMultiSFxEfxNcobEcob o s
  | .modelZeroFFx o => Sys2Proof.Machine.execModelZeroFFx o s
  | .diffZeroFFx o => Sys2Proof.Machine.execDiffZeroFFx o s
  | .modelMultiFFx o => Sys2Proof.Machine.execModelMultiFFx o s
  | .diffMultiFFx o => Sys2Proof.Machine.execDiffMultiFFx o s
  | .modelZero32 o => Sys2Proof.Machine.execModelZero32 o s
  | .diffZero32 o => Sys2Proof.Machine.execDiffZero32 o s
  | .modelMulti32 o => Sys2Proof.Machine.execModelMulti32 o s
  | .diffMulti32 o => Sys2Proof.Machine.execDiffMulti32 o s

end Sys2Proof.Machine
end

