-- ==== Sys2Proof/Machine/HostPort.lean ====
section
/-! DEFINITION. The register block as the host sees it (10_state.md R23, R25, R26), the host's access to MEM (20_memory.md
R62) and the reset (10_state.md R40). Reading changes nothing (R26), so reads are functions of the state and no moves
(log 23). -/

namespace Sys2Proof.Machine

/-! ### Reading registers -/

/-- The number of a phase, for telling the free values of reads in flight apart. -/
def Phase.number : Phase → Nat
  | .idle => 0
  | .validate => 1
  | .pre => 2
  | .map => 3
  | .encode => 4
  | .pad => 5
  | .done => 6

/-- The two bits of `STATUS.kind` (10_state.md R32). -/
def JobKind.code : JobKind → Nat
  | .ok => 0
  | .cfgErr => 1
  | .smallBuf => 2
  | .internal => 3

/-- A register that a running job may be about to change reads as a free value while `busy = 1` (10_state.md R32, 93 U14;
log 6). -/
def inFlight (s : State) (offset : Nat) (w : Word) : Word :=
  if s.status.busy then Config.inFlightWord s.freeDraws s.seq.phase.number offset else w

/-- The word `STATUS` reads as: bit 0 busy, bit 1 done, bits 3:2 kind, bits 31:4 zero (10_state.md R23); busy and done are
definite at all times (93 U14). -/
def statusWord (s : State) : Word :=
  BitVec.ofNat 32 (s.status.busy.toNat + 2 * s.status.done.toNat)
    ||| (inFlight s 0x04 (BitVec.ofNat 32 (4 * s.status.kind.code)) &&& 0xC#32)

/-- The six error bits of `INFO.cmp_err`: bits 6 to 15 always read 0, and so do bits 31:16 (10_state.md R33, R23), also while
a job runs. -/
def errBitsMask : Word := 0x3F#32

/-- What the host reads at a byte offset of the register block (10_state.md R23): `CTRL` is write-only and reads 0, as do
the offsets that the table does not list. -/
def readReg (s : State) (offset : Nat) : Word :=
  match offset with
  | 0x04 => statusWord s
  | 0x08 => inFlight s 0x08 s.status.retval
  | 0x10 => s.cfg.mode
  | 0x14 => s.cfg.golombPar
  | 0x18 => s.cfg.spill
  | 0x1C => s.cfg.modelValue
  | 0x20 => s.cfg.round
  | 0x24 => s.cfg.samples
  | 0x28 => s.cfg.bufferLength
  | 0x2C => presentWord s.cfg
  | 0x30 => s.cfg.input.base
  | 0x34 => s.cfg.model.base
  | 0x38 => s.cfg.updatedModel.base
  | 0x3C => s.cfg.output.base
  | 0x40 => inFlight s 0x40 (s.info.cmpErr.setWidth 32) &&& errBitsMask
  | 0x44 => inFlight s 0x44 s.info.cmpSize
  | 0x48 => inFlight s 0x48 s.info.cmpModeUsed
  | 0x4C => inFlight s 0x4C s.info.modelValueUsed
  | 0x50 => inFlight s 0x50 s.info.golombParUsed
  | 0x54 => inFlight s 0x54 s.info.spillUsed
  | 0x58 => inFlight s 0x58 s.info.roundUsed
  | 0x5C => inFlight s 0x5C s.info.samplesUsed
  | _ => 0

/-! ### Writing registers -/

/-- A handle with its base replaced. -/
def Handle.setBase (h : Handle) (base : Word) : Handle := { h with base := base }

/-- CFG after a host write of a word at a byte offset (10_state.md R23, R25): the configuration registers take the word,
`CFG_PRESENT` its bits 3:0; read-only registers and offsets that are not listed ignore the write. -/
def writeCfg (offset : Nat) (value : Word) (c : JobRecord) : JobRecord :=
  match offset with
  | 0x10 => { c with mode := value }
  | 0x14 => { c with golombPar := value }
  | 0x18 => { c with spill := value }
  | 0x1C => { c with modelValue := value }
  | 0x20 => { c with round := value }
  | 0x24 => { c with samples := value }
  | 0x28 => { c with bufferLength := value }
  | 0x2C =>
    { c with
      input := handleOf value 0 c.input.base
      model := handleOf value 1 c.model.base
      updatedModel := handleOf value 2 c.updatedModel.base
      output := handleOf value 3 c.output.base }
  | 0x30 => { c with input := c.input.setBase value }
  | 0x34 => { c with model := c.model.setBase value }
  | 0x38 => { c with updatedModel := c.updatedModel.setBase value }
  | 0x3C => { c with output := c.output.setBase value }
  | _ => c

/-- The byte offset of `CTRL` (10_state.md R23). -/
def ctrlOffset : Nat := 0x00

/-- A host write to a register other than `CTRL`: accepted at any time, and it changes CFG only (10_state.md R25). -/
def hostWriteReg (offset : Nat) (value : Word) (s : State) : State :=
  { s with cfg := writeCfg offset value s.cfg }

/-! ### The host and MEM -/

/-- The address lies in a buffer that the running job has borrowed (20_memory.md R62). DESIGN CHOICE (log 9): a running job
whose mode is unrecognised borrows nothing. R52 gives its sample buffers no size, because the size needs the mode's shape,
and does not say whether its output counts as a non-raw one; such a job touches no byte of MEM (R66). DESIGN CHOICE too (log
9): a buffer of a job still in VALIDATE that runs over the top of MEM is borrowed up to the top, and its wrapped addresses from
0 on are not; the spec does not say, and such a job never gets past VALIDATE (70 R336 (a)). -/
def borrowed (s : State) (a : Nat) : Bool :=
  s.status.busy &&
    match descriptor s.j.mode with
    | some d => (usedExtents s.j d).any (fun e => e.covers a)
    | none => false

/-- A host write of one byte of MEM: outside MEM there is no such address (20_memory.md R50); a borrowed byte is refused
(R62, 93 U13; log 9). -/
def hostWriteMem (a : Nat) (b : Byte) (s : State) : StepResult :=
  if 2 ^ Config.addrW ≤ a then .fault (.noSuchAddress a)
  else if borrowed s a then .refused (.hostTouchesBuffer a)
  else .next { s with mem := s.mem.writeByte a b }

/-- What the host reads from MEM; nothing for a byte it has no business reading: outside MEM or borrowed (20_memory.md
R50, R62). -/
def hostReadMem (s : State) (a : Nat) : Option Byte :=
  if 2 ^ Config.addrW ≤ a || borrowed s a then none else some (s.mem.readByte a)

/-! ### Reset -/

/-- A job writes to MEM at all: it is no configuration error, has samples (20_memory.md R66), is not refused, and, in a raw
mode, its copy passes the capacity check that comes before the first byte (44_bitpacker.md R224, 20_memory.md R68). -/
def writesMem (j : JobRecord) (d : Descriptor) : Bool :=
  validateCount j == 0 && j.samples != 0 && (launchRefusal j d).isNone
    && !(decide (d.pre = .none) && decide (capacity j / 8 < sampleSpan j d.shape))

/-- The extents that the running job could write: none when no job runs, or when the job writes nothing (10_state.md R40,
20_memory.md R66 to R68). DESIGN CHOICE (log 5): they are the whole extents, in whichever phase the reset lands. -/
def interruptedExtents (s : State) : List Extent :=
  match descriptor s.j.mode with
  | none => []
  | some d => if s.status.busy && writesMem s.j d then writableExtents s.j d else []

/-- The reset (10_state.md R40, 70 R330): every register takes its reset value; MEM is unchanged, but for the positions that
a running job could write, which are unspecified (log 5). The model's own fields keep the host's queue and the pace. -/
def resetCore (s : State) : State :=
  { State.reset with
    mem := (interruptedExtents s).foldl (fun m e => m.fillFree s.freeDraws e.base e.len) s.mem
    hostQueue := s.hostQueue
    pace := s.pace
    freeDraws := s.freeDraws + 1 }

end Sys2Proof.Machine
end

