-- ==== Sys2Proof/Machine/Start.lean ====
section
/-! DEFINITION. The start command (10_state.md R31, 45_dispatcher.md R230) and the moves of the host: what `step` calls. -/

namespace Sys2Proof.Machine

/-- A job runs whole: fetch the twelve register words of CFG, decode them, run the instruction; an unrecognised mode word
is no instruction and its job ends in the validator (30_encoding.md R87). -/
def runFetched (s : State) : StepResult :=
  match decode (fetchWords s.cfg) with
  | .ok i => exec i s
  | .error _ => unrecognisedJob s.cfg s

/-- The start command: ignored while busy (10_state.md R31); else the job of CFG is latched and runs, the whole of it in
this step or, at the finer grain, one phase at each later move of the core (log 1). -/
def startCommand (s : State) : StepResult :=
  if s.status.busy then .next s
  else
    match s.pace with
    | .wholeJob => runFetched s
    | .byPhase => .next (latchJob s.cfg s)

/-- A host write at an offset of the register block: at `CTRL`, bit 0 set is the start command and anything else does
nothing (10_state.md R31). -/
def hostWrite (offset : Nat) (value : Word) (s : State) : StepResult :=
  if offset = ctrlOffset then (if value.getLsbD 0 then startCommand s else .next s)
  else .next (hostWriteReg offset value s)

/-- A move of the host. -/
def hostMove (a : HostAction) (s : State) : StepResult :=
  match a with
  | .writeReg offset value => hostWrite offset value s
  | .writeMem address value => hostWriteMem address value s
  | .reset => .next (resetCore s)
  | .yieldTurn => coreMove s

/-- The state in which the next move of the host starts the job of the given words: CFG holds the words, no job is
running, and the host's next move is the start command. -/
def placeJob (ws : List Word) (s : State) : State :=
  let word (k : Nat) : Word := ws.getD k 0
  { s with
    cfg :=
      { mode := word 0, golombPar := word 1, spill := word 2, modelValue := word 3, round := word 4
        samples := word 5, bufferLength := word 6
        input := handleOf (word 7) 0 (word 8)
        model := handleOf (word 7) 1 (word 9)
        updatedModel := handleOf (word 7) 2 (word 10)
        output := handleOf (word 7) 3 (word 11) }
    status := { s.status with busy := false }
    hostQueue := [.writeReg ctrlOffset 1]
    pace := .wholeJob }

end Sys2Proof.Machine
end

