-- ==== Sys2Proof/Machine/Step.lean ====
section
/-! DEFINITION. One step of the machine: the host's next move lands, or, when none waits, the core moves. -/

namespace Sys2Proof.Machine

/-- One step (log 1, log 2): the first waiting move of the host, else the core's own move. -/
def step (s : State) : Host.Outcome State Fault Refusal :=
  match s.hostQueue with
  | [] => coreMove s
  | a :: rest => hostMove a { s with hostQueue := rest }

/-- The state with the job of an opcode-table row placed in CFG and the start command as the host's next move, so that the
next step fetches and runs exactly that job (log 2). -/
def State.withFetchWord (s : State) (nbits w : Nat) : State :=
  placeJob (wordsOfNat nbits w) s

end Sys2Proof.Machine
end

