-- ==== Sys2Proof/Machine/Reference.lean ====
section
/-! DEFINITION. What a job computes, said without its loops: the residual, the mapped value and the updated model of a
field as functions of the launch content of MEM (41_preprocessor.md R133, R135, R136; 42_mapper.md R163), the emission of
a value as a bit string (43_entropy_encoder.md R171, R172, R177 to R180), the stream of a job (R188), and the reference
decoder of 46_decoder_reference.md R280 to R288. No meaning uses this file: it is not hardware (46, opening; log 31). It
is what statements compare the machine with. -/

namespace Sys2Proof.Machine

/-! ### Bit strings (00_scope.md R9) -/

/-- `bin_N(v)`: the low `n` bits of `v`, the most significant first. -/
def binBits (n v : Nat) : List Bool :=
  (List.range n).map (fun k => v.testBit (n - 1 - k))

/-- The number that a bit string spells, the first bit most significant. -/
def bitsValue (bs : List Bool) : Nat :=
  bs.foldl (fun v b => 2 * v + b.toNat) 0

/-- The bits of a Rice codeword: `ones(q) ++ "0" ++ bin_L(r)` (43_entropy_encoder.md R171). -/
def riceBits (u l : Nat) : List Bool :=
  List.replicate (u / 2 ^ l) true ++ [false] ++ binBits l (u % 2 ^ l)

/-- The bits of a Golomb codeword (43_entropy_encoder.md R172). -/
def golombBits (u m l : Nat) : List Bool :=
  let c := 2 ^ (l + 1) - m
  if u < c then binBits (l + 1) u
  else List.replicate ((u - c) / m) true ++ binBits (l + 2) (2 * c + (u - c) % m)

/-- The bits of the normal codeword of `u` (43_entropy_encoder.md R173). -/
def normalBits (u : Nat) (e : EncSetup) : List Bool :=
  match e.kind with
  | .rice => riceBits u e.log2m
  | .golomb => golombBits u e.m e.log2m

/-- The value whose normal codeword begins the emission of `u`: `u` itself, or the escape symbol of an outlier
(43_entropy_encoder.md R177 to R179). -/
def headSymbol (u : Nat) (e : EncSetup) : Nat :=
  if outlier u e then
    match e.esc with
    | .zero => 0
    | .multi => e.spill + calMultiOffset (u - e.spill)
  else u

/-- The raw bits that end the emission of `u`, none on the normal path (43_entropy_encoder.md R177 to R179). -/
def rawBits (u w : Nat) (e : EncSetup) : List Bool :=
  if outlier u e then
    match e.esc with
    | .zero => binBits w u
    | .multi => binBits ((calMultiOffset (u - e.spill) + 1) * 2) (u - e.spill)
  else []

/-- The emission of one field value (43_entropy_encoder.md R180). -/
def emissionBits (u w : Nat) (e : EncSetup) : List Bool :=
  normalBits (headSymbol u e) e ++ rawBits u w e

/-- The codeword that begins the emission of `u` fits the 32-bit budget (43_entropy_encoder.md R174). -/
def headFits (u : Nat) (e : EncSetup) : Prop :=
  (normalCodeword (headSymbol u e) e).len ≤ 32

/-! ### The values of a job, from the launch content of MEM -/

/-- The residual of field `f` of sample `i` (41_preprocessor.md R133, R135). -/
def residual (j : JobRecord) (sh : Shape) (pre : Pre) (launch : Memory) (i : Nat) (f : Field) : BitVec f.width.bits :=
  let k := j.round.toNat
  let x := roundFwd (fieldRead launch j.input sh i f) k
  match pre with
  | .none => fieldRead launch j.input sh i f
  | .diff => if i = 0 then x else x - roundFwd (fieldRead launch j.input sh (i - 1) f) k
  | .model => x - roundFwd (fieldRead launch j.model sh i f) k

/-- The mapped value of field `f` of sample `i` (42_mapper.md R163, R165). -/
def mappedValue (j : JobRecord) (sh : Shape) (pre : Pre) (esc : Escape) (launch : Memory) (i : Nat) (f : Field) :
    BitVec f.width.bits :=
  mapValue esc f.biased (residual j sh pre launch i f)

/-- The updated model value of field `f` of sample `i` (41_preprocessor.md R136). -/
def updatedValue (j : JobRecord) (sh : Shape) (launch : Memory) (i : Nat) (f : Field) : BitVec f.width.bits :=
  BitVec.ofNat _
    (calUpModel (roundInv (roundFwd (fieldRead launch j.input sh i f) j.round.toNat) j.round.toNat).toNat
      (fieldRead launch j.model sh i f).toNat j.modelValue.toNat)

/-- The encoder setup that serves a field (43_entropy_encoder.md R170, R187). -/
def setupOf (j : JobRecord) (esc : Escape) (f : Field) : EncSetup :=
  if f.secondary then encoderSetup golombParExposureFlags j.spill.toNat esc
  else encoderSetup j.golombPar.toNat j.spill.toNat esc

/-- The emission of field `f` of sample `i`. -/
def fieldBits (j : JobRecord) (sh : Shape) (pre : Pre) (esc : Escape) (launch : Memory) (i : Nat) (f : Field) :
    List Bool :=
  emissionBits (mappedValue j sh pre esc launch i f).toNat f.width.bits (setupOf j esc f)

/-- The emissions of the first `n` samples, in ascending sample index and field order (43_entropy_encoder.md R188). -/
def samplesBits (j : JobRecord) (sh : Shape) (pre : Pre) (esc : Escape) (launch : Memory) (n : Nat) : List Bool :=
  (List.range n).flatMap (fun i => (shapeFields sh).flatMap (fieldBits j sh pre esc launch i))

/-- The stream of a compressing job (43_entropy_encoder.md R188). -/
def jobBits (j : JobRecord) (sh : Shape) (pre : Pre) (esc : Escape) (launch : Memory) : List Bool :=
  samplesBits j sh pre esc launch j.samples.toNat

/-- Stream bit `o` of an output buffer: bit `7 − (o mod 8)` of the byte at `base + o / 8` (20_memory.md R55). -/
def streamBit (m : Memory) (out : Handle) (o : Nat) : Bool :=
  (m.readByte (wrapAddress (out.base.toNat + o / 8))).getLsbD (7 - o % 8)

/-- The first `n` stream bits of an output buffer. -/
def streamOf (m : Memory) (out : Handle) (n : Nat) : List Bool :=
  (List.range n).map (streamBit m out)

/-! ### The reference decoder (46_decoder_reference.md) -/

/-- `GetBits(n)` (46_decoder_reference.md R281): the value of the next `n` bits and the bits after them. -/
def getBits (n : Nat) (bs : List Bool) : Option (Nat × List Bool) :=
  if n ≤ bs.length then some (bitsValue (bs.take n), bs.drop n) else none

/-- Count one bits up to the terminating zero, which is consumed. -/
def getUnary : List Bool → Option (Nat × List Bool)
  | [] => none
  | false :: rest => some (0, rest)
  | true :: rest => (getUnary rest).map (fun p => (p.1 + 1, p.2))

/-- `DecodeNormal` for a Rice setup (46_decoder_reference.md R282). -/
def decodeRice (l : Nat) (bs : List Bool) : Option (Nat × List Bool) :=
  (getUnary bs).bind (fun q => (getBits l q.2).map (fun r => (q.1 * 2 ^ l + r.1, r.2)))

/-- The suffix test of the Golomb loop (46_decoder_reference.md R282): the next `L + 2` bits spell a suffix of group `g`. -/
def golombSuffix (m l g : Nat) (bs : List Bool) : Option (Nat × List Bool) :=
  let c := 2 ^ (l + 1) - m
  (getBits (l + 2) bs).bind
    (fun s => if 2 * c ≤ s.1 ∧ s.1 ≤ 2 * c + m - 1 then some (c + g * m + (s.1 - 2 * c), s.2) else none)

/-- The Golomb loop after group 0 has been excluded (46_decoder_reference.md R282). -/
def decodeGolombLoop (m l : Nat) : Nat → List Bool → Option (Nat × List Bool)
  | _, [] => none
  | g, b :: rest =>
    match golombSuffix m l g (b :: rest) with
    | some r => some r
    | none => decodeGolombLoop m l (g + 1) rest

/-- `DecodeNormal` for a Golomb setup (46_decoder_reference.md R282). -/
def decodeGolomb (m l : Nat) (bs : List Bool) : Option (Nat × List Bool) :=
  match getBits (l + 1) bs with
  | some (v, rest) => if v < 2 ^ (l + 1) - m then some (v, rest) else decodeGolombLoop m l 0 bs
  | none => none

/-- `DecodeNormal(S)` (46_decoder_reference.md R282). -/
def decodeNormal (e : EncSetup) (bs : List Bool) : Option (Nat × List Bool) :=
  match e.kind with
  | .rice => decodeRice e.log2m bs
  | .golomb => decodeGolomb e.m e.log2m bs

/-- `DecodeValue(W, S)` (46_decoder_reference.md R284). -/
def decodeValue (w : Nat) (e : EncSetup) (bs : List Bool) : Option (Nat × List Bool) :=
  (decodeNormal e bs).bind
    (fun v =>
      match e.esc with
      | .zero => if v.1 = 0 then getBits w v.2 else some v
      | .multi =>
        if v.1 < e.spill then some v
        else (getBits ((v.1 - e.spill + 1) * 2) v.2).map (fun d => (e.spill + d.1, d.2)))

/-- `map_to_pos_inv_W(u)` (42_mapper.md R164, 46_decoder_reference.md R283). -/
def mapToPosInv {w : Nat} (u : BitVec w) : BitVec w :=
  if u.getLsbD 0 then -(BitVec.ofNat w ((u.toNat + 1) / 2)) else u >>> 1

/-- Un-bias and inverse fold (46_decoder_reference.md R283). -/
def unmapValue {w : Nat} (esc : Escape) (biased : Bool) (u : BitVec w) : BitVec w :=
  if esc = .zero ∧ biased = true then mapToPosInv (u - 1) else mapToPosInv u

/-- The values of one sample from the stream, in field order (46_decoder_reference.md R287). -/
def decodeSample (j : JobRecord) (esc : Escape) : List Field → List Bool → Option (List Nat × List Bool)
  | [], bs => some ([], bs)
  | f :: fs, bs =>
    (decodeValue f.width.bits (setupOf j esc f) bs).bind
      (fun u => (decodeSample j esc fs u.2).map (fun us => (u.1 :: us.1, us.2)))

/-- The rounded fields of a sample from its decoded values and what was subtracted from them (46_decoder_reference.md R283,
R285, R286): `y = s +_W basis`. -/
def undoSample (esc : Escape) : List Field → List Nat → List Nat → List Nat
  | f :: fs, u :: us, b :: bs =>
    (unmapValue esc f.biased (BitVec.ofNat f.width.bits u) + BitVec.ofNat f.width.bits b).toNat :: undoSample esc fs us bs
  | _, _, _ => []

/-- What the compressor subtracted from sample `i`: the rounded model (R286), or the rounded sample before (R285; zeros for
the first). -/
def basisOf (j : JobRecord) (sh : Shape) (pre : Pre) (launch : Memory) (i : Nat) (before : List Nat) : List Nat :=
  match pre with
  | .model => (shapeFields sh).map (fun f => (roundFwd (fieldRead launch j.model sh i f) j.round.toNat).toNat)
  | _ => before

/-- `round_inv` of the rounded fields of a sample (46_decoder_reference.md R285). -/
def roundBack (k : Nat) : List Field → List Nat → List Nat
  | f :: fs, y :: ys => (roundInv (BitVec.ofNat f.width.bits y) k).toNat :: roundBack k fs ys
  | _, _ => []

/-- The decode loop (46_decoder_reference.md R287) over `n` samples from sample `i` on: the reconstructed samples and the
bits left over. `launch` supplies the initial model; `before` is the rounded sample before. -/
def decompress (j : JobRecord) (sh : Shape) (pre : Pre) (esc : Escape) (launch : Memory) :
    Nat → Nat → List Nat → List Bool → Option (List (List Nat) × List Bool)
  | 0, _, _, bs => some ([], bs)
  | n + 1, i, before, bs =>
    (decodeSample j esc (shapeFields sh) bs).bind
      (fun us =>
        let ys := undoSample esc (shapeFields sh) us.1 (basisOf j sh pre launch i before)
        (decompress j sh pre esc launch n (i + 1) ys us.2).map
          (fun rest => (roundBack j.round.toNat (shapeFields sh) ys :: rest.1, rest.2)))

/-- The first `n` samples of a buffer, read with the layout of 20_memory.md R53. -/
def samplesOf (m : Memory) (h : Handle) (sh : Shape) (n : Nat) : List (List Nat) :=
  (List.range n).map (fun i => (shapeFields sh).map (fun f => (fieldRead m h sh i f).toNat))

/-- The decoder's update of the model fields of one sample from its reconstructed fields: `CAL_UP_MODEL(y <<_W k, m,
model_value)` (46_decoder_reference.md R286). -/
def decodedModelSample (weight : Nat) : List Field → List Nat → List Nat → List Nat
  | f :: fs, x :: xs, m :: ms =>
    (BitVec.ofNat f.width.bits (calUpModel x m weight)).toNat :: decodedModelSample weight fs xs ms
  | _, _, _ => []

/-- What `Decompress` returns (46_decoder_reference.md R280): the samples, the updated model in model modes (none otherwise),
and the stream bits that it has not read. -/
structure Decoded where
  samples : List (List Nat)
  updatedModel : List (List Nat)
  rest : List Bool
deriving DecidableEq, Repr

/-- `Decompress` of a whole job (46_decoder_reference.md R280, R286 to R288): the parameters are those of the job, `launch`
supplies the initial model, `after` the output words, `size` is `cmp_size`. A raw job's samples are its output bytes, and
no rounding applies (R288). -/
def decompressJob (j : JobRecord) (launch after : Memory) (size : Nat) : Option Decoded :=
  match descriptor j.mode with
  | none => none
  | some { shape := sh, pre := _, esc := none } =>
    some { samples := samplesOf after j.output sh j.samples.toNat, updatedModel := [], rest := [] }
  | some { shape := sh, pre := pre, esc := some esc } =>
    (decompress j sh pre esc launch j.samples.toNat 0 (List.replicate (shapeFields sh).length 0)
        (streamOf after j.output size)).map
      (fun p =>
        { samples := p.1
          updatedModel :=
            if pre = .model then
              List.zipWith (decodedModelSample j.modelValue.toNat (shapeFields sh)) p.1
                (samplesOf launch j.model sh j.samples.toNat)
            else []
          rest := p.2 })

/-- The number of low bits that a job loses: `round`, but none in raw modes (46_decoder_reference.md R288, R290; log 31). -/
def lostBits (j : JobRecord) (d : Descriptor) : Nat := if d.pre = .none then 0 else j.round.toNat

/-- The samples that the decompressor must return: every field rounded and rounded back (46_decoder_reference.md R290). -/
def roundedSamples (j : JobRecord) (d : Descriptor) (launch : Memory) : List (List Nat) :=
  (List.range j.samples.toNat).map
    (fun i =>
      (shapeFields d.shape).map
        (fun f => (roundInv (roundFwd (fieldRead launch j.input d.shape i f) (lostBits j d)) (lostBits j d)).toNat))

end Sys2Proof.Machine
end

