-- ==== Sys2Proof/Safety.lean ====
section
/-! DEFINITION. What a safe run is, in the terms statements use: the legal configuration (30_encoding.md R86), the launch
premises written out (70 R335 to R337), the registers and the memory a finished job leaves (45_dispatcher.md R232, 20_memory.md
R66 to R68), the completion of an instruction, and the invariant of the machine. -/

namespace Sys2Proof.Machine

/-! ### The mode codes by class, written out from the table of 30_encoding.md R82 (log 15) -/

/-- The codes of the raw modes. -/
def rawModeCodes : List Word := [0, 100]

/-- The codes of the difference modes. -/
def diffModeCodes : List Word := [2, 4, 102, 104, 111, 113, 121, 123, 131, 133, 141, 143, 201, 203]

/-- The codes of the model modes. -/
def modelModeCodes : List Word := [1, 3, 101, 103, 110, 112, 120, 122, 130, 132, 140, 142, 200, 202]

/-- The codes of the modes with the zero escape. -/
def zeroEscapeCodes : List Word := [1, 2, 101, 102, 110, 111, 120, 121, 130, 131, 140, 141, 200, 201]

/-- The codes of the modes with the multi escape. -/
def multiEscapeCodes : List Word := [3, 4, 103, 104, 112, 113, 122, 123, 132, 133, 142, 143, 202, 203]

/-- The codes of the modes whose shape has an `exp_flags` field (70 R341). -/
def exposureModeCodes : List Word :=
  [101, 102, 103, 104, 110, 111, 112, 113, 120, 121, 122, 123, 130, 131, 132, 133]

/-! ### What may be launched -/

/-- A configuration in which no check of the validator fires, written out from 40_validator.md R101 to R116 and 30_encoding.md
R86: what `validateCount j = 0` says. -/
structure ValidConfig (j : JobRecord) : Prop where
  /-- R101. -/
  inputPresent : j.input.present = true
  /-- R102. -/
  outputPresent : j.output.present = true
  /-- R103. -/
  outputDistinct : j.input.base ≠ j.output.base
  /-- R104. -/
  someCapacity : 0 < j.samples.toNat → 0 < j.bufferLength.toNat
  /-- R105. -/
  modelPresent : isModel j.mode = true → j.model.present = true
  /-- R106, R107. -/
  modelDistinct : isModel j.mode = true → j.model.base ≠ j.input.base ∧ j.model.base ≠ j.output.base
  /-- R108, R109. -/
  updatedDistinct :
    isModel j.mode = true → j.updatedModel.present = true →
      j.updatedModel.base ≠ j.input.base ∧ j.updatedModel.base ≠ j.output.base
  /-- R110. -/
  rawFits : isRaw j.mode = true → j.samples.toNat ≤ j.bufferLength.toNat
  /-- R111. -/
  modeRecognised : (descriptor j.mode).isSome = true
  /-- R113. -/
  modelValueLegal : isModel j.mode = true → j.modelValue.toNat ≤ Config.maxModelValue
  /-- R114. -/
  golombParLegal :
    isRaw j.mode = false → Config.minIcuGolombPar ≤ j.golombPar.toNat ∧ j.golombPar.toNat ≤ maxIcuGolombPar
  /-- R115. -/
  spillLegal :
    isRaw j.mode = false → minIcuSpill ≤ j.spill.toNat ∧ j.spill.toNat ≤ maxSpill j.golombPar.toNat j.mode
  /-- R116. -/
  roundLegal : isRaw j.mode = false → j.round.toNat ≤ Config.maxIcuRound

/-- The launch premises, written out (70 R335 to R337): what `launchRefusal j d = none` says. -/
structure LaunchPremises (j : JobRecord) (d : Descriptor) : Prop where
  /-- R337 (a). -/
  capacityFits : d.pre ≠ .none → capacity j < 2 ^ 32
  /-- R337 (b). -/
  rawSizeFits : d.pre = .none → j.samples.toNat * sampleBits d.shape < 2 ^ 32
  /-- R337 (c). -/
  samplesFit : sampleSpan j d.shape ≤ 2 ^ Config.addrW
  /-- R336 (a). -/
  noWrap : ∀ e ∈ usedExtents j d, e.base + e.len ≤ 2 ^ Config.addrW
  /-- R336 (b). -/
  outputAligned : j.output.base.toNat % 4 = 0
  /-- R335. -/
  disjoint : (usedExtents j d).Pairwise (fun a b => a.disjoint b = true)

/-- A launch that the spec gives a job with phases beyond VALIDATE: a valid configuration, some samples, the launch
premises (45_dispatcher.md R230, 70 R334 A5). -/
structure Launchable (j : JobRecord) (d : Descriptor) : Prop where
  /-- The validator finds nothing. -/
  valid : ValidConfig j
  /-- There is something to do. -/
  someSamples : 0 < j.samples.toNat
  /-- The host keeps the launch premises. -/
  premises : LaunchPremises j d

/-! ### What a finished job leaves in the registers -/

/-- The result record `INFO` of a job (10_state.md R33 to R35). -/
def resultInfo (j : JobRecord) (err : BitVec 16) (size : Nat) : Info :=
  { cmpErr := err, cmpSize := BitVec.ofNat 32 size, cmpModeUsed := j.mode, modelValueUsed := j.modelValue
    golombParUsed := j.golombPar, spillUsed := j.spill, roundUsed := j.round, samplesUsed := j.samples }

/-- The job `j`, started in `s`, has finished in `t` with the given result (30_encoding.md R90, 45_dispatcher.md R232): CFG
and the model's own queue and pace are as they were. -/
structure Finished (j : JobRecord) (s t : State) (kind : JobKind) (retval : Int) (err : BitVec 16) (size : Nat) : Prop where
  /-- R21: the core never writes CFG. -/
  cfg : t.cfg = s.cfg
  /-- R24. -/
  latched : t.j = j
  /-- R27. -/
  phase : t.seq.phase = .done
  /-- R32, R36. -/
  status : t.status = { busy := false, done := true, kind := kind, retval := BitVec.ofInt 32 retval }
  /-- R33 to R35. -/
  info : t.info = resultInfo j err size
  /-- No move of the host has landed. -/
  queue : t.hostQueue = s.hostQueue
  /-- The grain of moves is as it was. -/
  pace : t.pace = s.pace

/-! ### What a finished job leaves in MEM -/

/-- The address is one of `len` bytes from the base of a present buffer (20_memory.md R52), not wrapped at the top of MEM
(log 9). -/
def Handle.holds (h : Handle) (len a : Nat) : Prop :=
  h.present = true ∧ h.base.toNat ≤ a ∧ a < h.base.toNat + len

/-- The address lies in one of the buffers of a job with the descriptor `d`, written out from the table of 20_memory.md R52:
what `usedExtents j d` lists. -/
def InBuffers (j : JobRecord) (d : Descriptor) (a : Nat) : Prop :=
  j.input.holds (j.samples.toNat * sampleBytes d.shape) a
    ∨ j.output.holds
        (if d.pre = .none then j.samples.toNat * sampleBytes d.shape else ceilDiv j.bufferLength.toNat 2 * 4) a
    ∨ (d.pre = .model ∧ (j.model.holds (j.samples.toNat * sampleBytes d.shape) a
        ∨ j.updatedModel.holds (j.samples.toNat * sampleBytes d.shape) a))

/-- Every byte outside the listed extents is as before. -/
def KeptOutside (es : List Extent) (before after : Memory) : Prop :=
  ∀ a, (∀ e ∈ es, e.covers a = false) → after.readByte a = before.readByte a

/-- Every field of every sample of IN holds its mapped value (42_mapper.md R165). -/
def InputMapped (j : JobRecord) (sh : Shape) (pre : Pre) (esc : Escape) (before after : Memory) : Prop :=
  ∀ i, i < j.samples.toNat → ∀ f ∈ shapeFields sh,
    fieldRead after j.input sh i f = mappedValue j sh pre esc before i f

/-- In model modes every field of every sample of the target holds its updated model value (41_preprocessor.md R136). -/
def ModelUpdated (j : JobRecord) (sh : Shape) (pre : Pre) (before after : Memory) : Prop :=
  pre = .model → ∀ i, i < j.samples.toNat → ∀ f ∈ shapeFields sh,
    fieldRead after (modelTarget j) sh i f = updatedValue j sh before i f

/-- OUT holds the stream, followed by zero bits up to the next multiple of 32 (20_memory.md R67, 44_bitpacker.md R221). -/
def StreamStored (j : JobRecord) (bits : List Bool) (after : Memory) : Prop :=
  streamOf after j.output (32 * ceilDiv bits.length 32)
    = bits ++ List.replicate (32 * ceilDiv bits.length 32 - bits.length) false

/-- The extents that PRE and MAP write: the input and, in model modes, the target of the model update (20_memory.md R67). -/
def transformedExtents (j : JobRecord) (d : Descriptor) : List Extent :=
  match d.pre with
  | .none => []
  | .diff => [sampleExtent j d j.input]
  | .model => [sampleExtent j d j.input, sampleExtent j d (modelTarget j)]

/-- The part of OUT that a successful compressing job writes: whole words up to the padded end of a stream of `n` bits. -/
def streamExtent (j : JobRecord) (n : Nat) : Extent :=
  { base := j.output.base.toNat, len := 4 * ceilDiv n 32 }

/-! ### Completion -/

/-- No codeword of the `exp_flags` encoder exceeds 32 bits (70 R341). Shapes without `exp_flags` meet it always. -/
def ExposureFlagsFit (j : JobRecord) (sh : Shape) (pre : Pre) (esc : Escape) (launch : Memory) : Prop :=
  ∀ i, i < j.samples.toNat → ∀ f ∈ shapeFields sh, f.secondary = true →
    headFits (mappedValue j sh pre esc launch i f).toNat (setupOf j esc f)

/-- The instruction `i`, a compressing mode of the given shape, pre-processing and escape, completes: whenever its launch is
one the spec gives a meaning, its exposure flags fit and its stream fits the capacity, `exec` answers a next state, in which
the job has succeeded and MEM is as 20_memory.md R67 says. -/
def CompressionCompletes (i : Instr) (sh : Shape) (pre : Pre) (esc : Escape) : Prop :=
  ∀ s : State, Launchable (jobOf i) { shape := sh, pre := pre, esc := some esc } →
    ExposureFlagsFit (jobOf i) sh pre esc s.mem →
    (jobBits (jobOf i) sh pre esc s.mem).length ≤ capacity (jobOf i) →
    ∃ t, exec i s = .next t
      ∧ Finished (jobOf i) s t .ok 0 0 (jobBits (jobOf i) sh pre esc s.mem).length
      ∧ t.enc = { streamLen := (jobBits (jobOf i) sh pre esc s.mem).length
                  pri := encoderSetup (jobOf i).golombPar.toNat (jobOf i).spill.toNat esc
                  sec := encoderSetup golombParExposureFlags (jobOf i).spill.toNat esc }
      ∧ InputMapped (jobOf i) sh pre esc s.mem t.mem
      ∧ ModelUpdated (jobOf i) sh pre s.mem t.mem
      ∧ StreamStored (jobOf i) (jobBits (jobOf i) sh pre esc s.mem) t.mem
      ∧ KeptOutside
          (streamExtent (jobOf i) (jobBits (jobOf i) sh pre esc s.mem).length
            :: transformedExtents (jobOf i) { shape := sh, pre := pre, esc := some esc })
          s.mem t.mem

/-- The instruction `i`, a raw mode of the given shape, completes: whenever its launch is one the spec gives a meaning and the
copy fits the capacity, `exec` answers a next state, in which the job has succeeded, the output holds the copy and nothing
else of MEM, of SEQ or of ENC's setups has changed (44_bitpacker.md R222 to R224, 20_memory.md R67). -/
def RawCompletes (i : Instr) (sh : Shape) : Prop :=
  ∀ s : State, Launchable (jobOf i) { shape := sh, pre := .none, esc := none } →
    sampleSpan (jobOf i) sh ≤ capacity (jobOf i) / 8 →
    ∃ t, exec i s = .next t
      ∧ Finished (jobOf i) s t .ok 0 0 ((jobOf i).samples.toNat * sampleBits sh)
      ∧ t.seq = { s.seq with phase := .done }
      ∧ t.enc = { s.enc with streamLen := 0 }
      ∧ (∀ k, k < sampleSpan (jobOf i) sh →
          t.mem.readByte ((jobOf i).output.base.toNat + k) = s.mem.readByte ((jobOf i).input.base.toNat + k))
      ∧ KeptOutside [{ base := (jobOf i).output.base.toNat, len := sampleSpan (jobOf i) sh }] s.mem t.mem

/-- Where the ENCODE phase ends: the first emission that cannot be made (43_entropy_encoder.md R190, 60 R307). The
fields in emission order are `before`, then field `q` of sample `p`, then `after`; all emissions before can be made. -/
structure FirstFailure (j : JobRecord) (sh : Shape) (pre : Pre) (esc : Escape) (launch : Memory)
    (before : List (Nat × Field)) (p : Nat) (q : Field) (after : List (Nat × Field)) : Prop where
  /-- R188: ascending sample index, field-list order inside a sample. -/
  order :
    (List.range j.samples.toNat).flatMap (fun i => (shapeFields sh).map (fun f => (i, f))) = before ++ (p, q) :: after
  /-- Every codeword before is within the budget. -/
  headsFit : ∀ x ∈ before, headFits (mappedValue j sh pre esc launch x.1 x.2).toNat (setupOf j esc x.2)
  /-- The bits before are within the capacity. -/
  bitsFit : (before.flatMap (fun x => fieldBits j sh pre esc launch x.1 x.2)).length ≤ capacity j

/-- What an error of the ENCODE phase leaves in MEM (20_memory.md R68): IN and the model target as on success, OUT unspecified,
everything else as before. -/
def AbandonedMemory (j : JobRecord) (sh : Shape) (pre : Pre) (esc : Escape) (before after : Memory) : Prop :=
  InputMapped j sh pre esc before after ∧ ModelUpdated j sh pre before after
    ∧ KeptOutside (writableExtents j { shape := sh, pre := pre, esc := some esc }) before after

/-- The instruction `i`, a compressing mode, ends in the error that its first impossible emission raises (60 R304, R305, R307):
a codeword longer than 32 bits is an internal error even where the capacity would not hold it; otherwise the emission
exceeds the capacity. -/
def CompressionFails (i : Instr) (sh : Shape) (pre : Pre) (esc : Escape) : Prop :=
  ∀ (s : State) (before : List (Nat × Field)) (p : Nat) (q : Field) (after : List (Nat × Field)),
    Launchable (jobOf i) { shape := sh, pre := pre, esc := some esc } →
    FirstFailure (jobOf i) sh pre esc s.mem before p q after →
    (¬ headFits (mappedValue (jobOf i) sh pre esc s.mem p q).toNat (setupOf (jobOf i) esc q) →
      ∃ t, exec i s = .next t ∧ Finished (jobOf i) s t .internal (-1) 0 0
        ∧ AbandonedMemory (jobOf i) sh pre esc s.mem t.mem) ∧
    (headFits (mappedValue (jobOf i) sh pre esc s.mem p q).toNat (setupOf (jobOf i) esc q) →
      capacity (jobOf i)
        < ((before ++ [(p, q)]).flatMap (fun x => fieldBits (jobOf i) sh pre esc s.mem x.1 x.2)).length →
      ∃ t, exec i s = .next t ∧ Finished (jobOf i) s t .smallBuf (-2) 1 0
        ∧ AbandonedMemory (jobOf i) sh pre esc s.mem t.mem)

/-! ### Comparing runs -/

/-- Two answers of the core that show the host the same result and leave the same MEM: the status, the error bits, the size,
the phase and MEM agree; or both are the same refusal. -/
def SameEffect (a b : StepResult) : Prop :=
  match a, b with
  | .next t, .next t' =>
    t.status = t'.status ∧ t.info.cmpErr = t'.info.cmpErr ∧ t.info.cmpSize = t'.info.cmpSize
      ∧ t.seq.phase = t'.seq.phase ∧ t.mem = t'.mem
  | .refused r, .refused r' => r = r'
  | _, _ => False

/-- An answer of the core with CFG replaced in the next state. -/
def answerWithCfg (c : JobRecord) (r : StepResult) : StepResult :=
  andThen r (fun t => .next { t with cfg := c })

/-! ### The invariant of the machine -/

/-- An encoder setup record is one that `Setup` makes (10_state.md R30, 43_entropy_encoder.md R170). -/
def EncSetup.coherent (e : EncSetup) : Prop := 1 ≤ e.m ∧ e = encoderSetup e.m e.spill e.esc

/-- The phases of a running job (10_state.md R27). -/
def Phase.running : Phase → Bool
  | .idle => false
  | .done => false
  | _ => true

/-- The invariant of the machine. -/
structure State.Inv (s : State) : Prop where
  /-- MEM has its canonical form. -/
  memory : s.mem.wf = true
  /-- R32: busy exactly while the phase is one of a running job. -/
  busyPhase : s.status.busy = s.seq.phase.running
  /-- R32: done exactly in the phase DONE. -/
  donePhase : s.status.done = decide (s.seq.phase = .done)
  /-- R29, 44_bitpacker.md R212: the bit cursor is within the capacity. -/
  cursor : s.enc.streamLen ≤ capacity s.j
  /-- R30. -/
  primary : s.enc.pri.coherent
  /-- R30. -/
  secondary : s.enc.sec.coherent
  /-- R35: from job start on the mirrors show the latched job. -/
  mirrors : s.seq.phase ≠ .idle → s.info = resultInfo s.j s.info.cmpErr s.info.cmpSize.toNat
  /-- 45_dispatcher.md R230: a running job has reported nothing yet. -/
  running :
    s.status.busy = true → s.status.kind = .ok ∧ s.status.retval = 0 ∧ s.info.cmpErr = 0 ∧ s.info.cmpSize = 0
  /-- R32, R36, 60 R308: without an error nothing is reported. -/
  okResult : s.status.kind = .ok → s.status.retval = 0 ∧ s.info.cmpErr = 0
  /-- R36, 60 R303, R308: a configuration error reports one to fifteen problems and bits 0 to 3 only. -/
  configResult :
    s.status.kind = .cfgErr →
      (∃ n : Nat, 1 ≤ n ∧ n ≤ 15 ∧ s.status.retval = BitVec.ofInt 32 (-(n : Int)))
        ∧ s.info.cmpErr.toNat < 16 ∧ s.info.cmpSize = 0
  /-- R36, 60 R304, R308. -/
  capacityResult :
    s.status.kind = .smallBuf → s.status.retval = BitVec.ofInt 32 (-2) ∧ s.info.cmpErr = 1 ∧ s.info.cmpSize = 0
  /-- R36, 60 R305, R308. -/
  internalResult :
    s.status.kind = .internal → s.status.retval = BitVec.ofInt 32 (-1) ∧ s.info.cmpErr = 0 ∧ s.info.cmpSize = 0
  /-- R27: a job beyond VALIDATE is one that the validator and the launch premises let pass. -/
  beyondValidate :
    s.seq.phase ∈ [Phase.pre, .map, .encode, .pad] →
      ∃ d, descriptor s.j.mode = some d ∧ Launchable s.j d ∧ (d.pre = .none → s.seq.phase = .encode)

end Sys2Proof.Machine
end

