-- ==== Sys2Proof/Certificates/Slice0/Obligations.lean ====
section
/-! DEFINITION. The statements about the machine, one `def Obligations.<Name> : Prop` each, in the order of the pipeline:
encoding, host and start, validator, memory, bit-packer, pre-processor, mapper, encoder, decoder, whole jobs, invariant. Each
docstring cites the rule it formalises. Where a statement rests on a value that the spec marks as its own decision, or on a
choice of the model, the docstring says so and names the log entry. -/

section

open Sys2Proof Sys2Proof.Machine

/-! ### Encoding (30_encoding.md) -/

/-- Decoding the encoding of a well-formed job gives the job back, for every mode and every operand value (R80, R82, R89).
The mode numbers are the spec's decision D6 (log 15). -/
def Obligations.DecodeEncodeRoundTrip : Prop :=
  ∀ i : Instr, i.wellFormed = true → decode (encode i) = .ok i

/-- A decoded job keeps every bit of its words, but for bits 31:4 of `CFG_PRESENT`, which read zero (R80, R23; log 21). -/
def Obligations.DecodedJobKeepsEveryBit : Prop :=
  ∀ (ws : List Word) (i : Instr), decode ws = .ok i →
    i.wellFormed = true ∧ ws.length = 12 ∧ encode i = ws.set 7 (ws.getD 7 0 &&& 0xF#32)

/-- Twelve words are rejected exactly when their mode word is none of the 30 codes, and by that word's name (R82, R87). -/
def Obligations.UnrecognisedModesRejected : Prop :=
  ∀ (mode : Word) (operands : List Word), operands.length = 11 →
    (decode (mode :: operands) = .error (.unrecognisedMode mode)
        ↔ mode ∉ rawModeCodes ++ diffModeCodes ++ modelModeCodes)
      ∧ ∀ e, decode (mode :: operands) = .error e → e = .unrecognisedMode mode

/-- Four jobs written out word by word decode to their instructions (R80, R82): a sanity statement. -/
def Obligations.WrittenOutWordsDecode : Prop :=
  decode [0x00000000, 0, 0, 0, 0, 3, 3, 0x9, 0x1000, 0, 0, 0x2000]
      = .ok (.raw { golombPar := 0, spill := 0, modelValue := 0, round := 0, samples := 3, bufferLength := 3
                    cfgPresent := 0x9, inputBase := 0x1000, modelBase := 0, updatedModelBase := 0
                    outputBase := 0x2000 })
    ∧ decode [0x00000002, 4, 8, 0, 0, 4, 16, 0x9, 0x1000, 0, 0, 0x2000]
      = .ok (.diffZero { golombPar := 4, spill := 8, modelValue := 0, round := 0, samples := 4, bufferLength := 16
                         cfgPresent := 0x9, inputBase := 0x1000, modelBase := 0, updatedModelBase := 0
                         outputBase := 0x2000 })
    ∧ decode [0x00000084, 3, 16, 8, 1, 2, 40, 0xF, 0x1000, 0x3000, 0x4000, 0x2000]
      = .ok (.modelMultiSFxEfxNcobEcob
          { golombPar := 3, spill := 16, modelValue := 8, round := 1, samples := 2, bufferLength := 40
            cfgPresent := 0xF, inputBase := 0x1000, modelBase := 0x3000, updatedModelBase := 0x4000
            outputBase := 0x2000 })
    ∧ decode [0x000000CB, 1, 2, 0, 3, 1, 4, 0x9, 0x1000, 0, 0, 0x2000]
      = .ok (.diffMulti32 { golombPar := 1, spill := 2, modelValue := 0, round := 3, samples := 1, bufferLength := 4
                            cfgPresent := 0x9, inputBase := 0x1000, modelBase := 0, updatedModelBase := 0
                            outputBase := 0x2000 })

/-- The class predicates of every 32-bit mode word (R83 over the codes of R82, the spec's decision D6). -/
def Obligations.ModeClasses : Prop :=
  ∀ mode : Word,
    (isRaw mode = true ↔ mode ∈ rawModeCodes) ∧ (isDiff mode = true ↔ mode ∈ diffModeCodes)
      ∧ (isModel mode = true ↔ mode ∈ modelModeCodes)
      ∧ (zeroEscape mode = true ↔ mode ∈ zeroEscapeCodes) ∧ (multiEscape mode = true ↔ mode ∈ multiEscapeCodes)
      ∧ (∀ d, descriptor mode = some d → (d.esc = none ↔ d.pre = .none)
          ∧ ((∃ f ∈ shapeFields d.shape, f.secondary = true) ↔ mode = 100 ∨ mode ∈ exposureModeCodes))

/-! ### The host and the start command (10_state.md, 20_memory.md) -/

/-- A step at an accepted start command runs the decoded job: `exec` of it, once the host's move is taken off the queue (45
R230, R231; the queue and the pace are the model's own, logs 1 and 2). -/
def Obligations.StepRunsDecodedJob : Prop :=
  ∀ (s : State) (v : Word) (rest : List HostAction) (i : Instr),
    s.hostQueue = .writeReg 0 v :: rest → v.getLsbD 0 = true → s.status.busy = false → s.pace = .wholeJob →
    decode (fetchWords s.cfg) = .ok i →
    step s = exec i { s with hostQueue := rest }

/-- An accepted start command latches CFG: the decoded instruction's record is CFG, every bit of it, and at the grain of
phases the step itself leaves that record in J with the per-job state re-initialised (10 R24, R32, R35; 45 R230; log 1). -/
def Obligations.StartCommandLatchesCfg : Prop :=
  (∀ (c : JobRecord) (i : Instr), decode (fetchWords c) = .ok i → jobOf i = c) ∧
  ∀ (s : State) (v : Word) (rest : List HostAction),
    s.hostQueue = .writeReg 0 v :: rest → v.getLsbD 0 = true → s.status.busy = false → s.pace = .byPhase →
    ∃ t, step s = .next t ∧ t.j = s.cfg ∧ t.cfg = s.cfg ∧ t.seq.phase = .validate ∧ t.enc.streamLen = 0
      ∧ t.status = { busy := true, done := false, kind := .ok, retval := 0 }
      ∧ t.info = resultInfo s.cfg 0 0 ∧ t.mem = s.mem ∧ t.hostQueue = rest

/-- A start command whose mode word is unrecognised runs a job that ends in a configuration error with `CMP_MODE_ERR_BIT` set
and touches no byte of MEM (30 R87, 40 R111; whole-job grain, log 1; log 20). -/
def Obligations.UnrecognisedModeJob : Prop :=
  ∀ (s : State) (v : Word) (rest : List HostAction),
    s.hostQueue = .writeReg 0 v :: rest → v.getLsbD 0 = true → s.status.busy = false → s.pace = .wholeJob →
    s.cfg.mode ∉ rawModeCodes ++ diffModeCodes ++ modelModeCodes →
    1 ≤ validateCount s.cfg ∧ (validateBits s.cfg).getLsbD 1 = true ∧
    ∃ t, step s = .next t
      ∧ Finished s.cfg { s with hostQueue := rest } t .cfgErr (-(validateCount s.cfg : Int)) (validateBits s.cfg) 0
      ∧ t.mem = s.mem

/-- A start command while busy, and a write to CTRL with bit 0 clear, change nothing (10 R31, the spec's decision D11). -/
def Obligations.StartIgnored : Prop :=
  ∀ (s : State) (v : Word) (rest : List HostAction),
    s.hostQueue = .writeReg 0 v :: rest → s.status.busy = true ∨ v.getLsbD 0 = false →
    step s = .next { s with hostQueue := rest }

/-- A host write to a register other than CTRL lands at any time, busy or not, and changes CFG only; read back, the written
CFG register shows the word (`CFG_PRESENT` its bits 3:0), every other register reads as before, and read-only and unlisted
offsets ignore the write (10 R21, R23, R25; the offsets are the spec's decision D8, log 17). -/
def Obligations.CfgWriteReadsBack : Prop :=
  ∀ (s : State) (offset : Nat) (v : Word) (rest : List HostAction),
    s.hostQueue = .writeReg offset v :: rest → offset ≠ 0 →
    ∃ t, step s = .next t ∧ t = { s with cfg := t.cfg, hostQueue := rest } ∧
      ∀ o, readReg t o
        = if o = offset ∧ o ∈ [0x10, 0x14, 0x18, 0x1C, 0x20, 0x24, 0x28, 0x30, 0x34, 0x38, 0x3C] then v
          else if o = offset ∧ o = 0x2C then v &&& 0xF#32
          else readReg s o

/-- What the host reads: STATUS shows busy and done at all times and, when no job runs, the kind; RETVAL and the result
registers show their contents when no job runs; CTRL, the unlisted offsets, bits 31:4 of STATUS and bits 31:6 of `cmp_err` read
zero at all times (10 R23, R32 to R36; 93 U14; logs 6, 16, 17, 30). -/
def Obligations.RegisterReads : Prop :=
  ∀ s : State,
    (readReg s 0x04).getLsbD 0 = s.status.busy ∧ (readReg s 0x04).getLsbD 1 = s.status.done
      ∧ (∀ b, 4 ≤ b → (readReg s 0x04).getLsbD b = false)
      ∧ (∀ b, 6 ≤ b → (readReg s 0x40).getLsbD b = false)
      ∧ (s.status.busy = false →
          (readReg s 0x04).extractLsb' 2 2 = BitVec.ofNat 2 s.status.kind.code
            ∧ readReg s 0x08 = s.status.retval ∧ readReg s 0x40 = s.info.cmpErr.setWidth 32 &&& 0x3F#32
            ∧ readReg s 0x44 = s.info.cmpSize ∧ readReg s 0x48 = s.info.cmpModeUsed
            ∧ readReg s 0x4C = s.info.modelValueUsed ∧ readReg s 0x50 = s.info.golombParUsed
            ∧ readReg s 0x54 = s.info.spillUsed ∧ readReg s 0x58 = s.info.roundUsed
            ∧ readReg s 0x5C = s.info.samplesUsed)
      ∧ (∀ o, (o < 0x04 ∨ o % 4 ≠ 0 ∨ o = 0x0C ∨ 0x60 ≤ o) → readReg s o = 0)

/-- A host write of a byte of MEM: no such address at or above `2^32`, refused inside a buffer that the running job has
borrowed, and otherwise exactly that byte changes. A buffer whose handle is absent has no bytes (20 R50, R52, R62; 93 U13;
log 33). That the model refuses, that a job with an unrecognised mode borrows nothing, and that a buffer over the top of MEM does
not wrap is log 9. -/
def Obligations.HostMemoryWrite : Prop :=
  ∀ (s : State) (a : Nat) (b : Byte) (rest : List HostAction),
    s.hostQueue = .writeMem a b :: rest →
    (2 ^ 32 ≤ a → step s = .fault (.noSuchAddress a)) ∧
    (a < 2 ^ 32 → (s.status.busy = true ∧ ∃ d, descriptor s.j.mode = some d ∧ InBuffers s.j d a) →
      step s = .refused (.hostTouchesBuffer a)) ∧
    (a < 2 ^ 32 → (s.status.busy = false ∨ ∀ d, descriptor s.j.mode = some d → ¬ InBuffers s.j d a) →
      ∃ t, step s = .next t ∧ t = { s with mem := t.mem, hostQueue := rest } ∧ t.mem.readByte a = b
        ∧ ∀ x, x ≠ a → t.mem.readByte x = s.mem.readByte x)

/-- What the host reads of MEM: nothing at or above `2^32` and nothing inside a buffer that the running job has borrowed; every
other byte as MEM holds it; and after a write of the host that has landed, the byte written there and the rest as before (20
R50, R52, R62; 93 U13; log 33). That the model answers nothing, that a job with an unrecognised mode borrows nothing, and that a
buffer over the top of MEM does not wrap is log 9. -/
def Obligations.HostMemoryRead : Prop :=
  (∀ (s : State) (a : Nat), 2 ^ 32 ≤ a → hostReadMem s a = none) ∧
  (∀ (s : State) (a : Nat) (d : Descriptor), s.status.busy = true → descriptor s.j.mode = some d → InBuffers s.j d a →
    hostReadMem s a = none) ∧
  (∀ (s : State) (a : Nat), a < 2 ^ 32 →
    (s.status.busy = false ∨ ∀ d, descriptor s.j.mode = some d → ¬ InBuffers s.j d a) →
    hostReadMem s a = some (s.mem.readByte a)) ∧
  ∀ (s t : State) (a x : Nat) (b : Byte) (rest : List HostAction),
    s.hostQueue = .writeMem a b :: rest → step s = .next t →
    hostReadMem t x = if x = a then some b else hostReadMem s x

/-- After reset every register of the block reads zero, the phase is IDLE, the bit cursor is zero, no handle is present (10
R40, 70 R330; the values are the spec's decision D12). -/
def Obligations.ResetState : Prop :=
  (∀ o, readReg State.reset o = 0) ∧ State.reset.seq.phase = .idle ∧ State.reset.enc.streamLen = 0
    ∧ State.reset.cfg.input.present = false ∧ State.reset.cfg.model.present = false
    ∧ State.reset.cfg.updatedModel.present = false ∧ State.reset.cfg.output.present = false
    ∧ State.reset.mem.wf = true

/-- A reset puts every register to its reset value and leaves MEM as it is; a reset during a job leaves open only what that
job could write, which is nothing for a job that is a configuration error, has no samples, breaks a launch premise, or is a
raw copy that does not fit (10 R40; 20 R66 to R68; 44 R224; 93 U6; logs 5, 8, 30). -/
def Obligations.ResetMove : Prop :=
  ∀ (s : State) (rest : List HostAction), s.hostQueue = .reset :: rest →
    ∃ t, step s = .next t ∧ (∀ o, readReg t o = 0) ∧ t.cfg = State.reset.cfg ∧ t.seq.phase = .idle
      ∧ t.enc.streamLen = 0 ∧ t.status = State.reset.status ∧ t.info = State.reset.info
      ∧ t.hostQueue = rest ∧ t.pace = s.pace
      ∧ ((s.status.busy = false ∨ descriptor s.j.mode = none ∨ 0 < validateCount s.j ∨ s.j.samples = 0
            ∨ ∃ d, descriptor s.j.mode = some d
                ∧ (¬ LaunchPremises s.j d ∨ d.pre = .none ∧ capacity s.j / 8 < sampleSpan s.j d.shape)) →
          t.mem = s.mem)
      ∧ (∀ d, descriptor s.j.mode = some d → KeptOutside (writableExtents s.j d) s.mem t.mem)

/-- The core does not look at CFG while a job runs and never writes it: a move of the core with another CFG is the same move,
and so is a job (10 R21, R24, R25; 20 R64). -/
def Obligations.RunningJobIgnoresCfg : Prop :=
  (∀ (s : State) (c : JobRecord), coreMove { s with cfg := c } = answerWithCfg c (coreMove s))
    ∧ (∀ (s t : State), coreMove s = .next t → t.cfg = s.cfg)
    ∧ ∀ (i : Instr) (s : State) (c : JobRecord), exec i { s with cfg := c } = answerWithCfg c (exec i s)

/-! ### The validator (40_validator.md) -/

/-- The validator's report on any job record: the number of the fifteen checks that fire, V12 to V15 skipped in raw modes,
and the error bits that the firing checks set (R100 to R116, R120). Which bit stands where is the spec's decision D7 (log
16); the numbers 65535 and 2 are its decisions D1 and D2 (logs 10, 11). -/
def Obligations.ValidatorReport : Prop :=
  ∀ j : JobRecord,
    let equal (a b : Handle) : Bool := a.present && b.present && decide (a.base = b.base)
    let model : Bool := decide (j.mode ∈ modelModeCodes)
    let raw : Bool := decide (j.mode ∈ rawModeCodes)
    let v4 : Bool := decide (j.bufferLength.toNat = 0 ∧ 0 < j.samples.toNat)
    let v10 : Bool := raw && decide (j.bufferLength.toNat < j.samples.toNat)
    let v11 : Bool := decide (j.mode ∉ rawModeCodes ++ diffModeCodes ++ modelModeCodes)
    let v12 : Bool := model && decide (16 < j.modelValue.toNat)
    let v13 : Bool := decide (j.golombPar.toNat < 1 ∨ 65535 < j.golombPar.toNat)
    let v14 : Bool := decide (j.spill.toNat < 2 ∨ maxSpill j.golombPar.toNat j.mode < j.spill.toNat)
    let v15 : Bool := decide (3 < j.round.toNat)
    validateCount j
        = [!j.input.present, !j.output.present, equal j.input j.output, v4, model && !j.model.present,
            model && equal j.model j.input, model && equal j.model j.output, model && equal j.updatedModel j.input,
            model && equal j.updatedModel j.output, v10, v11].count true
          + (if raw then 0 else [v12, v13, v14, v15].count true)
      ∧ ∀ b, (validateBits j).getLsbD b
          = match b with
            | 0 => v4 || v10
            | 1 => v11
            | 2 => !raw && v12
            | 3 => !raw && (v13 || v14 || v15)
            | _ => false

/-- No check fires exactly when the configuration is legal (R100, with 30 R86's ranges). -/
def Obligations.NoCheckFiresIffValid : Prop :=
  ∀ j : JobRecord, validateCount j = 0 ↔ ValidConfig j

/-- Raw modes short-circuit: in a raw job only V1 to V11 are evaluated, and `golomb_par`, `spill`, `model_value` and `round`
may hold any value (R112). -/
def Obligations.RawShortCircuit : Prop :=
  ∀ (j : JobRecord) (golombPar spill modelValue round : Word), isRaw j.mode = true →
    checksOf j = checksAlways j
      ∧ checksOf { j with golombPar := golombPar, spill := spill, modelValue := modelValue, round := round } = checksOf j

/-- A job whose validation fails with `n` problems: `retval` is `−n`, `kind` is CFG_ERR, the size stays 0, the bits are those
the checks set (none when only V1 to V3 and V5 to V9 fire), and no byte of MEM is read or written: with any MEM the answer
is the same and MEM is kept (R119, 60 R303). It rests on the spec's decisions D7 for the bits (log 16), D16 for the count (log
29), D1 to D3 for the bounds (logs 10 to 12), D11, D15 and D23 for kind, mirrors and latch (log 30), and on the model's choices
of queue and pace (logs 1, 2) and that SEQ.i and SEQ.f are kept (log 22). -/
def Obligations.ConfigErrorOutcome : Prop :=
  ∀ (i : Instr) (s : State), 0 < validateCount (jobOf i) →
    validateCount (jobOf i) ≤ 15 ∧
    (((checksOf (jobOf i)).all (fun c => !c.1 || c.2.isNone)) = true → validateBits (jobOf i) = 0) ∧
    ∃ t, exec i s = .next t
      ∧ Finished (jobOf i) s t .cfgErr (-(validateCount (jobOf i) : Int)) (validateBits (jobOf i)) 0
      ∧ t.seq = { s.seq with phase := .done } ∧ t.enc = { s.enc with streamLen := 0 }
      ∧ ∀ m, exec i { s with mem := m } = .next { t with mem := m }

/-- A job without samples that passes the validator succeeds with size 0 and touches no byte of MEM (R117; the spec's
decision D18 makes the warning silent, log 28). -/
def Obligations.EmptyJobOutcome : Prop :=
  ∀ (i : Instr) (s : State), ValidConfig (jobOf i) → (jobOf i).samples = 0 →
    ∃ t, exec i s = .next t ∧ Finished (jobOf i) s t .ok 0 0 0
      ∧ t.seq = { s.seq with phase := .done } ∧ t.enc = { s.enc with streamLen := 0 }
      ∧ ∀ m, exec i { s with mem := m } = .next { t with mem := m }

/-- A launch that the validator lets pass is refused exactly when it breaks a launch premise, and no instruction ever faults
(70 R335 to R337; 93 U11, U12; log 8). -/
def Obligations.LaunchRefusedExactly : Prop :=
  ∀ (i : Instr) (s : State) (d : Descriptor), descriptor (jobOf i).mode = some d →
    ((∃ r, exec i s = .refused r)
        ↔ ValidConfig (jobOf i) ∧ 0 < (jobOf i).samples.toNat ∧ ¬ LaunchPremises (jobOf i) d)
      ∧ ∀ f, exec i s ≠ .fault f

/-! ### Memory (20_memory.md) -/

/-- The big-endian primitives `MemRead` and `MemWrite` of 1, 2 and 4 bytes, addresses modulo `2^32` (R51). The width 32 of an
address is the spec's decision D8 (logs 17, 33); big-endian order is the source's for the output buffer and the spec's decision
D10 for the three sample buffers (log 19). -/
def Obligations.BigEndianPrimitives : Prop :=
  ∀ (m : Memory) (addr n v : Nat), n ∈ [1, 2, 4] →
    m.read addr n
        = ((List.range n).map (fun k => (m.readByte ((addr + k) % 2 ^ 32)).toNat * 256 ^ (n - 1 - k))).sum
      ∧ (∀ k, k < n → (m.write addr n v).readByte ((addr + k) % 2 ^ 32) = BitVec.ofNat 8 (v / 256 ^ (n - 1 - k)))
      ∧ ∀ a, (∀ k, k < n → a ≠ (addr + k) % 2 ^ 32) → (m.write addr n v).readByte a = m.readByte a

/-- A field written reads back, every other field of the buffer keeps its value, and so does every byte outside the field
(R53, R54; the layout is the spec's decision D10, log 19). -/
def Obligations.FieldAccess : Prop :=
  ∀ (m : Memory) (h : Handle) (sh : Shape) (i k : Nat) (f g : Field) (v : BitVec f.width.bits),
    f ∈ shapeFields sh → g ∈ shapeFields sh →
    h.base.toNat + (i + 1) * sampleBytes sh ≤ 2 ^ 32 → h.base.toNat + (k + 1) * sampleBytes sh ≤ 2 ^ 32 →
    fieldRead (fieldWrite m h sh i f v) h sh i f = v
      ∧ ((k, g) ≠ (i, f) → fieldRead (fieldWrite m h sh i f v) h sh k g = fieldRead m h sh k g)
      ∧ KeptOutside [{ base := fieldAddress h sh i f, len := f.width.bytes }] m (fieldWrite m h sh i f v)

/-- Stream bit `o` is bit `31 − (o mod 32)` of output word `o / 32` (R55, 44 R210). -/
def Obligations.StreamBitOrder : Prop :=
  ∀ (m : Memory) (out : Handle) (o : Nat), streamBit m out o = (outRead m out (o / 32)).getLsbD (31 - o % 32)

/-! ### The bit-packer (44_bitpacker.md) -/

/-- The capacity: whole 32-bit words, `buffer_length × 16` bits rounded up (R211). -/
def Obligations.CapacityInWholeWords : Prop :=
  ∀ j : JobRecord,
    capacity j = ceilDiv j.bufferLength.toNat 2 * 32 ∧ capacity j % 32 = 0
      ∧ j.bufferLength.toNat * 16 ≤ capacity j ∧ capacity j < j.bufferLength.toNat * 16 + 32
      ∧ (outputWords j * 4 = capacity j / 8)
      ∧ capacity { j with bufferLength := 0 } = 0 ∧ capacity { j with bufferLength := 1 } = 32
      ∧ capacity { j with bufferLength := 2 } = 32 ∧ capacity { j with bufferLength := 3 } = 64
      ∧ capacity { j with bufferLength := 4 } = 64

/-- What `put_n_bits32` returns, and when it does nothing: 0 for `n = 0` or `n > 32`, tested first, the cursor unmoved; −2
iff the write would exceed the capacity, exact to the bit; else `n` (R217, R218). -/
def Obligations.PutReturnCodes : Prop :=
  ∀ (out : Handle) (cap : Nat) (v : Word) (o n : Nat) (m : Memory),
    ((n = 0 ∨ 32 < n) → putNBits32 out cap v o n m = (.noOp, m) ∧ ∀ s, put v.toNat n s = .go s) ∧
    ((1 ≤ n ∧ n ≤ 32 ∧ cap < o + n) → putNBits32 out cap v o n m = (.smallBuffer, m)) ∧
    ((1 ≤ n ∧ n ≤ 32 ∧ o + n ≤ cap) → (putNBits32 out cap v o n m).1 = .wrote n) ∧
    PutResult.code .noOp = 0 ∧ PutResult.code .smallBuffer = -2 ∧ PutResult.code (.wrote n) = (n : Int)

/-- A successful `put_n_bits32` writes exactly the `n` low bits of the value at stream positions `o` to `o + n − 1`, the most
significant first, whether they lie in one word or in two; every other bit of the buffer and every byte outside it keeps its
value, and the bits of the value above the low `n` do not matter (R214, R215, R219). -/
def Obligations.PutWritesItsBits : Prop :=
  ∀ (out : Handle) (cap : Nat) (v : Word) (o n : Nat) (m : Memory),
    cap % 32 = 0 → out.base.toNat + cap / 8 ≤ 2 ^ 32 → 1 ≤ n → n ≤ 32 → o + n ≤ cap →
    (putNBits32 out cap v o n m).1 = .wrote n
      ∧ (∀ p, p < cap → streamBit (putNBits32 out cap v o n m).2 out p
          = if o ≤ p ∧ p < o + n then v.getLsbD (o + n - 1 - p) else streamBit m out p)
      ∧ KeptOutside [{ base := out.base.toNat, len := cap / 8 }] m (putNBits32 out cap v o n m).2
      ∧ ∀ v' : Word, (∀ b, b < n → v'.getLsbD b = v.getLsbD b) → putNBits32 out cap v' o n m = putNBits32 out cap v o n m

/-- The full-word case: `n = 32` at a word boundary stores the value, whatever the word held (R216). -/
def Obligations.FullWordPut : Prop :=
  ∀ (out : Handle) (cap : Nat) (v : Word) (w : Nat) (m : Memory), 32 * w + 32 ≤ cap →
    putNBits32 out cap v (32 * w) 32 m = (.wrote 32, outWrite m out w v)

/-- The PAD phase: zero bits from the end of the stream to the next multiple of 32, nothing else in MEM, the cursor unmoved,
nothing at all for an empty stream (R221). -/
def Obligations.TailPadding : Prop :=
  ∀ s : State, s.enc.streamLen ≤ capacity s.j → s.j.output.base.toNat + capacity s.j / 8 ≤ 2 ^ 32 →
    padPhase s = { s with mem := (padPhase s).mem, seq := { s.seq with phase := .pad } }
      ∧ (∀ p, p < capacity s.j → streamBit (padPhase s).mem s.j.output p
          = (if s.enc.streamLen ≤ p ∧ p < 32 * ceilDiv s.enc.streamLen 32 then false else streamBit s.mem s.j.output p))
      ∧ KeptOutside [streamExtent s.j s.enc.streamLen] s.mem (padPhase s).mem
      ∧ (s.enc.streamLen = 0 → (padPhase s).mem = s.mem)

/-! ### The pre-processor (41_preprocessor.md) -/

/-- Rounding forward divides by `2^k`, rounding back multiplies modulo `2^W`, and both together clear the `k` low bits (R131,
R132). -/
def Obligations.RoundingClearsLowBits : Prop :=
  ∀ (w k : Nat) (x : BitVec w),
    (roundFwd x k).toNat = x.toNat / 2 ^ k ∧ (roundInv x k).toNat = (x.toNat * 2 ^ k) % 2 ^ w
      ∧ (roundInv (roundFwd x k) k).toNat = x.toNat - x.toNat % 2 ^ k

/-- The difference transform: sample 0 becomes its rounded value, sample `i` the wrapped difference of the rounded samples `i`
and `i − 1` as they stood at the start of the phase, in the field's own width; nothing outside the input changes (R133; the launch premise that the input does not wrap, 70 R336). -/
def Obligations.DifferencePhase : Prop :=
  ∀ (s : State) (sh : Shape),
    s.j.input.base.toNat + s.j.samples.toNat * sampleBytes sh ≤ 2 ^ 32 → 0 < s.j.samples.toNat →
    (∀ f ∈ shapeFields sh,
      fieldRead (prePhase sh .diff s).mem s.j.input sh 0 f = fieldRead s.mem s.j.input sh 0 f >>> s.j.round.toNat) ∧
    (∀ i, 1 ≤ i → i < s.j.samples.toNat → ∀ f ∈ shapeFields sh,
      fieldRead (prePhase sh .diff s).mem s.j.input sh i f
        = (fieldRead s.mem s.j.input sh i f >>> s.j.round.toNat)
          - (fieldRead s.mem s.j.input sh (i - 1) f >>> s.j.round.toNat)) ∧
    KeptOutside [{ base := s.j.input.base.toNat, len := s.j.samples.toNat * sampleBytes sh }] s.mem
      (prePhase sh .diff s).mem

/-- The model transform: the input becomes the wrapped difference of the rounded sample and the rounded model; the target (the
updated model if present, else the model) becomes the blend of the rounded-back sample and the unrounded model; a model
that is not the target keeps its bytes, and so does everything else (R135, R136; the launch premises on the sample buffers, 70
R335 and R336). The blend is the spec's decision D5, recalled from outside its source (log 14), and that the model buffers have
the shape of the input is its decision D30 (log 19). -/
def Obligations.ModelPhase : Prop :=
  ∀ (s : State) (sh : Shape),
    let span := s.j.samples.toNat * sampleBytes sh
    let input : Extent := { base := s.j.input.base.toNat, len := span }
    let model : Extent := { base := s.j.model.base.toNat, len := span }
    let target : Extent :=
      { base := (if s.j.updatedModel.present then s.j.updatedModel else s.j.model).base.toNat, len := span }
    (∀ e ∈ [input, model, target], e.base + e.len ≤ 2 ^ 32) → input.disjoint model = true → input.disjoint target = true →
    (target = model ∨ target.disjoint model = true) → 0 < s.j.samples.toNat →
    (∀ i, i < s.j.samples.toNat → ∀ f ∈ shapeFields sh,
      fieldRead (prePhase sh .model s).mem s.j.input sh i f
        = (fieldRead s.mem s.j.input sh i f >>> s.j.round.toNat)
          - (fieldRead s.mem s.j.model sh i f >>> s.j.round.toNat)) ∧
    (∀ i, i < s.j.samples.toNat → ∀ f ∈ shapeFields sh,
      fieldRead (prePhase sh .model s).mem (if s.j.updatedModel.present then s.j.updatedModel else s.j.model) sh i f
        = BitVec.ofNat _
            (calUpModel ((fieldRead s.mem s.j.input sh i f >>> s.j.round.toNat) <<< s.j.round.toNat).toNat
              (fieldRead s.mem s.j.model sh i f).toNat s.j.modelValue.toNat)) ∧
    KeptOutside [input, target] s.mem (prePhase sh .model s).mem ∧
    (s.j.updatedModel.present = true → s.j.updatedModel.base ≠ s.j.model.base →
      ∀ i, i < s.j.samples.toNat → ∀ f ∈ shapeFields sh,
        fieldRead (prePhase sh .model s).mem s.j.model sh i f = fieldRead s.mem s.j.model sh i f)

/-- The model update lies between its two operands, and so fits the field; weight 16 keeps the model, weight 0 takes the
observation (R138's property P2 and its default formula, the spec's decision D5: log 14). -/
def Obligations.BlendBetweenOperands : Prop :=
  ∀ a b w : Nat, w ≤ 16 →
    min a b ≤ calUpModel a b w ∧ calUpModel a b w ≤ max a b ∧ calUpModel a b 16 = b ∧ calUpModel a b 0 = a

/-! ### The mapper (42_mapper.md) -/

/-- The fold: a residual read as two's complement goes to `2s` if it is not negative and to `2|s| − 1` if it is (R161). -/
def Obligations.FoldSignedResiduals : Prop :=
  ∀ (w : Width) (s : BitVec w.bits),
    ((mapToPos s).toNat : Int) = if 0 ≤ s.toInt then 2 * s.toInt else -2 * s.toInt - 1

/-- The fold is a bijection, and so is the mapping with or without the bias: the decoder's inverses undo them from both sides
(R164, 46 R283; inferences the spec marks as derived). -/
def Obligations.MappingBijective : Prop :=
  ∀ (w : Width) (x : BitVec w.bits) (esc : Escape) (biased : Bool),
    mapToPosInv (mapToPos x) = x ∧ mapToPos (mapToPosInv x) = x
      ∧ unmapValue esc biased (mapValue esc biased x) = x ∧ mapValue esc biased (unmapValue esc biased x) = x

/-- The MAP phase folds every field of every sample in place and adds 1 under the zero escape except to `exp_flags`; it
touches nothing outside the input (R160, R163). -/
def Obligations.MapPhase : Prop :=
  ∀ (s : State) (sh : Shape) (esc : Escape),
    s.j.input.base.toNat + s.j.samples.toNat * sampleBytes sh ≤ 2 ^ 32 →
    (∀ i, i < s.j.samples.toNat → ∀ f ∈ shapeFields sh,
      fieldRead (mapPhase sh esc s).mem s.j.input sh i f
        = if esc = .zero ∧ f.name ≠ .expFlags then mapToPos (fieldRead s.mem s.j.input sh i f) + 1
          else mapToPos (fieldRead s.mem s.j.input sh i f)) ∧
    KeptOutside [{ base := s.j.input.base.toNat, len := s.j.samples.toNat * sampleBytes sh }] s.mem
      (mapPhase sh esc s).mem

/-! ### The entropy encoder (43_entropy_encoder.md) -/

/-- The Rice codeword of `u` for the parameter `2^l`: `u >> l` ones, a zero, the `l` low bits of `u` (R171). -/
def Obligations.RiceCodewordBits : Prop :=
  ∀ (u l spill : Nat) (esc : Escape),
    normalCodeword u (encoderSetup (2 ^ l) spill esc) = riceCodeword u l
      ∧ (riceCodeword u l).len = u / 2 ^ l + 1 + l
      ∧ (riceCodeword u l).value < 2 ^ (riceCodeword u l).len
      ∧ (l ≤ 15 → ((riceCodeword u l).value < 2 ^ 32 ↔ (riceCodeword u l).len ≤ 32))
      ∧ binBits (riceCodeword u l).len (riceCodeword u l).value
          = List.replicate (u / 2 ^ l) true ++ [false] ++ binBits l (u % 2 ^ l)

/-- The Golomb codeword of `u` for a parameter `m` that is no power of two, with `l = ⌊log2 m⌋` and cutoff `c = 2^(l+1) − m`:
below the cutoff `l + 1` bits of `u`; from it on `g` ones and `2c + r` in `l + 2` bits, where `u = c + g m + r` (R172, with
90 C1 and C2). -/
def Obligations.GolombCodewordBits : Prop :=
  ∀ (u m spill : Nat) (esc : Escape), 3 ≤ m → (∀ k, m ≠ 2 ^ k) →
    let l := ilog2 m
    let c := 2 ^ (l + 1) - m
    let w := normalCodeword u (encoderSetup m spill esc)
    1 ≤ c ∧ c < m
      ∧ (u < c → w.len = l + 1 ∧ w.value = u ∧ binBits w.len w.value = binBits (l + 1) u)
      ∧ (c ≤ u → w.len = (u - c) / m + l + 2
          ∧ binBits w.len w.value
              = List.replicate ((u - c) / m) true ++ binBits (l + 2) (2 * c + (u - c - (u - c) / m * m)))

/-- The normal codewords of one setup: the bit strings are those of the codewords, no one is the beginning of another, and
their length does not decrease (R173, R184; inferences the spec marks as derived). -/
def Obligations.NormalCodePrefixFree : Prop :=
  ∀ (m spill u v : Nat) (esc : Escape), 1 ≤ m →
    normalBits u (encoderSetup m spill esc)
        = binBits (normalCodeword u (encoderSetup m spill esc)).len (normalCodeword u (encoderSetup m spill esc)).value
      ∧ (u ≤ v →
          (normalCodeword u (encoderSetup m spill esc)).len ≤ (normalCodeword v (encoderSetup m spill esc)).len)
      ∧ (u ≠ v → ¬ normalBits u (encoderSetup m spill esc) <+: normalBits v (encoderSetup m spill esc))

/-- The multi-escape offset of a 32-bit `d`: the least `k` with `d ≤ 4^(k+1) − 1`; equivalently 0 for 0 and else
`min(15, ⌊log2 d⌋ / 2)` (R181, R182). That the source's table wins over its closed formula is 90 C3 (log 32), and rows 3 to 14
of the table are derived by the spec. -/
def Obligations.MultiOffsetTable : Prop :=
  ∀ d : Nat, d < 2 ^ 32 →
    calMultiOffset d ≤ 15 ∧ d ≤ 4 ^ (calMultiOffset d + 1) - 1
      ∧ (∀ k, k < calMultiOffset d → 4 ^ (k + 1) - 1 < d)
      ∧ calMultiOffset d = if d = 0 then 0 else min 15 (ilog2 d / 2)

/-- `MAX_SPILL`: every legal parameter has a legal spill, every value up to 15 above a legal spill has a codeword of at most
32 bits, it is the largest such bound, and it is 0 for illegal parameters (R185 Q2 and Q4, R186; the formula is the spec's
decision D3, log 12). -/
def Obligations.MaxSpillBudget : Prop :=
  ∀ (m : Nat) (mode : Word) (spill : Nat) (esc : Escape),
    (1 ≤ m → m ≤ 65535 →
      2 ≤ maxSpill m mode
        ∧ (∀ u, u ≤ maxSpill m mode + 15 → (normalCodeword u (encoderSetup m spill esc)).len ≤ 32)
        ∧ (normalCodeword (maxSpill m mode + 15) (encoderSetup m spill esc)).len = 32
        ∧ (normalCodeword (maxSpill m mode + 16) (encoderSetup m spill esc)).len = 33) ∧
    (m = 0 ∨ 65535 < m → maxSpill m mode = 0)

/-- After a passed validation no codeword of the primary encoder exceeds 32 bits, whatever the data (R191, an inference the
spec marks as derived; it rests on `MAX_SPILL`, log 12). -/
def Obligations.PrimaryEncoderWithinBudget : Prop :=
  ∀ (j : JobRecord) (esc : Escape) (u : Nat), ValidConfig j → isRaw j.mode = false →
    headFits u (encoderSetup j.golombPar.toNat j.spill.toNat esc)

/-- When the `exp_flags` encoder exceeds the budget: exactly for a value from 32 up on the normal path and for a multi-escape
outlier with an escape symbol from 32 up; never with `spill ≤ 32` under the zero escape or `spill ≤ 28` under the multi
escape (70 R341, an inference the spec marks as derived; it rests on decisions D4, D13 and D14, logs 13, 24 and 25). -/
def Obligations.ExposureFlagsBudget : Prop :=
  ∀ (spill u : Nat) (esc : Escape), u < 256 →
    (¬ headFits u (encoderSetup golombParExposureFlags spill esc)
        ↔ (32 ≤ u ∧ u < spill) ∨ (esc = .multi ∧ spill ≤ u ∧ 32 ≤ spill + calMultiOffset (u - spill)))
      ∧ (esc = .zero → spill ≤ 32 → headFits u (encoderSetup golombParExposureFlags spill esc))
      ∧ (esc = .multi → spill ≤ 28 → headFits u (encoderSetup golombParExposureFlags spill esc))

/-- One field value: its emission goes to the stream at the cursor, bit for bit, and the cursor advances by its length; a
codeword over 32 bits is an internal error before anything is written, even where the capacity would not hold it; an emission
that does not fit is a capacity error that touches the output buffer and the cursor only (R174, R176 to R180; 44 R220; 60
R307). That a codeword over 32 bits is an internal error, tested before the capacity, is the spec's decision D14 (log 25). -/
def Obligations.EncodeValueAppendsEmission : Prop :=
  ∀ (s : State) (e : EncSetup) (u w : Nat),
    e.coherent → w ∈ [8, 16, 32] → s.enc.streamLen ≤ capacity s.j →
    s.j.output.base.toNat + capacity s.j / 8 ≤ 2 ^ 32 →
    let bits := emissionBits u w e
    (headFits u e → s.enc.streamLen + bits.length ≤ capacity s.j →
      ∃ m, encodeValue u w e s
          = .go { s with mem := m, enc := { s.enc with streamLen := s.enc.streamLen + bits.length } }
        ∧ (∀ p, p < capacity s.j → streamBit m s.j.output p
            = if s.enc.streamLen ≤ p ∧ p < s.enc.streamLen + bits.length then bits.getD (p - s.enc.streamLen) false
              else streamBit s.mem s.j.output p)
        ∧ KeptOutside [{ base := s.j.output.base.toNat, len := capacity s.j / 8 }] s.mem m) ∧
    (¬ headFits u e → encodeValue u w e s = .stop .internal s) ∧
    (headFits u e → capacity s.j < s.enc.streamLen + bits.length →
      ∃ m n, encodeValue u w e s = .stop .smallBuffer { s with mem := m, enc := { s.enc with streamLen := n } }
        ∧ s.enc.streamLen ≤ n ∧ n ≤ capacity s.j
        ∧ KeptOutside [{ base := s.j.output.base.toNat, len := capacity s.j / 8 }] s.mem m)

/-! ### The reference decoder (46_decoder_reference.md) -/

/-- The decoder reads back every value that the encoder emits and stops right after it, whatever follows (R282, R284;
inferences the spec marks as derived; the decoder is no hardware, log 31). -/
def Obligations.DecodeInvertsEmission : Prop :=
  ∀ (m spill u w : Nat) (esc : Escape) (rest : List Bool), 1 ≤ m → w ≤ 32 → u < 2 ^ w →
    decodeValue w (encoderSetup m spill esc) (emissionBits u w (encoderSetup m spill esc) ++ rest) = some (u, rest)

/-- The round trip: from the output of any successful job, raw or compressing, and the initial model, the decoder reconstructs
every field of every sample with its `round` low bits cleared, or exactly in a raw mode; in model modes its updated model is
what the machine has left in the target; and it uses every bit of the stream (R280, R286, R288, R290, R291, inferences the
spec marks as derived; the blend is D5; logs 14, 31). -/
def Obligations.DecompressRoundTrip : Prop :=
  ∀ (i : Instr) (s t : State) (d : Descriptor),
    descriptor (jobOf i).mode = some d → exec i s = .next t → t.status.kind = .ok →
    decompressJob (jobOf i) s.mem t.mem t.info.cmpSize.toNat
      = some {
          samples := roundedSamples (jobOf i) d s.mem
          updatedModel :=
            if d.pre = .model then samplesOf t.mem (modelTarget (jobOf i)) d.shape (jobOf i).samples.toNat else []
          rest := [] }

/-! ### Whole jobs (45_dispatcher.md) -/

/-- The raw modes complete: the samples are copied byte for byte, the size is the copy's, nothing else changes (R240, R245;
44 R222, R223; without padding by the spec's decision D25, log 27). -/
def Obligations.RawModesComplete : Prop :=
  ∀ o : JobOperands, RawCompletes (.raw o) .u16 ∧ RawCompletes (.rawSFx o) .sFx

/-- A raw copy that does not fit ends in the capacity error before anything is written; for `RAW` it cannot happen (R240,
R245; 44 R224, the spec's decision D17, log 26). -/
def Obligations.RawCapacityError : Prop :=
  ∀ (o : JobOperands) (s : State),
    (Launchable (jobOf (.rawSFx o)) { shape := .sFx, pre := .none, esc := none } →
      capacity (jobOf (.rawSFx o)) / 8 < sampleSpan (jobOf (.rawSFx o)) .sFx →
      ∃ t, exec (.rawSFx o) s = .next t ∧ Finished (jobOf (.rawSFx o)) s t .smallBuf (-2) 1 0
        ∧ t.seq = { s.seq with phase := .done } ∧ t.enc = { s.enc with streamLen := 0 } ∧ t.mem = s.mem) ∧
    (ValidConfig (jobOf (.raw o)) → sampleSpan (jobOf (.raw o)) .u16 ≤ capacity (jobOf (.raw o)) / 8)

/-- The twelve compressing modes of the scalar shapes complete (R241 to R244, R262 to R269): the input holds the mapped
values, the model target the updated model, the output the padded stream, the registers the success and its size, and nothing
else changes. It rests on the spec's parameter decisions (logs 10 to 19). -/
def Obligations.ScalarModesComplete : Prop :=
  ∀ o : JobOperands,
    CompressionCompletes (.modelZero o) .u16 .model .zero ∧ CompressionCompletes (.diffZero o) .u16 .diff .zero
      ∧ CompressionCompletes (.modelMulti o) .u16 .model .multi ∧ CompressionCompletes (.diffMulti o) .u16 .diff .multi
      ∧ CompressionCompletes (.modelZeroFFx o) .fFx .model .zero ∧ CompressionCompletes (.diffZeroFFx o) .fFx .diff .zero
      ∧ CompressionCompletes (.modelMultiFFx o) .fFx .model .multi
      ∧ CompressionCompletes (.diffMultiFFx o) .fFx .diff .multi
      ∧ CompressionCompletes (.modelZero32 o) .u32 .model .zero ∧ CompressionCompletes (.diffZero32 o) .u32 .diff .zero
      ∧ CompressionCompletes (.modelMulti32 o) .u32 .model .multi
      ∧ CompressionCompletes (.diffMulti32 o) .u32 .diff .multi

/-- The sixteen compressing modes whose shape has exposure flags complete, when no `exp_flags` codeword exceeds 32 bits (R246
to R261; 70 R341). It rests on the spec's parameter decisions and on D13 and D14 (logs 10 to 19, 24, 25). -/
def Obligations.ExposureModesComplete : Prop :=
  ∀ o : JobOperands,
    CompressionCompletes (.modelZeroSFx o) .sFx .model .zero ∧ CompressionCompletes (.diffZeroSFx o) .sFx .diff .zero
      ∧ CompressionCompletes (.modelMultiSFx o) .sFx .model .multi
      ∧ CompressionCompletes (.diffMultiSFx o) .sFx .diff .multi
      ∧ CompressionCompletes (.modelZeroSFxEfx o) .sFxEfx .model .zero
      ∧ CompressionCompletes (.diffZeroSFxEfx o) .sFxEfx .diff .zero
      ∧ CompressionCompletes (.modelMultiSFxEfx o) .sFxEfx .model .multi
      ∧ CompressionCompletes (.diffMultiSFxEfx o) .sFxEfx .diff .multi
      ∧ CompressionCompletes (.modelZeroSFxNcob o) .sFxNcob .model .zero
      ∧ CompressionCompletes (.diffZeroSFxNcob o) .sFxNcob .diff .zero
      ∧ CompressionCompletes (.modelMultiSFxNcob o) .sFxNcob .model .multi
      ∧ CompressionCompletes (.diffMultiSFxNcob o) .sFxNcob .diff .multi
      ∧ CompressionCompletes (.modelZeroSFxEfxNcobEcob o) .sFxEfxNcobEcob .model .zero
      ∧ CompressionCompletes (.diffZeroSFxEfxNcobEcob o) .sFxEfxNcobEcob .diff .zero
      ∧ CompressionCompletes (.modelMultiSFxEfxNcobEcob o) .sFxEfxNcobEcob .model .multi
      ∧ CompressionCompletes (.diffMultiSFxEfxNcobEcob o) .sFxEfxNcobEcob .diff .multi

/-- The first emission that cannot be made ends a compressing job, with an internal error if its codeword exceeds 32 bits and
else with the capacity error; the input and the model target are transformed all the same, and only the output is left open
(43 R190; 60 R304, R305, R307; 20 R68). -/
def Obligations.FirstErrorEndsJob : Prop :=
  ∀ o : JobOperands,
    CompressionFails (.modelZero o) .u16 .model .zero ∧ CompressionFails (.diffZero o) .u16 .diff .zero
      ∧ CompressionFails (.modelMulti o) .u16 .model .multi ∧ CompressionFails (.diffMulti o) .u16 .diff .multi
      ∧ CompressionFails (.modelZeroSFx o) .sFx .model .zero ∧ CompressionFails (.diffZeroSFx o) .sFx .diff .zero
      ∧ CompressionFails (.modelMultiSFx o) .sFx .model .multi ∧ CompressionFails (.diffMultiSFx o) .sFx .diff .multi
      ∧ CompressionFails (.modelZeroSFxEfx o) .sFxEfx .model .zero
      ∧ CompressionFails (.diffZeroSFxEfx o) .sFxEfx .diff .zero
      ∧ CompressionFails (.modelMultiSFxEfx o) .sFxEfx .model .multi
      ∧ CompressionFails (.diffMultiSFxEfx o) .sFxEfx .diff .multi
      ∧ CompressionFails (.modelZeroSFxNcob o) .sFxNcob .model .zero
      ∧ CompressionFails (.diffZeroSFxNcob o) .sFxNcob .diff .zero
      ∧ CompressionFails (.modelMultiSFxNcob o) .sFxNcob .model .multi
      ∧ CompressionFails (.diffMultiSFxNcob o) .sFxNcob .diff .multi
      ∧ CompressionFails (.modelZeroSFxEfxNcobEcob o) .sFxEfxNcobEcob .model .zero
      ∧ CompressionFails (.diffZeroSFxEfxNcobEcob o) .sFxEfxNcobEcob .diff .zero
      ∧ CompressionFails (.modelMultiSFxEfxNcobEcob o) .sFxEfxNcobEcob .model .multi
      ∧ CompressionFails (.diffMultiSFxEfxNcobEcob o) .sFxEfxNcobEcob .diff .multi
      ∧ CompressionFails (.modelZeroFFx o) .fFx .model .zero ∧ CompressionFails (.diffZeroFFx o) .fFx .diff .zero
      ∧ CompressionFails (.modelMultiFFx o) .fFx .model .multi ∧ CompressionFails (.diffMultiFFx o) .fFx .diff .multi
      ∧ CompressionFails (.modelZero32 o) .u32 .model .zero ∧ CompressionFails (.diffZero32 o) .u32 .diff .zero
      ∧ CompressionFails (.modelMulti32 o) .u32 .model .multi ∧ CompressionFails (.diffMulti32 o) .u32 .diff .multi

/-- Every job that the machine runs ends in one of the four ways of R232 (their kinds differ), with CFG kept, the record
latched and mirrored; an internal error only in a mode with exposure flags (60 R300, R308; 10 R35). -/
def Obligations.FourOutcomes : Prop :=
  ∀ (i : Instr) (s t : State), exec i s = .next t →
    (∃ size, Finished (jobOf i) s t .ok 0 0 size) ∨
    (∃ n, 1 ≤ n ∧ n ≤ 15 ∧ n = validateCount (jobOf i)
      ∧ Finished (jobOf i) s t .cfgErr (-(n : Int)) (validateBits (jobOf i)) 0 ∧ t.mem = s.mem) ∨
    Finished (jobOf i) s t .smallBuf (-2) 1 0 ∨
    (Finished (jobOf i) s t .internal (-1) 0 0 ∧ (jobOf i).mode ∈ exposureModeCodes)

/-- A job changes no byte of MEM outside the output, the input of a compressing mode and the model target of a model mode, and
none at all if the validator rejects it or it has no samples (20 R66 to R68). -/
def Obligations.StoresOnlyWritable : Prop :=
  ∀ (i : Instr) (s t : State) (d : Descriptor), exec i s = .next t → descriptor (jobOf i).mode = some d →
    KeptOutside (writableExtents (jobOf i) d) s.mem t.mem
      ∧ (0 < validateCount (jobOf i) ∨ (jobOf i).samples = 0 → t.mem = s.mem)

/-- A job does not depend on any earlier job: from two states with the same MEM the same job gives the same answer, whatever
the other registers hold (70 R331, 00 R7). The draws of free values are taken equal (log 4). -/
def Obligations.JobForgetsHistory : Prop :=
  ∀ (i : Instr) (s s' : State), s.mem = s'.mem → s.freeDraws = s'.freeDraws →
    SameEffect (exec i s) (exec i s')
      ∧ ∀ t t', exec i s = .next t → exec i s' = .next t' →
          t.info = t'.info ∧ t.j = t'.j ∧ t.enc.streamLen = t'.enc.streamLen

/-- Words that a mode does not use have no effect but through their mirrors: `golomb_par`, `spill`, `round`, `model_value` and the
model handles in raw modes; `model_value` and the model handles in difference modes (30 R80, 93 U17). -/
def Obligations.UnusedWordsIgnored : Prop :=
  ∀ (o o' : JobOperands) (s : State),
    o.samples = o'.samples → o.bufferLength = o'.bufferLength → o.inputBase = o'.inputBase →
    o.outputBase = o'.outputBase → o.cfgPresent.getLsbD 0 = o'.cfgPresent.getLsbD 0 →
    o.cfgPresent.getLsbD 3 = o'.cfgPresent.getLsbD 3 →
    (∀ mode ∈ [Instr.raw, Instr.rawSFx], SameEffect (exec (mode o) s) (exec (mode o') s)) ∧
    (o.golombPar = o'.golombPar → o.spill = o'.spill → o.round = o'.round →
      ∀ mode ∈ [Instr.diffZero, Instr.diffMulti, Instr.diffZeroSFx, Instr.diffMultiSFx, Instr.diffZeroSFxEfx,
          Instr.diffMultiSFxEfx, Instr.diffZeroSFxNcob, Instr.diffMultiSFxNcob, Instr.diffZeroSFxEfxNcobEcob,
          Instr.diffMultiSFxEfxNcobEcob, Instr.diffZeroFFx, Instr.diffMultiFFx, Instr.diffZero32, Instr.diffMulti32],
        SameEffect (exec (mode o) s) (exec (mode o') s))

/-- The two grains of the machine agree: five phase moves from the latched job give what the whole job gives in one step, state
for state, refusal for refusal (10 R27, R28; 93 U19; the two grains are the model's own, log 1). -/
def Obligations.PhaseMovesEqualWholeJob : Prop :=
  ∀ (i : Instr) (s : State), coreMoves 5 (latchJob (jobOf i) s) = exec i s

/-- A running job advances only forward along the phases, by the shortcuts of R27, and has ended after five moves at the latest
(10 R27, 20 R63; the grain is the model's own, log 1). -/
def Obligations.PhasesAdvance : Prop :=
  ∀ s : State, s.Inv → s.status.busy = true →
    (∀ t, coreMove s = .next t →
      (s.seq.phase, t.seq.phase)
        ∈ [(Phase.validate, Phase.pre), (.validate, .encode), (.validate, .done), (.pre, .map), (.map, .encode),
            (.encode, .pad), (.encode, .done), (.pad, .done)]) ∧
    ((∃ t, coreMoves 5 s = .next t ∧ t.status.busy = false ∧ t.status.done = true)
      ∨ ∃ r, coreMoves 5 s = .refused r ∧ s.seq.phase = .validate)

/-! ### The invariant of the machine -/

/-- The invariant holds after reset (10 R40). MEM's form and the grain are the model's own (logs 1, 3), and the clauses on
`ENC.pri`, `ENC.sec` and the latched job rest on the values that the model gives them at reset (log 7). -/
def Obligations.InvariantAtReset : Prop := State.reset.Inv

/-- Every step keeps the invariant, from every state that meets it: MEM's canonical form, busy and done by the phase, the cursor
within the capacity, coherent encoder setups, the mirrors of the latched job, the result registers by the kind, and past
VALIDATE only launches that may run (10 R27 to R36, R40; 44 R212; 60 R308). The form of MEM and the grain of steps are the
model's own (logs 1 and 3). -/
def Obligations.StepKeepsInvariant : Prop :=
  ∀ s t : State, s.Inv → step s = .next t → t.Inv

end
end

