-- ==== Sys2Proof/Laws/Memory.lean ====
section
/-! SUPPORT. The laws of MEM: what each memory operation leaves at every address, said once, and that each keeps the canonical
form (20_memory.md R51, log 3). -/

namespace Sys2Proof.Machine

/-! ### Bytes -/

theorem lookupCell_insertCell (cells : List Host.Cell) (a x : Nat) (b : Byte) :
    lookupCell (insertCell cells a b) x = if a = x then some b else lookupCell cells x := by
  induction cells with
  | nil => simp [insertCell, lookupCell]
  | cons c rest ih =>
    unfold insertCell
    split
    · simp [lookupCell]
    · split
      · subst_vars
        simp only [lookupCell]
        split <;> simp_all
      · simp only [lookupCell, ih]
        split <;> split <;> simp_all

theorem Memory.readByte_writeByte (m : Memory) (a x : Nat) (b : Byte) :
    (m.writeByte a b).readByte x = if a = x then b else m.readByte x := by
  unfold Memory.readByte Memory.writeByte
  rw [lookupCell_insertCell]
  split <;> simp_all

@[simp] theorem Memory.readByte_writeByte_self (m : Memory) (a : Nat) (b : Byte) : (m.writeByte a b).readByte a = b := by
  simp [Memory.readByte_writeByte]

theorem Memory.readByte_writeByte_of_ne (m : Memory) {a x : Nat} (b : Byte) (h : a ≠ x) :
    (m.writeByte a b).readByte x = m.readByte x := by
  simp [Memory.readByte_writeByte, h]

/-! ### The canonical form -/

theorem insertCell_above {lo : Nat} {cells : List Host.Cell} {a : Nat} {b : Byte}
    (h : ∀ c ∈ cells, lo < c.1) (ha : lo < a) : ∀ c ∈ insertCell cells a b, lo < c.1 := by
  induction cells with
  | nil => simpa [insertCell] using ha
  | cons d rest ih =>
    unfold insertCell
    split
    · intro c hc
      rcases List.mem_cons.mp hc with rfl | hc
      · exact ha
      · exact h c hc
    · split
      · intro c hc
        rcases List.mem_cons.mp hc with rfl | hc
        · exact ha
        · exact h c (List.mem_cons_of_mem _ hc)
      · intro c hc
        rcases List.mem_cons.mp hc with rfl | hc
        · exact h _ (List.mem_cons_self ..)
        · exact ih (fun c hc => h c (List.mem_cons_of_mem _ hc)) c hc

theorem insertCell_below {hi : Nat} {cells : List Host.Cell} {a : Nat} {b : Byte}
    (h : ∀ c ∈ cells, c.1 < hi) (ha : a < hi) : ∀ c ∈ insertCell cells a b, c.1 < hi := by
  induction cells with
  | nil => simpa [insertCell] using ha
  | cons d rest ih =>
    unfold insertCell
    split
    · intro c hc
      rcases List.mem_cons.mp hc with rfl | hc
      · exact ha
      · exact h c hc
    · split
      · intro c hc
        rcases List.mem_cons.mp hc with rfl | hc
        · exact ha
        · exact h c (List.mem_cons_of_mem _ hc)
      · intro c hc
        rcases List.mem_cons.mp hc with rfl | hc
        · exact h _ (List.mem_cons_self ..)
        · exact ih (fun c hc => h c (List.mem_cons_of_mem _ hc)) c hc

theorem insertCell_sorted {cells : List Host.Cell} {a : Nat} {b : Byte}
    (h : cells.Pairwise (fun c d => c.1 < d.1)) : (insertCell cells a b).Pairwise (fun c d => c.1 < d.1) := by
  induction cells with
  | nil => simp [insertCell]
  | cons c rest ih =>
    rw [List.pairwise_cons] at h
    unfold insertCell
    split
    · rename_i hlt
      refine List.pairwise_cons.mpr ⟨?_, List.pairwise_cons.mpr h⟩
      intro d hd
      rcases List.mem_cons.mp hd with rfl | hd
      · exact hlt
      · exact Nat.lt_trans hlt (h.1 d hd)
    · split
      · rename_i heq
        subst heq
        exact List.pairwise_cons.mpr h
      · refine List.pairwise_cons.mpr ⟨insertCell_above h.1 (by omega), ih h.2⟩

theorem Memory.wf_iff (m : Memory) :
    m.wf = true ↔ m.cells.Pairwise (fun c d => c.1 < d.1) ∧ ∀ c ∈ m.cells, c.1 < 2 ^ Config.addrW := by
  simp [Memory.wf]

theorem Memory.wf_writeByte {m : Memory} {a : Nat} (b : Byte) (h : m.wf = true) (ha : a < 2 ^ Config.addrW) :
    (m.writeByte a b).wf = true := by
  rw [Memory.wf_iff] at h ⊢
  exact ⟨insertCell_sorted h.1, insertCell_below h.2 ha⟩

theorem wrapAddress_lt (a : Nat) : wrapAddress a < 2 ^ Config.addrW := Nat.mod_lt _ (Nat.two_pow_pos _)

theorem wrapAddress_of_lt {a : Nat} (h : a < 2 ^ 32) : wrapAddress a = a := Nat.mod_eq_of_lt h

theorem Memory.wf_write {m : Memory} (addr n v : Nat) (h : m.wf = true) : (m.write addr n v).wf = true := by
  induction n generalizing v with
  | zero => exact h
  | succ n ih => exact Memory.wf_writeByte _ (ih _) (wrapAddress_lt _)

theorem Memory.wf_copy {m : Memory} (src dst n : Nat) (h : m.wf = true) : (m.copy src dst n).wf = true := by
  induction n with
  | zero => exact h
  | succ n ih => exact Memory.wf_writeByte _ ih (wrapAddress_lt _)

theorem Memory.wf_fillFree {m : Memory} (draw base n : Nat) (h : m.wf = true) : (m.fillFree draw base n).wf = true := by
  induction n with
  | zero => exact h
  | succ n ih => exact Memory.wf_writeByte _ ih (wrapAddress_lt _)

/-! ### Wider accesses -/

/-- A write leaves every address alone that is none of its own. -/
theorem Memory.readByte_write_of_ne (m : Memory) (addr n v x : Nat) (h : ∀ k, k < n → wrapAddress (addr + k) ≠ x) :
    (m.write addr n v).readByte x = m.readByte x := by
  induction n generalizing v with
  | zero => rfl
  | succ n ih =>
    rw [Memory.write, Memory.readByte_writeByte_of_ne _ _ (h n (Nat.lt_succ_self n))]
    exact ih _ (fun k hk => h k (Nat.lt_succ_of_lt hk))

/-- A read sees only its own addresses. -/
theorem Memory.read_congr {m m' : Memory} (addr n : Nat)
    (h : ∀ k, k < n → m'.readByte (wrapAddress (addr + k)) = m.readByte (wrapAddress (addr + k))) :
    m'.read addr n = m.read addr n := by
  induction n with
  | zero => rfl
  | succ n ih =>
    rw [Memory.read, Memory.read, ih (fun k hk => h k (Nat.lt_succ_of_lt hk)), h n (Nat.lt_succ_self n)]

/-- A read of `n` bytes is below `256 ^ n`. -/
theorem Memory.read_lt (m : Memory) (addr n : Nat) : m.read addr n < 256 ^ n := by
  induction n with
  | zero => simp [Memory.read]
  | succ n ih =>
    have hb := (m.readByte (wrapAddress (addr + n))).isLt
    simp only [Memory.read, Nat.pow_succ]
    omega

/-- Reading back what was written gives its low `n` bytes, where the access does not run over the top of MEM. -/
theorem Memory.read_write_same (m : Memory) (addr n v : Nat) (h : addr + n ≤ 2 ^ 32) :
    (m.write addr n v).read addr n = v % 256 ^ n := by
  induction n generalizing v with
  | zero => simp [Memory.read, Nat.mod_one]
  | succ n ih =>
    have hread : ((m.write addr n (v / 256)).writeByte (wrapAddress (addr + n)) (BitVec.ofNat 8 v)).read addr n
        = (m.write addr n (v / 256)).read addr n := by
      apply Memory.read_congr
      intro k hk
      apply Memory.readByte_writeByte_of_ne
      rw [wrapAddress_of_lt (by omega), wrapAddress_of_lt (by omega)]
      omega
    rw [Memory.write, Memory.read, hread, ih _ (by omega), Memory.readByte_writeByte_self, BitVec.toNat_ofNat,
      Nat.pow_succ' (m := 256), Nat.mod_mul, Nat.mul_comm, Nat.add_comm]

/-- A field write keeps the canonical form. -/
theorem fieldWrite_wf {m : Memory} (h : Handle) (sh : Shape) (i : Nat) (f : Field) (v : BitVec f.width.bits)
    (hm : m.wf = true) : (fieldWrite m h sh i f v).wf = true := Memory.wf_write _ _ _ hm

/-- An output word write keeps the canonical form. -/
theorem outWrite_wf {m : Memory} (out : Handle) (w : Nat) (v : Word) (hm : m.wf = true) : (outWrite m out w v).wf = true :=
  Memory.wf_write _ _ _ hm

/-- `put_n_bits32` keeps the canonical form, whatever it returns. -/
theorem putNBits32_wf {m : Memory} (out : Handle) (cap : Nat) (v : Word) (o n : Nat) (hm : m.wf = true) :
    (putNBits32 out cap v o n m).2.wf = true := by
  unfold putNBits32
  split
  · exact hm
  · split
    · exact hm
    · split
      · exact outWrite_wf _ _ _ hm
      · exact outWrite_wf _ _ _ (outWrite_wf _ _ _ hm)

/-- Folding an operation that keeps the canonical form keeps it. -/
theorem foldl_wf {α : Type} (g : Memory → α → Memory) (hg : ∀ m x, m.wf = true → (g m x).wf = true) (l : List α)
    {m : Memory} (hm : m.wf = true) : (l.foldl g m).wf = true := by
  induction l generalizing m with
  | nil => exact hm
  | cons x rest ih => exact ih (hg m x hm)

theorem diffField_wf (input : Handle) (sh : Shape) (k : Nat) (f : Field) (n : Nat) {m : Memory} (hm : m.wf = true) :
    (diffField input sh k f n m).wf = true := by
  induction n generalizing m with
  | zero => exact fieldWrite_wf _ _ _ _ _ hm
  | succ n ih => exact ih (fieldWrite_wf _ _ _ _ _ hm)

theorem modelField_wf (j : JobRecord) (sh : Shape) (i : Nat) (f : Field) {m : Memory} (hm : m.wf = true) :
    (modelField j sh i f m).wf = true := fieldWrite_wf _ _ _ _ _ (fieldWrite_wf _ _ _ _ _ hm)

theorem preMemory_wf (j : JobRecord) (sh : Shape) (pre : Pre) {m : Memory} (hm : m.wf = true) :
    (preMemory j sh pre m).wf = true := by
  cases pre with
  | none => exact hm
  | diff => exact foldl_wf _ (fun _ _ h => diffField_wf _ _ _ _ _ h) _ hm
  | model => exact foldl_wf _ (fun _ _ h => foldl_wf _ (fun _ _ h => modelField_wf _ _ _ _ h) _ h) _ hm

theorem mapMemory_wf (j : JobRecord) (sh : Shape) (esc : Escape) {m : Memory} (hm : m.wf = true) :
    (mapMemory j sh esc m).wf = true :=
  foldl_wf _ (fun _ _ h => foldl_wf _ (fun _ _ h => fieldWrite_wf _ _ _ _ _ h) _ h) _ hm

theorem padMemory_wf (j : JobRecord) (len : Nat) {m : Memory} (hm : m.wf = true) : (padMemory j len m).wf = true := by
  unfold padMemory
  split
  · exact putNBits32_wf _ _ _ _ _ hm
  · exact hm

end Sys2Proof.Machine
end

