-- ==== Sys2Proof/Laws/Host.lean ====
section
/-! SUPPORT. What the extents of a job cover, when the host's access to MEM is turned away, and what a reset leaves of MEM: one
lemma per shared operation, which later proofs cite and do not unfold. -/

namespace Sys2Proof.Machine

/-! ### Extents -/

@[simp] theorem ifPresent_present {h : Handle} (hp : h.present = true) (e : Extent) : ifPresent h e = [e] := by
  simp [ifPresent, hp]

@[simp] theorem ifPresent_absent {h : Handle} (hp : h.present = false) (e : Extent) : ifPresent h e = [] := by
  simp [ifPresent, hp]

@[simp] theorem mem_ifPresent {h : Handle} {e x : Extent} : x ∈ ifPresent h e ↔ h.present = true ∧ x = e := by
  cases hp : h.present <;> simp [ifPresent, hp]

theorem Extent.covers_iff (e : Extent) (a : Nat) : e.covers a = true ↔ e.base ≤ a ∧ a < e.base + e.len := by
  simp [Extent.covers]

/-- A present buffer's extent covers exactly the bytes that the buffer holds. -/
theorem any_ifPresent_covers (h : Handle) (len a : Nat) :
    (∃ e ∈ ifPresent h { base := h.base.toNat, len := len }, e.covers a = true) ↔ h.holds len a := by
  simp [Handle.holds, Extent.covers_iff]

/-- The extents of a launch that the validator has passed: every handle that the job needs is present. -/
theorem usedExtents_eq {j : JobRecord} {d : Descriptor} (hi : j.input.present = true) (ho : j.output.present = true) :
    usedExtents j d = sampleExtent j d j.input :: outputExtent j d :: modelExtents j d := by
  simp [usedExtents, hi, ho]

/-- The extents of the model buffers cover the bytes of `MDL` and of `UPD`; two names of one buffer count once. -/
theorem covers_modelExtents (j : JobRecord) (d : Descriptor) (a : Nat) :
    (∃ e ∈ modelExtents j d, e.covers a = true)
      ↔ d.pre = .model ∧ (j.model.holds (sampleSpan j d.shape) a ∨ j.updatedModel.holds (sampleSpan j d.shape) a) := by
  by_cases hd : d.pre = .model
  · by_cases hs : j.updatedModel.same j.model = true
    · obtain ⟨⟨hu, hm⟩, hb⟩ : (j.updatedModel.present = true ∧ j.model.present = true) ∧ j.updatedModel.base = j.model.base := by
        simpa [Handle.same] using hs
      simp [modelExtents, hd, hs, sampleExtent, Handle.holds, Extent.covers_iff, hu, hm, hb]
    · simp [modelExtents, hd, hs, sampleExtent, or_and_right, exists_or, Handle.holds, Extent.covers_iff]
  · simp [modelExtents, hd]

/-- The extents that a job uses cover exactly the bytes of its buffers (20_memory.md R52). -/
theorem covers_usedExtents (j : JobRecord) (d : Descriptor) (a : Nat) :
    (usedExtents j d).any (fun e => e.covers a) = true ↔ InBuffers j d a := by
  have hm := covers_modelExtents j d a
  have hi := any_ifPresent_covers j.input (sampleSpan j d.shape) a
  have ho := any_ifPresent_covers j.output (if d.pre = .none then sampleSpan j d.shape else outputWords j * 4) a
  simp only [List.any_eq_true, usedExtents, List.mem_append, or_and_right, exists_or]
  exact or_assoc.trans (or_congr hi (or_congr ho hm))

/-! ### The host and MEM -/

/-- When the host may not touch a byte of MEM (20_memory.md R62; log 9). -/
theorem borrowed_iff (s : State) (a : Nat) :
    borrowed s a = true ↔ s.status.busy = true ∧ ∃ d, descriptor s.j.mode = some d ∧ InBuffers s.j d a := by
  cases hd : descriptor s.j.mode with
  | none => simp [borrowed, hd]
  | some d => simp [borrowed, hd, ← covers_usedExtents]

/-- All that a host write of one byte of MEM can do. -/
theorem hostWriteMem_cases (a : Nat) (b : Byte) (s : State) :
    (2 ^ Config.addrW ≤ a ∧ hostWriteMem a b s = .fault (.noSuchAddress a))
      ∨ (a < 2 ^ Config.addrW ∧ borrowed s a = true ∧ hostWriteMem a b s = .refused (.hostTouchesBuffer a))
      ∨ (a < 2 ^ Config.addrW ∧ borrowed s a = false
        ∧ hostWriteMem a b s = .next { s with mem := s.mem.writeByte a b }) := by
  unfold hostWriteMem
  split_ifs with ha hb
  · exact .inl ⟨ha, rfl⟩
  · exact .inr (.inl ⟨by omega, hb, rfl⟩)
  · exact .inr (.inr ⟨by omega, by simpa using hb, rfl⟩)

/-- A host write of MEM does not change which bytes are borrowed. -/
@[simp] theorem borrowed_mem (s : State) (m : Memory) (q : List HostAction) (a : Nat) :
    borrowed { s with mem := m, hostQueue := q } a = borrowed s a := rfl

/-! ### Reset -/

/-- A job that writes nothing leaves nothing open when a reset ends it. -/
theorem interruptedExtents_eq_nil {s : State}
    (h : ∀ d, descriptor s.j.mode = some d → s.status.busy = false ∨ writesMem s.j d = false) :
    interruptedExtents s = [] := by
  cases hd : descriptor s.j.mode with
  | none => simp [interruptedExtents, hd]
  | some d => rcases h d hd with hb | hw <;> simp [interruptedExtents, *]

/-- What a reset leaves open lies in the extents that the running job may write. -/
theorem interruptedExtents_subset {s : State} {d : Descriptor} (hd : descriptor s.j.mode = some d) :
    interruptedExtents s ⊆ writableExtents s.j d := by
  simp only [interruptedExtents, hd]
  split
  · exact fun _ h => h
  · exact List.nil_subset _

end Sys2Proof.Machine
end

