-- ==== Sys2Proof/Laws/State.lean ====
section
/-! SUPPORT. One lemma per field and per update of the state, true by `rfl`: what each operation on the state leaves in each
field. With them no proof unfolds a record update. -/

namespace Sys2Proof.Machine

/-! ### `setCursor` -/

@[simp] theorem setCursor_cfg (i f : Nat) (s : State) : (setCursor i f s).cfg = s.cfg := rfl
@[simp] theorem setCursor_j (i f : Nat) (s : State) : (setCursor i f s).j = s.j := rfl
@[simp] theorem setCursor_seq (i f : Nat) (s : State) : (setCursor i f s).seq = { s.seq with i := i, f := f } := rfl
@[simp] theorem setCursor_enc (i f : Nat) (s : State) : (setCursor i f s).enc = s.enc := rfl
@[simp] theorem setCursor_status (i f : Nat) (s : State) : (setCursor i f s).status = s.status := rfl
@[simp] theorem setCursor_info (i f : Nat) (s : State) : (setCursor i f s).info = s.info := rfl
@[simp] theorem setCursor_mem (i f : Nat) (s : State) : (setCursor i f s).mem = s.mem := rfl
@[simp] theorem setCursor_hostQueue (i f : Nat) (s : State) : (setCursor i f s).hostQueue = s.hostQueue := rfl
@[simp] theorem setCursor_pace (i f : Nat) (s : State) : (setCursor i f s).pace = s.pace := rfl
@[simp] theorem setCursor_freeDraws (i f : Nat) (s : State) : (setCursor i f s).freeDraws = s.freeDraws := rfl

/-! ### `enterPhase` -/

@[simp] theorem enterPhase_cfg (p : Phase) (s : State) : (enterPhase p s).cfg = s.cfg := rfl
@[simp] theorem enterPhase_j (p : Phase) (s : State) : (enterPhase p s).j = s.j := rfl
@[simp] theorem enterPhase_seq (p : Phase) (s : State) : (enterPhase p s).seq = { s.seq with phase := p } := rfl
@[simp] theorem enterPhase_enc (p : Phase) (s : State) : (enterPhase p s).enc = s.enc := rfl
@[simp] theorem enterPhase_status (p : Phase) (s : State) : (enterPhase p s).status = s.status := rfl
@[simp] theorem enterPhase_info (p : Phase) (s : State) : (enterPhase p s).info = s.info := rfl
@[simp] theorem enterPhase_mem (p : Phase) (s : State) : (enterPhase p s).mem = s.mem := rfl
@[simp] theorem enterPhase_hostQueue (p : Phase) (s : State) : (enterPhase p s).hostQueue = s.hostQueue := rfl
@[simp] theorem enterPhase_pace (p : Phase) (s : State) : (enterPhase p s).pace = s.pace := rfl
@[simp] theorem enterPhase_freeDraws (p : Phase) (s : State) : (enterPhase p s).freeDraws = s.freeDraws := rfl

/-! ### `drawFree` -/

@[simp] theorem drawFree_cfg (s : State) : (drawFree s).cfg = s.cfg := rfl
@[simp] theorem drawFree_j (s : State) : (drawFree s).j = s.j := rfl
@[simp] theorem drawFree_seq (s : State) : (drawFree s).seq = s.seq := rfl
@[simp] theorem drawFree_enc (s : State) : (drawFree s).enc = s.enc := rfl
@[simp] theorem drawFree_status (s : State) : (drawFree s).status = s.status := rfl
@[simp] theorem drawFree_info (s : State) : (drawFree s).info = s.info := rfl
@[simp] theorem drawFree_mem (s : State) : (drawFree s).mem = s.mem := rfl
@[simp] theorem drawFree_hostQueue (s : State) : (drawFree s).hostQueue = s.hostQueue := rfl
@[simp] theorem drawFree_pace (s : State) : (drawFree s).pace = s.pace := rfl
@[simp] theorem drawFree_freeDraws (s : State) : (drawFree s).freeDraws = s.freeDraws + 1 := rfl

/-! ### `finishJob` -/

@[simp] theorem finishJob_cfg (s : State) : (finishJob s).cfg = s.cfg := rfl
@[simp] theorem finishJob_j (s : State) : (finishJob s).j = s.j := rfl
@[simp] theorem finishJob_seq (s : State) : (finishJob s).seq = { s.seq with phase := .done } := rfl
@[simp] theorem finishJob_enc (s : State) : (finishJob s).enc = s.enc := rfl
@[simp] theorem finishJob_status (s : State) :
    (finishJob s).status
      = { s.status with busy := false, done := true } := rfl
@[simp] theorem finishJob_info (s : State) : (finishJob s).info = s.info := rfl
@[simp] theorem finishJob_mem (s : State) : (finishJob s).mem = s.mem := rfl
@[simp] theorem finishJob_hostQueue (s : State) : (finishJob s).hostQueue = s.hostQueue := rfl
@[simp] theorem finishJob_pace (s : State) : (finishJob s).pace = s.pace := rfl
@[simp] theorem finishJob_freeDraws (s : State) : (finishJob s).freeDraws = s.freeDraws := rfl

/-! ### `raiseError` -/

@[simp] theorem raiseError_cfg (e : JobError) (s : State) : (raiseError e s).cfg = s.cfg := rfl
@[simp] theorem raiseError_j (e : JobError) (s : State) : (raiseError e s).j = s.j := rfl
@[simp] theorem raiseError_seq (e : JobError) (s : State) : (raiseError e s).seq = { s.seq with phase := .done } := rfl
@[simp] theorem raiseError_enc (e : JobError) (s : State) : (raiseError e s).enc = s.enc := rfl
@[simp] theorem raiseError_status (e : JobError) (s : State) :
    (raiseError e s).status
      = { busy := false, done := true, kind := e.kind, retval := e.retval } := rfl
@[simp] theorem raiseError_info (e : JobError) (s : State) :
    (raiseError e s).info
      = { s.info with cmpErr := e.errBits s.info.cmpErr, cmpSize := 0 } := rfl
@[simp] theorem raiseError_mem (e : JobError) (s : State) : (raiseError e s).mem = s.mem := rfl
@[simp] theorem raiseError_hostQueue (e : JobError) (s : State) : (raiseError e s).hostQueue = s.hostQueue := rfl
@[simp] theorem raiseError_pace (e : JobError) (s : State) : (raiseError e s).pace = s.pace := rfl
@[simp] theorem raiseError_freeDraws (e : JobError) (s : State) : (raiseError e s).freeDraws = s.freeDraws := rfl

/-! ### `succeedJob` -/

@[simp] theorem succeedJob_cfg (n : Nat) (s : State) : (succeedJob n s).cfg = s.cfg := rfl
@[simp] theorem succeedJob_j (n : Nat) (s : State) : (succeedJob n s).j = s.j := rfl
@[simp] theorem succeedJob_seq (n : Nat) (s : State) : (succeedJob n s).seq = { s.seq with phase := .done } := rfl
@[simp] theorem succeedJob_enc (n : Nat) (s : State) : (succeedJob n s).enc = s.enc := rfl
@[simp] theorem succeedJob_status (n : Nat) (s : State) :
    (succeedJob n s).status
      = { busy := false, done := true, kind := .ok, retval := 0 } := rfl
@[simp] theorem succeedJob_info (n : Nat) (s : State) :
    (succeedJob n s).info
      = { s.info with cmpSize := BitVec.ofNat 32 n } := rfl
@[simp] theorem succeedJob_mem (n : Nat) (s : State) : (succeedJob n s).mem = s.mem := rfl
@[simp] theorem succeedJob_hostQueue (n : Nat) (s : State) : (succeedJob n s).hostQueue = s.hostQueue := rfl
@[simp] theorem succeedJob_pace (n : Nat) (s : State) : (succeedJob n s).pace = s.pace := rfl
@[simp] theorem succeedJob_freeDraws (n : Nat) (s : State) : (succeedJob n s).freeDraws = s.freeDraws := rfl

/-! ### `abandonOutput` -/

@[simp] theorem abandonOutput_cfg (s : State) : (abandonOutput s).cfg = s.cfg := rfl
@[simp] theorem abandonOutput_j (s : State) : (abandonOutput s).j = s.j := rfl
@[simp] theorem abandonOutput_seq (s : State) : (abandonOutput s).seq = s.seq := rfl
@[simp] theorem abandonOutput_enc (s : State) : (abandonOutput s).enc = s.enc := rfl
@[simp] theorem abandonOutput_status (s : State) : (abandonOutput s).status = s.status := rfl
@[simp] theorem abandonOutput_info (s : State) : (abandonOutput s).info = s.info := rfl
@[simp] theorem abandonOutput_mem (s : State) :
    (abandonOutput s).mem
      = s.mem.fillFree s.freeDraws s.j.output.base.toNat (outputWords s.j * 4) := rfl
@[simp] theorem abandonOutput_hostQueue (s : State) : (abandonOutput s).hostQueue = s.hostQueue := rfl
@[simp] theorem abandonOutput_pace (s : State) : (abandonOutput s).pace = s.pace := rfl
@[simp] theorem abandonOutput_freeDraws (s : State) : (abandonOutput s).freeDraws = s.freeDraws + 1 := rfl

/-! ### `setupEncoders` -/

@[simp] theorem setupEncoders_cfg (esc : Escape) (s : State) : (setupEncoders esc s).cfg = s.cfg := rfl
@[simp] theorem setupEncoders_j (esc : Escape) (s : State) : (setupEncoders esc s).j = s.j := rfl
@[simp] theorem setupEncoders_seq (esc : Escape) (s : State) : (setupEncoders esc s).seq = s.seq := rfl
@[simp] theorem setupEncoders_enc (esc : Escape) (s : State) :
    (setupEncoders esc s).enc
      = { streamLen := 0, pri := encoderSetup s.j.golombPar.toNat s.j.spill.toNat esc,
          sec := encoderSetup golombParExposureFlags s.j.spill.toNat esc } := rfl
@[simp] theorem setupEncoders_status (esc : Escape) (s : State) : (setupEncoders esc s).status = s.status := rfl
@[simp] theorem setupEncoders_info (esc : Escape) (s : State) : (setupEncoders esc s).info = s.info := rfl
@[simp] theorem setupEncoders_mem (esc : Escape) (s : State) : (setupEncoders esc s).mem = s.mem := rfl
@[simp] theorem setupEncoders_hostQueue (esc : Escape) (s : State) :
    (setupEncoders esc s).hostQueue
      = s.hostQueue := rfl
@[simp] theorem setupEncoders_pace (esc : Escape) (s : State) : (setupEncoders esc s).pace = s.pace := rfl
@[simp] theorem setupEncoders_freeDraws (esc : Escape) (s : State) :
    (setupEncoders esc s).freeDraws
      = s.freeDraws := rfl

/-! ### `padPhase` -/

@[simp] theorem padPhase_cfg (s : State) : (padPhase s).cfg = s.cfg := rfl
@[simp] theorem padPhase_j (s : State) : (padPhase s).j = s.j := rfl
@[simp] theorem padPhase_seq (s : State) : (padPhase s).seq = { s.seq with phase := .pad } := rfl
@[simp] theorem padPhase_enc (s : State) : (padPhase s).enc = s.enc := rfl
@[simp] theorem padPhase_status (s : State) : (padPhase s).status = s.status := rfl
@[simp] theorem padPhase_info (s : State) : (padPhase s).info = s.info := rfl
@[simp] theorem padPhase_mem (s : State) : (padPhase s).mem = padMemory s.j s.enc.streamLen s.mem := rfl
@[simp] theorem padPhase_hostQueue (s : State) : (padPhase s).hostQueue = s.hostQueue := rfl
@[simp] theorem padPhase_pace (s : State) : (padPhase s).pace = s.pace := rfl
@[simp] theorem padPhase_freeDraws (s : State) : (padPhase s).freeDraws = s.freeDraws := rfl

/-! ### `prePhase` -/

@[simp] theorem prePhase_cfg (sh : Shape) (pre : Pre) (s : State) : (prePhase sh pre s).cfg = s.cfg := rfl
@[simp] theorem prePhase_j (sh : Shape) (pre : Pre) (s : State) : (prePhase sh pre s).j = s.j := rfl
@[simp] theorem prePhase_seq (sh : Shape) (pre : Pre) (s : State) :
    (prePhase sh pre s).seq
      = { phase := .pre, i := preCursor s.j pre, f := (shapeFields sh).length - 1 } := rfl
@[simp] theorem prePhase_enc (sh : Shape) (pre : Pre) (s : State) : (prePhase sh pre s).enc = s.enc := rfl
@[simp] theorem prePhase_status (sh : Shape) (pre : Pre) (s : State) : (prePhase sh pre s).status = s.status := rfl
@[simp] theorem prePhase_info (sh : Shape) (pre : Pre) (s : State) : (prePhase sh pre s).info = s.info := rfl
@[simp] theorem prePhase_mem (sh : Shape) (pre : Pre) (s : State) :
    (prePhase sh pre s).mem
      = preMemory s.j sh pre s.mem := rfl
@[simp] theorem prePhase_hostQueue (sh : Shape) (pre : Pre) (s : State) :
    (prePhase sh pre s).hostQueue
      = s.hostQueue := rfl
@[simp] theorem prePhase_pace (sh : Shape) (pre : Pre) (s : State) : (prePhase sh pre s).pace = s.pace := rfl
@[simp] theorem prePhase_freeDraws (sh : Shape) (pre : Pre) (s : State) :
    (prePhase sh pre s).freeDraws
      = s.freeDraws := rfl

/-! ### `mapPhase` -/

@[simp] theorem mapPhase_cfg (sh : Shape) (esc : Escape) (s : State) : (mapPhase sh esc s).cfg = s.cfg := rfl
@[simp] theorem mapPhase_j (sh : Shape) (esc : Escape) (s : State) : (mapPhase sh esc s).j = s.j := rfl
@[simp] theorem mapPhase_seq (sh : Shape) (esc : Escape) (s : State) :
    (mapPhase sh esc s).seq
      = { phase := .map, i := s.j.samples.toNat - 1, f := (shapeFields sh).length - 1 } := rfl
@[simp] theorem mapPhase_enc (sh : Shape) (esc : Escape) (s : State) : (mapPhase sh esc s).enc = s.enc := rfl
@[simp] theorem mapPhase_status (sh : Shape) (esc : Escape) (s : State) : (mapPhase sh esc s).status = s.status := rfl
@[simp] theorem mapPhase_info (sh : Shape) (esc : Escape) (s : State) : (mapPhase sh esc s).info = s.info := rfl
@[simp] theorem mapPhase_mem (sh : Shape) (esc : Escape) (s : State) :
    (mapPhase sh esc s).mem
      = mapMemory s.j sh esc s.mem := rfl
@[simp] theorem mapPhase_hostQueue (sh : Shape) (esc : Escape) (s : State) :
    (mapPhase sh esc s).hostQueue
      = s.hostQueue := rfl
@[simp] theorem mapPhase_pace (sh : Shape) (esc : Escape) (s : State) : (mapPhase sh esc s).pace = s.pace := rfl
@[simp] theorem mapPhase_freeDraws (sh : Shape) (esc : Escape) (s : State) :
    (mapPhase sh esc s).freeDraws
      = s.freeDraws := rfl

/-! ### `latchJob` -/

@[simp] theorem latchJob_cfg (j : JobRecord) (s : State) : (latchJob j s).cfg = s.cfg := rfl
@[simp] theorem latchJob_j (j : JobRecord) (s : State) : (latchJob j s).j = j := rfl
@[simp] theorem latchJob_seq (j : JobRecord) (s : State) : (latchJob j s).seq = { s.seq with phase := .validate } := rfl
@[simp] theorem latchJob_enc (j : JobRecord) (s : State) : (latchJob j s).enc = { s.enc with streamLen := 0 } := rfl
@[simp] theorem latchJob_status (j : JobRecord) (s : State) :
    (latchJob j s).status
      = { busy := true, done := false, kind := .ok, retval := 0 } := rfl
@[simp] theorem latchJob_info (j : JobRecord) (s : State) :
    (latchJob j s).info
      = { cmpErr := 0, cmpSize := 0, cmpModeUsed := j.mode, modelValueUsed := j.modelValue, golombParUsed := j.golombPar,
          spillUsed := j.spill, roundUsed := j.round, samplesUsed := j.samples } := rfl
@[simp] theorem latchJob_mem (j : JobRecord) (s : State) : (latchJob j s).mem = s.mem := rfl
@[simp] theorem latchJob_hostQueue (j : JobRecord) (s : State) : (latchJob j s).hostQueue = s.hostQueue := rfl
@[simp] theorem latchJob_pace (j : JobRecord) (s : State) : (latchJob j s).pace = s.pace := rfl
@[simp] theorem latchJob_freeDraws (j : JobRecord) (s : State) : (latchJob j s).freeDraws = s.freeDraws + 1 := rfl

/-! ### `depositBits` -/

@[simp] theorem depositBits_cfg (s : State) : (depositBits s).cfg = s.cfg := rfl
@[simp] theorem depositBits_j (s : State) : (depositBits s).j = s.j := rfl
@[simp] theorem depositBits_seq (s : State) : (depositBits s).seq = s.seq := rfl
@[simp] theorem depositBits_enc (s : State) : (depositBits s).enc = s.enc := rfl
@[simp] theorem depositBits_status (s : State) : (depositBits s).status = s.status := rfl
@[simp] theorem depositBits_info (s : State) : (depositBits s).info = { s.info with cmpErr := validateBits s.j } := rfl
@[simp] theorem depositBits_mem (s : State) : (depositBits s).mem = s.mem := rfl
@[simp] theorem depositBits_hostQueue (s : State) : (depositBits s).hostQueue = s.hostQueue := rfl
@[simp] theorem depositBits_pace (s : State) : (depositBits s).pace = s.pace := rfl
@[simp] theorem depositBits_freeDraws (s : State) : (depositBits s).freeDraws = s.freeDraws := rfl

/-! ### `completeCompressed` -/

@[simp] theorem completeCompressed_cfg (s : State) : (completeCompressed s).cfg = s.cfg := rfl
@[simp] theorem completeCompressed_j (s : State) : (completeCompressed s).j = s.j := rfl
@[simp] theorem completeCompressed_seq (s : State) : (completeCompressed s).seq = { s.seq with phase := .done } := rfl
@[simp] theorem completeCompressed_enc (s : State) : (completeCompressed s).enc = s.enc := rfl
@[simp] theorem completeCompressed_status (s : State) :
    (completeCompressed s).status
      = { busy := false, done := true, kind := .ok, retval := 0 } := rfl
@[simp] theorem completeCompressed_info (s : State) :
    (completeCompressed s).info
      = { s.info with cmpSize := BitVec.ofNat 32 s.enc.streamLen } := rfl
@[simp] theorem completeCompressed_mem (s : State) :
    (completeCompressed s).mem
      = padMemory s.j s.enc.streamLen s.mem := rfl
@[simp] theorem completeCompressed_hostQueue (s : State) : (completeCompressed s).hostQueue = s.hostQueue := rfl
@[simp] theorem completeCompressed_pace (s : State) : (completeCompressed s).pace = s.pace := rfl
@[simp] theorem completeCompressed_freeDraws (s : State) : (completeCompressed s).freeDraws = s.freeDraws := rfl

/-! ### `hostWriteReg` -/

@[simp] theorem hostWriteReg_cfg (offset : Nat) (v : Word) (s : State) :
    (hostWriteReg offset v s).cfg
      = writeCfg offset v s.cfg := rfl
@[simp] theorem hostWriteReg_j (offset : Nat) (v : Word) (s : State) : (hostWriteReg offset v s).j = s.j := rfl
@[simp] theorem hostWriteReg_seq (offset : Nat) (v : Word) (s : State) : (hostWriteReg offset v s).seq = s.seq := rfl
@[simp] theorem hostWriteReg_enc (offset : Nat) (v : Word) (s : State) : (hostWriteReg offset v s).enc = s.enc := rfl
@[simp] theorem hostWriteReg_status (offset : Nat) (v : Word) (s : State) :
    (hostWriteReg offset v s).status
      = s.status := rfl
@[simp] theorem hostWriteReg_info (offset : Nat) (v : Word) (s : State) : (hostWriteReg offset v s).info = s.info := rfl
@[simp] theorem hostWriteReg_mem (offset : Nat) (v : Word) (s : State) : (hostWriteReg offset v s).mem = s.mem := rfl
@[simp] theorem hostWriteReg_hostQueue (offset : Nat) (v : Word) (s : State) :
    (hostWriteReg offset v s).hostQueue
      = s.hostQueue := rfl
@[simp] theorem hostWriteReg_pace (offset : Nat) (v : Word) (s : State) : (hostWriteReg offset v s).pace = s.pace := rfl
@[simp] theorem hostWriteReg_freeDraws (offset : Nat) (v : Word) (s : State) :
    (hostWriteReg offset v s).freeDraws
      = s.freeDraws := rfl

/-! ### The next state of a host move -/

@[simp] theorem resetCore_cfg (s : State) : (resetCore s).cfg = .zero := rfl
@[simp] theorem resetCore_status (s : State) : (resetCore s).status = State.reset.status := rfl
@[simp] theorem resetCore_info (s : State) : (resetCore s).info = State.reset.info := rfl
@[simp] theorem resetCore_seq (s : State) : (resetCore s).seq = State.reset.seq := rfl
@[simp] theorem resetCore_enc (s : State) : (resetCore s).enc = State.reset.enc := rfl
@[simp] theorem resetCore_j (s : State) : (resetCore s).j = .zero := rfl
@[simp] theorem resetCore_hostQueue (s : State) : (resetCore s).hostQueue = s.hostQueue := rfl
@[simp] theorem resetCore_pace (s : State) : (resetCore s).pace = s.pace := rfl
@[simp] theorem resetCore_freeDraws (s : State) : (resetCore s).freeDraws = s.freeDraws + 1 := rfl

end Sys2Proof.Machine
end

