-- ==== Sys2Proof/Laws/Job.lean ====
section
/-! SUPPORT. One lemma per shared operation of a job that says once everything it can do: sequencing, `Put`, the encode loop,
the validator's verdict, and what `exec` answers. Later proofs cite these and do not unfold the operations. -/

namespace Sys2Proof.Machine

/-! ### Answers and sequencing -/

@[simp] theorem andThen_next (s : State) (k : State → StepResult) : andThen (.next s) k = k s := rfl
@[simp] theorem andThen_fault (e : Fault) (k : State → StepResult) : andThen (.fault e) k = .fault e := rfl
@[simp] theorem andThen_refused (e : Refusal) (k : State → StepResult) : andThen (.refused e) k = .refused e := rfl
@[simp] theorem Run.andThen_go (s : State) (k : State → Run) : (Run.go s).andThen k = k s := rfl
@[simp] theorem Run.andThen_stop (e : JobError) (s : State) (k : State → Run) : (Run.stop e s).andThen k = .stop e s := rfl
@[simp] theorem afterEncode_go (s : State) (k : State → StepResult) : afterEncode (.go s) k = k s := rfl
@[simp] theorem afterEncode_stop (e : JobError) (s : State) (k : State → StepResult) :
    afterEncode (.stop e s) k = .next (raiseError e (abandonOutput s)) := rfl
@[simp] theorem runEach_nil {α : Type} (body : α → State → Run) (s : State) : runEach body [] s = .go s := rfl
@[simp] theorem runEach_cons {α : Type} (body : α → State → Run) (x : α) (rest : List α) (s : State) :
    runEach body (x :: rest) s = (body x s).andThen (runEach body rest) := rfl

theorem Run.andThen_assoc (r : Run) (k l : State → Run) : (r.andThen k).andThen l = r.andThen (fun s => (k s).andThen l) := by
  cases r <;> rfl

/-- The loop over a list in two parts is the loop over the first and then, unless it stops, over the second. -/
theorem runEach_append {α : Type} (body : α → State → Run) (xs ys : List α) (s : State) :
    runEach body (xs ++ ys) s = (runEach body xs s).andThen (runEach body ys) := by
  induction xs generalizing s with
  | nil => rfl
  | cons x rest ih =>
    simp only [List.cons_append, runEach_cons, Run.andThen_assoc]
    congr 1
    funext t
    exact ih t

/-- A property of the state that a run ends in, whether it goes on or stops. -/
def Run.Ends (P : State → Prop) : Run → Prop
  | .go s => P s
  | .stop _ s => P s

theorem Run.Ends.mono {P Q : State → Prop} {r : Run} (h : r.Ends P) (hpq : ∀ s, P s → Q s) : r.Ends Q := by
  cases r <;> exact hpq _ h

theorem Run.Ends.andThen {P : State → Prop} {r : Run} {k : State → Run} (h : r.Ends P)
    (hk : ∀ s, P s → (k s).Ends P) : (r.andThen k).Ends P := by
  cases r with
  | go s => exact hk s h
  | stop e s => exact h

/-- What every body of a loop keeps, the loop keeps. -/
theorem runEach_ends {α : Type} {P : State → Prop} {body : α → State → Run} (hb : ∀ x s, P s → (body x s).Ends P)
    (xs : List α) {s : State} (hs : P s) : (runEach body xs s).Ends P := by
  induction xs generalizing s with
  | nil => exact hs
  | cons x rest ih => exact (hb x s hs).andThen (fun t ht => ih ht)

/-! ### `Put` and the encode loop -/

/-- All that `Put` can do (44_bitpacker.md R217, R218, R220). -/
theorem put_eq (v n : Nat) (s : State) :
    put v n s
      = if n = 0 ∨ 32 < n then .go s
        else if capacity s.j < s.enc.streamLen + n then .stop .smallBuffer s
        else .go { s with
          mem := (putNBits32 s.j.output (capacity s.j) (BitVec.ofNat 32 v) s.enc.streamLen n s.mem).2
          enc := { s.enc with streamLen := s.enc.streamLen + n } } := by
  unfold put putNBits32
  split_ifs <;> rfl

/-- What the ENCODE phase keeps of the state `s₀` it starts from: every register but the bit cursor and SEQ, the cursor within
the capacity, and the canonical form of MEM. -/
structure EncodeFrame (s₀ s : State) : Prop where
  cfg : s.cfg = s₀.cfg
  j : s.j = s₀.j
  phase : s.seq.phase = s₀.seq.phase
  primary : s.enc.pri = s₀.enc.pri
  secondary : s.enc.sec = s₀.enc.sec
  status : s.status = s₀.status
  info : s.info = s₀.info
  hostQueue : s.hostQueue = s₀.hostQueue
  pace : s.pace = s₀.pace
  freeDraws : s.freeDraws = s₀.freeDraws
  cursor : s.enc.streamLen ≤ capacity s.j
  memory : s₀.mem.wf = true → s.mem.wf = true

theorem EncodeFrame.refl {s : State} (h : s.enc.streamLen ≤ capacity s.j) : EncodeFrame s s :=
  ⟨rfl, rfl, rfl, rfl, rfl, rfl, rfl, rfl, rfl, rfl, h, id⟩

theorem put_frame {s₀ s : State} (v n : Nat) (h : EncodeFrame s₀ s) : (put v n s).Ends (EncodeFrame s₀) := by
  rw [put_eq]
  split_ifs with h₁ h₂
  · exact h
  · exact h
  · exact { h with
      cursor := Nat.le_of_not_lt h₂
      memory := fun hm => putNBits32_wf _ _ _ _ _ (h.memory hm) }

theorem emitNormal_frame {s₀ s : State} (u : Nat) (e : EncSetup) (h : EncodeFrame s₀ s) :
    (emitNormal u e s).Ends (EncodeFrame s₀) := by
  unfold emitNormal
  split
  · exact h
  · exact put_frame _ _ h

theorem encodeValue_frame {s₀ s : State} (u w : Nat) (e : EncSetup) (h : EncodeFrame s₀ s) :
    (encodeValue u w e s).Ends (EncodeFrame s₀) := by
  unfold encodeValue
  split
  · split
    · exact (emitNormal_frame _ _ h).andThen (fun _ ht => put_frame _ _ ht)
    · exact (emitNormal_frame _ _ h).andThen (fun _ ht => put_frame _ _ ht)
  · exact emitNormal_frame _ _ h

theorem encodeField_frame {s₀ s : State} (sh : Shape) (i fi : Nat) (f : Field) (h : EncodeFrame s₀ s) :
    (encodeField sh i fi f s).Ends (EncodeFrame s₀) :=
  encodeValue_frame _ _ _ { h with }

theorem encodeAll_frame {s₀ s : State} (sh : Shape) (h : EncodeFrame s₀ s) :
    (encodeAll sh s).Ends (EncodeFrame s₀) :=
  runEach_ends (P := EncodeFrame s₀)
    (fun i _ hs => runEach_ends (P := EncodeFrame s₀) (fun p _ ht => encodeField_frame sh i p.2 p.1 ht) _ hs) _ h

/-- Whatever the ENCODE phase meets, it ends in a state that keeps the frame of its start. -/
theorem encodePhase_frame (sh : Shape) (esc : Escape) (s : State) :
    (encodePhase sh esc s).Ends (EncodeFrame (setupEncoders esc (enterPhase .encode s))) :=
  encodeAll_frame sh (EncodeFrame.refl (Nat.zero_le _))

/-! ### The validator's verdict and the whole job -/

/-- All that the VALIDATE phase can lead to (45_dispatcher.md R230, 70 R335 to R338). -/
theorem validateThen_cases (d : Descriptor) (k : State → StepResult) (s : State) :
    (0 < validateCount s.j
      ∧ validateThen d k s = .next (raiseError (.config (validateCount s.j)) (depositBits s))) ∨
    (validateCount s.j = 0 ∧ s.j.samples.toNat = 0 ∧ validateThen d k s = .next (finishJob (depositBits s))) ∨
    (∃ r, validateCount s.j = 0 ∧ 0 < s.j.samples.toNat ∧ launchRefusal s.j d = some r
      ∧ validateThen d k s = .refused r) ∨
    (validateCount s.j = 0 ∧ 0 < s.j.samples.toNat ∧ launchRefusal s.j d = none
      ∧ validateThen d k s = k (depositBits s)) := by
  unfold validateThen
  split_ifs with h₁ h₂
  · exact .inl ⟨h₁, rfl⟩
  · exact .inr (.inl ⟨by omega, h₂, rfl⟩)
  · cases hr : launchRefusal s.j d with
    | some r => exact .inr (.inr (.inl ⟨r, by omega, by omega, rfl, rfl⟩))
    | none => exact .inr (.inr (.inr ⟨by omega, by omega, rfl, rfl⟩))

/-- What `exec` runs: the job scheme that the descriptor of the instruction's mode names (45_dispatcher.md R231, R233). -/
theorem exec_eq (i : Instr) (s : State) :
    ∃ d, descriptor (jobOf i).mode = some d ∧
      ((d.pre = .none ∧ d.esc = none ∧ exec i s = rawJob (jobOf i) d.shape s) ∨
        ∃ e, d.pre ≠ .none ∧ d.esc = some e ∧ exec i s = compressedJob (jobOf i) d.shape d.pre e s) := by
  cases i with
  | raw o => exact ⟨_, rfl, .inl ⟨rfl, rfl, rfl⟩⟩
  | rawSFx o => exact ⟨_, rfl, .inl ⟨rfl, rfl, rfl⟩⟩
  | _ o => exact ⟨_, rfl, .inr ⟨_, fun h => Pre.noConfusion h, rfl, rfl⟩⟩

/-- No instruction faults (93, end of part 1). -/
theorem validateThen_no_fault (d : Descriptor) {k : State → StepResult} (hk : ∀ s f, k s ≠ .fault f) (s : State) (f : Fault) :
    validateThen d k s ≠ .fault f := by
  rcases validateThen_cases d k s with ⟨_, h⟩ | ⟨_, _, h⟩ | ⟨r, _, _, _, h⟩ | ⟨_, _, _, h⟩ <;> rw [h]
  · simp
  · simp
  · simp
  · exact hk _ _

end Sys2Proof.Machine
end

