-- ==== Sys2Proof/Laws/PerInstr.lean ====
section
/-! SUPPORT. Statements about every instruction as syntax, one lemma per constructor (30_encoding.md R80, R82). -/

namespace Sys2Proof.Laws.ModeWord

/-- The encoding of an instruction has the twelve words of the job format, the first is its mode code, and the row of the mode
table with that code rebuilds the instruction from its operands. -/
def Statement (i : Instr) : Prop :=
  (encode i).length = 12 ∧ (encode i).head? = some i.modeCode
    ∧ (modeRow i.modeCode).map (fun r => r.build i.operands) = some i

theorem raw (o : JobOperands) : Statement (.raw o) := ⟨rfl, rfl, rfl⟩
theorem modelZero (o : JobOperands) : Statement (.modelZero o) := ⟨rfl, rfl, rfl⟩
theorem diffZero (o : JobOperands) : Statement (.diffZero o) := ⟨rfl, rfl, rfl⟩
theorem modelMulti (o : JobOperands) : Statement (.modelMulti o) := ⟨rfl, rfl, rfl⟩
theorem diffMulti (o : JobOperands) : Statement (.diffMulti o) := ⟨rfl, rfl, rfl⟩
theorem rawSFx (o : JobOperands) : Statement (.rawSFx o) := ⟨rfl, rfl, rfl⟩
theorem modelZeroSFx (o : JobOperands) : Statement (.modelZeroSFx o) := ⟨rfl, rfl, rfl⟩
theorem diffZeroSFx (o : JobOperands) : Statement (.diffZeroSFx o) := ⟨rfl, rfl, rfl⟩
theorem modelMultiSFx (o : JobOperands) : Statement (.modelMultiSFx o) := ⟨rfl, rfl, rfl⟩
theorem diffMultiSFx (o : JobOperands) : Statement (.diffMultiSFx o) := ⟨rfl, rfl, rfl⟩
theorem modelZeroSFxEfx (o : JobOperands) : Statement (.modelZeroSFxEfx o) := ⟨rfl, rfl, rfl⟩
theorem diffZeroSFxEfx (o : JobOperands) : Statement (.diffZeroSFxEfx o) := ⟨rfl, rfl, rfl⟩
theorem modelMultiSFxEfx (o : JobOperands) : Statement (.modelMultiSFxEfx o) := ⟨rfl, rfl, rfl⟩
theorem diffMultiSFxEfx (o : JobOperands) : Statement (.diffMultiSFxEfx o) := ⟨rfl, rfl, rfl⟩
theorem modelZeroSFxNcob (o : JobOperands) : Statement (.modelZeroSFxNcob o) := ⟨rfl, rfl, rfl⟩
theorem diffZeroSFxNcob (o : JobOperands) : Statement (.diffZeroSFxNcob o) := ⟨rfl, rfl, rfl⟩
theorem modelMultiSFxNcob (o : JobOperands) : Statement (.modelMultiSFxNcob o) := ⟨rfl, rfl, rfl⟩
theorem diffMultiSFxNcob (o : JobOperands) : Statement (.diffMultiSFxNcob o) := ⟨rfl, rfl, rfl⟩
theorem modelZeroSFxEfxNcobEcob (o : JobOperands) : Statement (.modelZeroSFxEfxNcobEcob o) := ⟨rfl, rfl, rfl⟩
theorem diffZeroSFxEfxNcobEcob (o : JobOperands) : Statement (.diffZeroSFxEfxNcobEcob o) := ⟨rfl, rfl, rfl⟩
theorem modelMultiSFxEfxNcobEcob (o : JobOperands) : Statement (.modelMultiSFxEfxNcobEcob o) := ⟨rfl, rfl, rfl⟩
theorem diffMultiSFxEfxNcobEcob (o : JobOperands) : Statement (.diffMultiSFxEfxNcobEcob o) := ⟨rfl, rfl, rfl⟩
theorem modelZeroFFx (o : JobOperands) : Statement (.modelZeroFFx o) := ⟨rfl, rfl, rfl⟩
theorem diffZeroFFx (o : JobOperands) : Statement (.diffZeroFFx o) := ⟨rfl, rfl, rfl⟩
theorem modelMultiFFx (o : JobOperands) : Statement (.modelMultiFFx o) := ⟨rfl, rfl, rfl⟩
theorem diffMultiFFx (o : JobOperands) : Statement (.diffMultiFFx o) := ⟨rfl, rfl, rfl⟩
theorem modelZero32 (o : JobOperands) : Statement (.modelZero32 o) := ⟨rfl, rfl, rfl⟩
theorem diffZero32 (o : JobOperands) : Statement (.diffZero32 o) := ⟨rfl, rfl, rfl⟩
theorem modelMulti32 (o : JobOperands) : Statement (.modelMulti32 o) := ⟨rfl, rfl, rfl⟩
theorem diffMulti32 (o : JobOperands) : Statement (.diffMulti32 o) := ⟨rfl, rfl, rfl⟩

end Sys2Proof.Laws.ModeWord
end

