-- ==== Sys2Proof/Tests/Slice0.lean ====
section
/-! SUPPORT. Tests. Expected values are the spec's own: the worked examples of 45_dispatcher.md R240 to R269 and the
vectors of 95_test_vectors.md, never the model's answers. The last section shows, for each statement of the certificates that
has hypotheses, a concrete state and operands that meet them. -/

namespace Sys2Proof.Tests

open Sys2Proof.Machine

-- One theorem after the other: so many kernel evaluations at once would each hold a thread.
set_option Elab.async false

/-! ### Helpers -/

/-- The `n` bytes of a number, the most significant first. -/
def bigEndian (n v : Nat) : List Byte :=
  (List.range n).map (fun k => BitVec.ofNat 8 (v / 256 ^ (n - 1 - k)))

/-- Cells that hold bytes from an address on. -/
def cellsFrom (base : Nat) (bytes : List Byte) : List Host.Cell :=
  bytes.zipIdx.map (fun p => (base + p.2, p.1))

/-- The packed bytes of samples (20_memory.md R53). -/
def packed (sh : Shape) (samples : List (List Nat)) : List Byte :=
  samples.flatMap (fun x => ((shapeFields sh).zip x).flatMap (fun p => bigEndian p.1.width.bytes p.2))

/-- A launch state: input at 0x1000, 32 bytes of ones at 0x2000 for the output, model at 0x3000. -/
def launch (sh : Shape) (input model : List (List Nat)) : State :=
  { State.reset with
    mem :=
      { cells := cellsFrom 0x1000 (packed sh input) ++ cellsFrom 0x2000 (List.replicate 32 0xFF#8)
          ++ cellsFrom 0x3000 (packed sh model) } }

/-- Operands with the input at 0x1000, the output at 0x2000 and, when `present` is 0xB, the model at 0x3000. -/
def ops (golombPar spill modelValue round samples bufferLength : Nat) (present : Word) : JobOperands :=
  { golombPar := BitVec.ofNat 32 golombPar, spill := BitVec.ofNat 32 spill, modelValue := BitVec.ofNat 32 modelValue
    round := BitVec.ofNat 32 round, samples := BitVec.ofNat 32 samples, bufferLength := BitVec.ofNat 32 bufferLength
    cfgPresent := present
    inputBase := 0x1000, modelBase := 0x3000, updatedModelBase := 0, outputBase := 0x2000 }

/-- The samples of a buffer. -/
def samplesAt (s : State) (sh : Shape) (base : Word) (n : Nat) : List (List Nat) :=
  (List.range n).map
    (fun i => (shapeFields sh).map (fun f => (fieldRead s.mem { present := true, base := base } sh i f).toNat))

/-- The first output words. -/
def outputAt (s : State) (n : Nat) : List Nat :=
  (List.range n).map (fun w => (outRead s.mem { present := true, base := 0x2000 } w).toNat)

/-- Look at the next state of a step. -/
def seen {α : Type} (look : State → α) (r : StepResult) : Option α :=
  match r with
  | .next s => some (look s)
  | _ => none

/-- The kind and the size of the finished job, and its first output words. -/
def stream (n : Nat) (s : State) : JobKind × Nat × List Nat :=
  (s.status.kind, s.info.cmpSize.toNat, outputAt s n)

/-- The input buffer and the model buffer after a job. -/
def buffers (sh : Shape) (n : Nat) (s : State) : List (List Nat) × List (List Nat) :=
  (samplesAt s sh 0x1000 n, samplesAt s sh 0x3000 n)

/-! ### One worked example per mode (45_dispatcher.md R240 to R269) -/

/-- R240. -/
theorem test_raw_stream : seen (stream 2) (exec (.raw (ops 0 0 0 0 3 3 0x9)) (launch .u16 [[258], [772], [1286]] []))
    = some (.ok, 48, [0x01020304, 0x0506FFFF]) := by decide +kernel

/-- R241. -/
theorem test_modelZero_stream :
    seen (stream 1) (exec (.modelZero (ops 3 16 8 0 3 16 0xB)) (launch .u16 [[100], [98], [5]] [[95], [98], [300]]))
    = some (.ok, 27, [0xED0049C0]) := by decide +kernel

/-- R241. -/
theorem test_modelZero_buffers :
    seen (buffers .u16 3) (exec (.modelZero (ops 3 16 8 0 3 16 0xB)) (launch .u16 [[100], [98], [5]] [[95], [98], [300]]))
    = some ([[11], [1], [590]], [[97], [98], [152]]) := by decide +kernel

/-- R242. -/
theorem test_diffZero_stream :
    seen (stream 1) (exec (.diffZero (ops 4 8 0 0 4 16 0x9)) (launch .u16 [[10], [12], [9], [9]] []))
    = some (.ok, 30, [0x0002B344]) := by decide +kernel

/-- R242. -/
theorem test_diffZero_mapped :
    seen (fun s => samplesAt s .u16 0x1000 4) (exec (.diffZero (ops 4 8 0 0 4 16 0x9)) (launch .u16 [[10], [12], [9], [9]] []))
    = some [[21], [5], [6], [1]] := by decide +kernel

/-- R243. -/
theorem test_modelMulti_stream :
    seen (stream 1) (exec (.modelMulti (ops 3 16 8 0 3 16 0xB)) (launch .u16 [[100], [98], [5]] [[95], [98], [300]]))
    = some (.ok, 27, [0xE8FDC7A0]) := by decide +kernel

/-- R243. -/
theorem test_modelMulti_buffers :
    seen (buffers .u16 3) (exec (.modelMulti (ops 3 16 8 0 3 16 0xB)) (launch .u16 [[100], [98], [5]] [[95], [98], [300]]))
    = some ([[10], [0], [589]], [[97], [98], [152]]) := by decide +kernel

/-- R244. -/
theorem test_diffMulti_stream :
    seen (stream 1) (exec (.diffMulti (ops 4 8 0 0 4 16 0x9)) (launch .u16 [[10], [12], [9], [9]] []))
    = some (.ok, 20, [0xCE448000]) := by decide +kernel

/-- R244. -/
theorem test_diffMulti_mapped :
    seen (fun s => samplesAt s .u16 0x1000 4) (exec (.diffMulti (ops 4 8 0 0 4 16 0x9)) (launch .u16 [[10], [12], [9], [9]] []))
    = some [[20], [4], [5], [0]] := by decide +kernel

/-- R245. -/
theorem test_rawSFx_stream : seen (stream 3) (exec (.rawSFx (ops 0 0 0 0 2 5 0x9)) (launch .sFx [[165, 16909060], [1, 3735928559]] []))
    = some (.ok, 80, [0xA5010203, 0x0401DEAD, 0xBEEFFFFF]) := by decide +kernel

/-- R246. -/
theorem test_modelZeroSFx_stream :
    seen (stream 1) (exec (.modelZeroSFx (ops 2 10 16 0 2 16 0xB)) (launch .sFx [[1, 500], [0, 40]] [[1, 498], [2, 40]]))
    = some (.ok, 19, [0x006F2000]) := by decide +kernel

/-- R246. -/
theorem test_modelZeroSFx_buffers :
    seen (buffers .sFx 2) (exec (.modelZeroSFx (ops 2 10 16 0 2 16 0xB)) (launch .sFx [[1, 500], [0, 40]] [[1, 498], [2, 40]]))
    = some ([[0, 5], [3, 1]], [[1, 498], [2, 40]]) := by decide +kernel

/-- R247. -/
theorem test_diffZeroSFx_stream :
    seen (stream 3) (exec (.diffZeroSFx (ops 4 8 0 0 3 16 0x9)) (launch .sFx [[0, 1000], [1, 1003], [1, 900]] []))
    = some (.ok, 95, [0x00000000, 0x7D1D6000, 0x0000019C]) := by decide +kernel

/-- R247. -/
theorem test_diffZeroSFx_mapped :
    seen (fun s => samplesAt s .sFx 0x1000 3) (exec (.diffZeroSFx (ops 4 8 0 0 3 16 0x9)) (launch .sFx [[0, 1000], [1, 1003], [1, 900]] []))
    = some [[0, 2001], [2, 7], [0, 206]] := by decide +kernel

/-- R248. -/
theorem test_modelMultiSFx_stream :
    seen (stream 1) (exec (.modelMultiSFx (ops 2 10 16 0 2 16 0xB)) (launch .sFx [[1, 500], [0, 40]] [[1, 498], [2, 40]]))
    = some (.ok, 11, [0x67000000]) := by decide +kernel

/-- R248. -/
theorem test_modelMultiSFx_buffers :
    seen (buffers .sFx 2) (exec (.modelMultiSFx (ops 2 10 16 0 2 16 0xB)) (launch .sFx [[1, 500], [0, 40]] [[1, 498], [2, 40]]))
    = some ([[0, 4], [3, 0]], [[1, 498], [2, 40]]) := by decide +kernel

/-- R249. -/
theorem test_diffMultiSFx_stream :
    seen (stream 2) (exec (.diffMultiSFx (ops 4 8 0 0 3 16 0x9)) (launch .sFx [[0, 1000], [1, 1003], [1, 900]] []))
    = some (.ok, 40, [0x72F91A9B, 0xC5000000]) := by decide +kernel

/-- R249. -/
theorem test_diffMultiSFx_mapped :
    seen (fun s => samplesAt s .sFx 0x1000 3) (exec (.diffMultiSFx (ops 4 8 0 0 3 16 0x9))
        (launch .sFx [[0, 1000], [1, 1003], [1, 900]] []))
    = some [[0, 2000], [2, 6], [0, 205]] := by decide +kernel

/-- R250. -/
theorem test_modelZeroSFxEfx_stream :
    seen (stream 2) (exec (.modelZeroSFxEfx (ops 3 12 12 0 2 16 0xB))
        (launch .sFxEfx [[0, 100, 50], [2, 101, 48]] [[0, 100, 52], [0, 90, 48]]))
    = some (.ok, 58, [0x002AF000, 0x00002E80]) := by decide +kernel

/-- R250. -/
theorem test_modelZeroSFxEfx_buffers :
    seen (buffers .sFxEfx 2) (exec (.modelZeroSFxEfx (ops 3 12 12 0 2 16 0xB))
        (launch .sFxEfx [[0, 100, 50], [2, 101, 48]] [[0, 100, 52], [0, 90, 48]]))
    = some ([[0, 1, 4], [4, 23, 1]], [[0, 100, 51], [0, 92, 48]]) := by decide +kernel

/-- R251. -/
theorem test_diffZeroSFxEfx_stream :
    seen (stream 3) (exec (.diffZeroSFxEfx (ops 3 12 0 0 2 16 0x9)) (launch .sFxEfx [[0, 100, 50], [2, 101, 48]] []))
    = some (.ok, 89, [0x00000000, 0x19200000, 0x032FA500]) := by decide +kernel

/-- R251. -/
theorem test_diffZeroSFxEfx_mapped :
    seen (fun s => samplesAt s .sFxEfx 0x1000 2) (exec (.diffZeroSFxEfx (ops 3 12 0 0 2 16 0x9))
        (launch .sFxEfx [[0, 100, 50], [2, 101, 48]] []))
    = some [[0, 201, 101], [4, 3, 4]] := by decide +kernel

/-- R252. -/
theorem test_modelMultiSFxEfx_stream :
    seen (stream 1) (exec (.modelMultiSFxEfx (ops 3 12 12 0 2 16 0xB))
        (launch .sFxEfx [[0, 100, 50], [2, 101, 48]] [[0, 100, 52], [0, 90, 48]]))
    = some (.ok, 24, [0x13DEA800]) := by decide +kernel

/-- R252. -/
theorem test_modelMultiSFxEfx_buffers :
    seen (buffers .sFxEfx 2) (exec (.modelMultiSFxEfx (ops 3 12 12 0 2 16 0xB))
        (launch .sFxEfx [[0, 100, 50], [2, 101, 48]] [[0, 100, 52], [0, 90, 48]]))
    = some ([[0, 0, 3], [4, 22, 0]], [[0, 100, 51], [0, 92, 48]]) := by decide +kernel

/-- R253. -/
theorem test_diffMultiSFxEfx_stream :
    seen (stream 2) (exec (.diffMultiSFxEfx (ops 3 12 0 0 2 16 0x9)) (launch .sFxEfx [[0, 100, 50], [2, 101, 48]] []))
    = some (.ok, 42, [0x7CBCF8B1, 0xE7000000]) := by decide +kernel

/-- R253. -/
theorem test_diffMultiSFxEfx_mapped :
    seen (fun s => samplesAt s .sFxEfx 0x1000 2) (exec (.diffMultiSFxEfx (ops 3 12 0 0 2 16 0x9))
        (launch .sFxEfx [[0, 100, 50], [2, 101, 48]] []))
    = some [[0, 200, 100], [4, 2, 3]] := by decide +kernel

/-- R254. -/
theorem test_modelZeroSFxNcob_stream :
    seen (stream 2) (exec (.modelZeroSFxNcob (ops 8 14 4 1 2 16 0xB))
        (launch .sFxNcob [[1, 200, 10, 20], [1, 205, 9, 20]] [[1, 198, 10, 22], [0, 205, 12, 20]]))
    = some (.ok, 42, [0x00189000, 0x50400000]) := by decide +kernel

/-- R254. -/
theorem test_modelZeroSFxNcob_buffers :
    seen (buffers .sFxNcob 2) (exec (.modelZeroSFxNcob (ops 8 14 4 1 2 16 0xB))
        (launch .sFxNcob [[1, 200, 10, 20], [1, 205, 9, 20]] [[1, 198, 10, 22], [0, 205, 12, 20]]))
    = some ([[0, 3, 1, 2], [0, 1, 4, 1]], [[0, 199, 10, 20], [0, 204, 9, 20]]) := by decide +kernel

/-- R255. -/
theorem test_diffZeroSFxNcob_stream :
    seen (stream 4) (exec (.diffZeroSFxNcob (ops 8 14 0 1 2 16 0x9)) (launch .sFxNcob [[1, 200, 10, 20], [1, 205, 9, 20]] []))
    = some (.ok, 107, [0x00000000, 0x064CC000, 0x00005400, 0xA4200000]) := by decide +kernel

/-- R255. -/
theorem test_diffZeroSFxNcob_mapped :
    seen (fun s => samplesAt s .sFxNcob 0x1000 2) (exec (.diffZeroSFxNcob (ops 8 14 0 1 2 16 0x9))
        (launch .sFxNcob [[1, 200, 10, 20], [1, 205, 9, 20]] []))
    = some [[0, 201, 11, 21], [0, 5, 2, 1]] := by decide +kernel

/-- R256. -/
theorem test_modelMultiSFxNcob_stream :
    seen (stream 1) (exec (.modelMultiSFxNcob (ops 8 14 4 1 2 16 0xB))
        (launch .sFxNcob [[1, 200, 10, 20], [1, 205, 9, 20]] [[1, 198, 10, 22], [0, 205, 12, 20]]))
    = some (.ok, 26, [0x10080C00]) := by decide +kernel

/-- R256. -/
theorem test_modelMultiSFxNcob_buffers :
    seen (buffers .sFxNcob 2) (exec (.modelMultiSFxNcob (ops 8 14 4 1 2 16 0xB))
        (launch .sFxNcob [[1, 200, 10, 20], [1, 205, 9, 20]] [[1, 198, 10, 22], [0, 205, 12, 20]]))
    = some ([[0, 2, 0, 1], [0, 0, 3, 0]], [[0, 199, 10, 20], [0, 204, 9, 20]]) := by decide +kernel

/-- R257. -/
theorem test_diffMultiSFxNcob_stream :
    seen (stream 2) (exec (.diffMultiSFxNcob (ops 8 14 0 1 2 16 0x9)) (launch .sFxNcob [[1, 200, 10, 20], [1, 205, 9, 20]] []))
    = some (.ok, 42, [0x63752BB1, 0x04000000]) := by decide +kernel

/-- R257. -/
theorem test_diffMultiSFxNcob_mapped :
    seen (fun s => samplesAt s .sFxNcob 0x1000 2) (exec (.diffMultiSFxNcob (ops 8 14 0 1 2 16 0x9))
        (launch .sFxNcob [[1, 200, 10, 20], [1, 205, 9, 20]] []))
    = some [[0, 200, 10, 20], [0, 4, 1, 0]] := by decide +kernel

/-- R258. -/
theorem test_modelZeroSFxEfxNcobEcob_stream :
    seen (stream 3) (exec (.modelZeroSFxEfxNcobEcob (ops 2 10 16 0 1 16 0xB))
        (launch .sFxEfxNcobEcob [[2, 500, 10, 20, 7, 3, 0]] [[2, 498, 12, 20, 0, 3, 100]]))
    = some (.ok, 89, [0x006E2000, 0x00007A00, 0x00006400]) := by decide +kernel

/-- R258. -/
theorem test_modelZeroSFxEfxNcobEcob_buffers :
    seen (buffers .sFxEfxNcobEcob 1) (exec (.modelZeroSFxEfxNcobEcob (ops 2 10 16 0 1 16 0xB))
        (launch .sFxEfxNcobEcob [[2, 500, 10, 20, 7, 3, 0]] [[2, 498, 12, 20, 0, 3, 100]]))
    = some ([[0, 5, 4, 1, 15, 1, 200]], [[2, 498, 12, 20, 0, 3, 100]]) := by decide +kernel

/-- R259. -/
theorem test_diffZeroSFxEfxNcobEcob_stream :
    seen (stream 8) (exec (.diffZeroSFxEfxNcobEcob (ops 2 10 0 0 2 16 0x9))
        (launch .sFxEfxNcobEcob [[2, 500, 10, 20, 7, 3, 0], [2, 498, 12, 20, 0, 3, 100]] []))
    = some (.ok, 237, [0xF0000007, 0xD2000000, 0x0A800000, 0x05200000, 0x007F5006, 0x6A000000, 0x07200000, 0x06480000]) := by decide +kernel

/-- R259. -/
theorem test_diffZeroSFxEfxNcobEcob_mapped :
    seen (fun s => samplesAt s .sFxEfxNcobEcob 0x1000 2) (exec (.diffZeroSFxEfxNcobEcob (ops 2 10 0 0 2 16 0x9))
        (launch .sFxEfxNcobEcob [[2, 500, 10, 20, 7, 3, 0], [2, 498, 12, 20, 0, 3, 100]] []))
    = some [[4, 1001, 21, 41, 15, 7, 1], [0, 4, 5, 1, 14, 1, 201]] := by decide +kernel

/-- R260. -/
theorem test_modelMultiSFxEfxNcobEcob_stream :
    seen (stream 2) (exec (.modelMultiSFxEfxNcobEcob (ops 2 10 16 0 1 16 0xB))
        (launch .sFxEfxNcobEcob [[2, 500, 10, 20, 7, 3, 0]] [[2, 498, 12, 20, 0, 3, 100]]))
    = some (.ok, 39, [0x653EA1FB, 0x7A000000]) := by decide +kernel

/-- R260. -/
theorem test_modelMultiSFxEfxNcobEcob_buffers :
    seen (buffers .sFxEfxNcobEcob 1) (exec (.modelMultiSFxEfxNcobEcob (ops 2 10 16 0 1 16 0xB))
        (launch .sFxEfxNcobEcob [[2, 500, 10, 20, 7, 3, 0]] [[2, 498, 12, 20, 0, 3, 100]]))
    = some ([[0, 4, 3, 0, 14, 0, 199]], [[2, 498, 12, 20, 0, 3, 100]]) := by decide +kernel

/-- R261. -/
theorem test_diffMultiSFxEfxNcobEcob_stream :
    seen (stream 4) (exec (.diffMultiSFxEfxNcobEcob (ops 2 10 0 0 2 16 0x9))
        (launch .sFxEfxNcobEcob [[2, 500, 10, 20, 7, 3, 0], [2, 498, 12, 20, 0, 3, 100]] []))
    = some (.ok, 104, [0xF7F3DEFB, 0x5F8F7D4E, 0x0B87CCFD, 0xBE000000]) := by decide +kernel

/-- R261. -/
theorem test_diffMultiSFxEfxNcobEcob_mapped :
    seen (fun s => samplesAt s .sFxEfxNcobEcob 0x1000 2) (exec (.diffMultiSFxEfxNcobEcob (ops 2 10 0 0 2 16 0x9))
        (launch .sFxEfxNcobEcob [[2, 500, 10, 20, 7, 3, 0], [2, 498, 12, 20, 0, 3, 100]] []))
    = some [[4, 1000, 20, 40, 14, 6, 0], [0, 3, 4, 0, 13, 0, 200]] := by decide +kernel

/-- R262. -/
theorem test_modelZeroFFx_stream :
    seen (stream 2) (exec (.modelZeroFFx (ops 5 20 11 2 3 16 0xB))
        (launch .fFx [[19], [4294967295], [2147483648]] [[16], [0], [2147483655]]))
    = some (.ok, 41, [0x21FFFFFF, 0xFD000000]) := by decide +kernel

/-- R262. -/
theorem test_modelZeroFFx_buffers :
    seen (buffers .fFx 3) (exec (.modelZeroFFx (ops 5 20 11 2 3 16 0xB))
        (launch .fFx [[19], [4294967295], [2147483648]] [[16], [0], [2147483655]]))
    = some ([[1], [2147483647], [2]], [[16], [1342177278], [2147483652]]) := by decide +kernel

/-- R263. -/
theorem test_diffZeroFFx_stream :
    seen (stream 3) (exec (.diffZeroFFx (ops 16 60 0 1 3 16 0x9)) (launch .fFx [[70000], [70003], [69000]] []))
    = some (.ok, 79, [0x0000088B, 0x88C00000, 0x07D40000]) := by decide +kernel

/-- R263. -/
theorem test_diffZeroFFx_mapped :
    seen (fun s => samplesAt s .fFx 0x1000 3) (exec (.diffZeroFFx (ops 16 60 0 1 3 16 0x9)) (launch .fFx [[70000], [70003], [69000]] []))
    = some [[70001], [3], [1002]] := by decide +kernel

/-- R264. -/
theorem test_modelMultiFFx_stream :
    seen (stream 2) (exec (.modelMultiFFx (ops 5 20 11 2 3 16 0xB))
        (launch .fFx [[19], [4294967295], [2147483648]] [[16], [0], [2147483655]]))
    = some (.ok, 48, [0x1FC3FFFF, 0xFF510000]) := by decide +kernel

/-- R264. -/
theorem test_modelMultiFFx_buffers :
    seen (buffers .fFx 3) (exec (.modelMultiFFx (ops 5 20 11 2 3 16 0xB))
        (launch .fFx [[19], [4294967295], [2147483648]] [[16], [0], [2147483655]]))
    = some ([[0], [2147483646], [1]], [[16], [1342177278], [2147483652]]) := by decide +kernel

/-- R265. -/
theorem test_diffMultiFFx_stream :
    seen (stream 2) (exec (.diffMultiFFx (ops 16 60 0 1 3 16 0x9)) (launch .fFx [[70000], [70003], [69000]] []))
    = some (.ok, 51, [0xF2222682, 0xF075A000]) := by decide +kernel

/-- R265. -/
theorem test_diffMultiFFx_mapped :
    seen (fun s => samplesAt s .fFx 0x1000 3) (exec (.diffMultiFFx (ops 16 60 0 1 3 16 0x9)) (launch .fFx [[70000], [70003], [69000]] []))
    = some [[70000], [2], [1001]] := by decide +kernel

/-- R266. -/
theorem test_modelZero32_stream :
    seen (stream 2) (exec (.modelZero32 (ops 5 20 11 2 3 16 0xB))
        (launch .u32 [[19], [4294967295], [2147483648]] [[16], [0], [2147483655]]))
    = some (.ok, 41, [0x21FFFFFF, 0xFD000000]) := by decide +kernel

/-- R266. -/
theorem test_modelZero32_buffers :
    seen (buffers .u32 3) (exec (.modelZero32 (ops 5 20 11 2 3 16 0xB))
        (launch .u32 [[19], [4294967295], [2147483648]] [[16], [0], [2147483655]]))
    = some ([[1], [2147483647], [2]], [[16], [1342177278], [2147483652]]) := by decide +kernel

/-- R267. -/
theorem test_diffZero32_stream :
    seen (stream 3) (exec (.diffZero32 (ops 16 60 0 1 3 16 0x9)) (launch .u32 [[70000], [70003], [69000]] []))
    = some (.ok, 79, [0x0000088B, 0x88C00000, 0x07D40000]) := by decide +kernel

/-- R267. -/
theorem test_diffZero32_mapped :
    seen (fun s => samplesAt s .u32 0x1000 3) (exec (.diffZero32 (ops 16 60 0 1 3 16 0x9)) (launch .u32 [[70000], [70003], [69000]] []))
    = some [[70001], [3], [1002]] := by decide +kernel

/-- R268. -/
theorem test_modelMulti32_stream :
    seen (stream 2) (exec (.modelMulti32 (ops 5 20 11 2 3 16 0xB))
        (launch .u32 [[19], [4294967295], [2147483648]] [[16], [0], [2147483655]]))
    = some (.ok, 48, [0x1FC3FFFF, 0xFF510000]) := by decide +kernel

/-- R268. -/
theorem test_modelMulti32_buffers :
    seen (buffers .u32 3) (exec (.modelMulti32 (ops 5 20 11 2 3 16 0xB))
        (launch .u32 [[19], [4294967295], [2147483648]] [[16], [0], [2147483655]]))
    = some ([[0], [2147483646], [1]], [[16], [1342177278], [2147483652]]) := by decide +kernel

/-- R269. -/
theorem test_diffMulti32_stream :
    seen (stream 2) (exec (.diffMulti32 (ops 16 60 0 1 3 16 0x9)) (launch .u32 [[70000], [70003], [69000]] []))
    = some (.ok, 51, [0xF2222682, 0xF075A000]) := by decide +kernel

/-- R269. -/
theorem test_diffMulti32_mapped :
    seen (fun s => samplesAt s .u32 0x1000 3) (exec (.diffMulti32 (ops 16 60 0 1 3 16 0x9)) (launch .u32 [[70000], [70003], [69000]] []))
    = some [[70000], [2], [1001]] := by decide +kernel

/-! ### Well-formedness, decoding and encoding (30_encoding.md R80, R82, R87; 10_state.md R23) -/

/-- A job word that the register block cannot hold: bit 4 of `CFG_PRESENT` is always zero. -/
theorem test_wellFormed_refuses_reserved_present_bit : (Instr.raw (ops 0 0 0 0 3 3 0x19)).wellFormed = false := by decide

theorem test_wellFormed_refuses_top_present_bit : (Instr.diffZero32 (ops 1 2 0 0 3 3 0x80000009)).wellFormed = false := by
  decide

theorem test_wellFormed_accepts_all_handles : (Instr.modelMulti (ops 1 2 0 0 3 3 0xF)).wellFormed = true := by decide

/-- The twelve words of a job whose mode word is `mode` and whose other words are those of `ops 1 2 3 4 5 6 0xB`. -/
def wordsWithMode (mode : Word) : List Word := [mode, 1, 2, 3, 4, 5, 6, 0xB, 0x1000, 0x3000, 0, 0x2000]

/-- A job as `wordsWithMode` writes it decodes to the given instruction and encodes back. -/
def decodesTo (mode : Word) (build : JobOperands → Instr) : Bool :=
  decide (decode (wordsWithMode mode) = .ok (build (ops 1 2 3 4 5 6 0xB)))
    && decide (encode (build (ops 1 2 3 4 5 6 0xB)) = wordsWithMode mode)

/-- Every mode of shape u16, its code as R82 tabulates it. -/
theorem test_decode_u16 :
    (decodesTo 0x00000000 .raw
      && decodesTo 0x00000001 .modelZero
      && decodesTo 0x00000002 .diffZero
      && decodesTo 0x00000003 .modelMulti
      && decodesTo 0x00000004 .diffMulti) = true := by decide

/-- Every mode of shape sFx, its code as R82 tabulates it. -/
theorem test_decode_sFx :
    (decodesTo 0x00000064 .rawSFx
      && decodesTo 0x00000065 .modelZeroSFx
      && decodesTo 0x00000066 .diffZeroSFx
      && decodesTo 0x00000067 .modelMultiSFx
      && decodesTo 0x00000068 .diffMultiSFx) = true := by decide

/-- Every mode of shape sFxEfx, its code as R82 tabulates it. -/
theorem test_decode_sFxEfx :
    (decodesTo 0x0000006E .modelZeroSFxEfx
      && decodesTo 0x0000006F .diffZeroSFxEfx
      && decodesTo 0x00000070 .modelMultiSFxEfx
      && decodesTo 0x00000071 .diffMultiSFxEfx) = true := by decide

/-- Every mode of shape sFxNcob, its code as R82 tabulates it. -/
theorem test_decode_sFxNcob :
    (decodesTo 0x00000078 .modelZeroSFxNcob
      && decodesTo 0x00000079 .diffZeroSFxNcob
      && decodesTo 0x0000007A .modelMultiSFxNcob
      && decodesTo 0x0000007B .diffMultiSFxNcob) = true := by decide

/-- Every mode of shape sFxEfxNcobEcob, its code as R82 tabulates it. -/
theorem test_decode_sFxEfxNcobEcob :
    (decodesTo 0x00000082 .modelZeroSFxEfxNcobEcob
      && decodesTo 0x00000083 .diffZeroSFxEfxNcobEcob
      && decodesTo 0x00000084 .modelMultiSFxEfxNcobEcob
      && decodesTo 0x00000085 .diffMultiSFxEfxNcobEcob) = true := by decide

/-- Every mode of shape fFx, its code as R82 tabulates it. -/
theorem test_decode_fFx :
    (decodesTo 0x0000008C .modelZeroFFx
      && decodesTo 0x0000008D .diffZeroFFx
      && decodesTo 0x0000008E .modelMultiFFx
      && decodesTo 0x0000008F .diffMultiFFx) = true := by decide

/-- Every mode of shape u32, its code as R82 tabulates it. -/
theorem test_decode_u32 :
    (decodesTo 0x000000C8 .modelZero32
      && decodesTo 0x000000C9 .diffZero32
      && decodesTo 0x000000CA .modelMulti32
      && decodesTo 0x000000CB .diffMulti32) = true := by decide

/-- Mode 7 is unrecognised (R87, 95 V-11). -/
theorem test_decode_rejects_mode_7 : decode (wordsWithMode 7) = .error (.unrecognisedMode 7) := by decide

theorem test_decode_rejects_top_bit : decode (wordsWithMode 0x80000002) = .error (.unrecognisedMode 0x80000002) := by decide

theorem test_decode_rejects_eleven_words : decode ((wordsWithMode 2).take 11) = .error (.wordCount 11) := by decide

/-- A row of the opcode table: the mode word alone, every other word zero. -/
theorem test_decodeTableWord_diffZero : decodeTableWord 32 0x00000002
    = some (.diffZero { golombPar := 0, spill := 0, modelValue := 0, round := 0, samples := 0, bufferLength := 0, cfgPresent := 0
                        inputBase := 0, modelBase := 0, updatedModelBase := 0, outputBase := 0 }) := by decide

theorem test_decodeTableWord_unrecognised : decodeTableWord 32 0x00000005 = none := by decide

/-- The job of a table row is the first that runs after reset: V1, V2, V13 and V14 fire (40_validator.md R101, R102, R114,
R115). -/
theorem test_withFetchWord_diffMulti32 :
    seen (fun s => (s.j.mode, s.status.kind, s.status.retval, s.info.cmpErr, s.info.cmpModeUsed))
      (step (State.reset.withFetchWord 32 203)) = some (203, .cfgErr, BitVec.ofInt 32 (-4), 8, 203) := by decide +kernel

/-! ### The reference decoder (46_decoder_reference.md) -/

/-- What the decoder returns for a job run from `s`. -/
def decoded (i : Instr) (s : State) : Option (List (List Nat) × List (List Nat)) :=
  match exec i s with
  | .next t =>
    (decompressJob (jobOf i) s.mem t.mem t.info.cmpSize.toNat).map (fun r => (r.samples, r.updatedModel))
  | _ => none

/-- Scenario 1: the decoder returns the input (95_test_vectors.md 1.1). -/
theorem test_decode_scenario1 :
    decoded (.diffZero (ops 4 8 0 0 4 2 0x9)) (launch .u16 [[10], [12], [9], [9]] []) = some ([[10], [12], [9], [9]], []) := by
  decide +kernel

/-- The worked example of R241: the decoder's updated model is the one the job leaves (46 R286). -/
theorem test_decode_updated_model :
    decoded (.modelZero (ops 3 16 8 0 3 16 0xB)) (launch .u16 [[100], [98], [5]] [[95], [98], [300]])
      = some ([[100], [98], [5]], [[97], [98], [152]]) := by decide +kernel

/-- A raw job decodes exactly, whatever `round` holds (46 R288). -/
theorem test_decode_raw :
    decoded (.raw (ops 0 0 0 9 3 3 0x9)) (launch .u16 [[258], [772], [1286]] []) = some ([[258], [772], [1286]], []) := by
  decide +kernel

/-! ### The host and the start command -/

/-- P6, step 1: a start right after reset (10_state.md R40). -/
theorem test_start_after_reset :
    seen (fun s => (s.status, s.info.cmpErr, s.mem.cells)) (step { State.reset with hostQueue := [.writeReg 0 1] })
      = some ({ busy := false, done := true, kind := .cfgErr, retval := 0xFFFFFFFE }, 0, []) := by decide +kernel

/-- P6, step 2: six checks fire on an unrecognised mode. -/
theorem test_six_problems :
    seen (fun s => (s.status.retval, s.info.cmpErr, s.info.cmpModeUsed, s.info.spillUsed))
      (step { State.reset with
        hostQueue := [.writeReg 0 1]
        cfg := { JobRecord.zero with
          mode := 7, spill := 1, round := 4, samples := 4, input := { present := true, base := 0x1000 }
          output := { present := true, base := 0x1000 } } })
      = some (0xFFFFFFFA, 0x000B, 7, 1) := by decide +kernel

/-- The job of P1 in the register block. -/
def diffCfg : JobRecord := jobOf (.diffZero (ops 4 8 0 0 4 2 0x9))

/-- A state in which P1's job has just been latched at the grain of phases. -/
def running : State := latchJob diffCfg { launch .u16 [[10], [12], [9], [9]] [] with pace := .byPhase }

/-- P1 phase by phase: VALIDATE, PRE, MAP, ENCODE, PAD, DONE. -/
theorem test_phases_of_P1 :
    (List.range 6).map (fun k => seen (fun s => (s.seq.phase, s.status.busy)) (coreMoves k running))
      = [some (.validate, true), some (.pre, true), some (.map, true), some (.encode, true), some (.pad, true),
          some (.done, false)] := by decide +kernel

theorem test_result_of_P1 : seen (stream 1) (coreMoves 5 running) = some (.ok, 30, [0x0002B344]) := by decide +kernel

/-- CFG written while the job runs does not reach it (10_state.md R25). -/
theorem test_cfg_write_while_busy :
    seen (fun s => (s.cfg.samples, s.j.samples, s.status.busy))
      (step { running with hostQueue := [.writeReg 0x24 99] }) = some (99, 4, true) := by decide +kernel

theorem test_start_while_busy_ignored :
    step { running with hostQueue := [.writeReg 0 1] } = .next running := rfl

/-- A host write into the borrowed input is refused, one beside it lands (20_memory.md R62). -/
theorem test_host_write_borrowed : step { running with hostQueue := [.writeMem 0x1007 0] } = .refused (.hostTouchesBuffer 0x1007) := by
  rfl

theorem test_host_write_beside_buffers :
    seen (fun s => s.mem.readByte 0x1008) (step { running with hostQueue := [.writeMem 0x1008 0x5A] }) = some 0x5A := by
  decide +kernel

/-- P1's job with the output handle absent, latched at the grain of phases: V2 will fire. -/
def runningNoOutput : State :=
  latchJob { diffCfg with output := { diffCfg.output with present := false } }
    { launch .u16 [[10], [12], [9], [9]] [] with pace := .byPhase }

/-- An absent handle has no extent: the host may write and read at its base (20_memory.md R52, 10_state.md R22). -/
theorem test_host_access_at_absent_handle :
    seen (fun s => (s.mem.readByte 0x2000, hostReadMem s 0x2000, hostReadMem s 0x1000))
      (step { runningNoOutput with hostQueue := [.writeMem 0x2000 0x5A] }) = some (0x5A, some 0x5A, none) := by decide +kernel

/-- A reset before a raw copy that will not fit: no byte of MEM could be written (44_bitpacker.md R224). -/
theorem test_reset_before_failing_copy :
    seen (fun s => (s.seq.phase, s.mem.readByte 0x2000))
      (step { latchJob (jobOf (.rawSFx (ops 0 0 0 0 2 2 0x9))) (launch .sFx [[1, 2], [3, 4]] []) with hostQueue := [.reset] })
      = some (.idle, 0xFF) := by decide +kernel

/-- Reset keeps MEM when no job runs (10_state.md R40). -/
theorem test_reset_idle :
    seen (fun s => (s.cfg.mode, s.seq.phase, s.mem.readByte 0x1001))
      (step { launch .u16 [[10]] [] with hostQueue := [.reset], cfg := diffCfg }) = some (0, .idle, 0x0A) := by decide +kernel

/-- Reading registers (10_state.md R23): after P1's job STATUS reads done and OK. -/
theorem test_register_reads_after_P1 :
    seen (fun s => [0x00, 0x04, 0x08, 0x0C, 0x10, 0x40, 0x44, 0x48, 0x4C, 0x50, 0x54, 0x58, 0x5C, 0x60].map (readReg s))
      (exec (.diffZero (ops 4 8 0 0 4 2 0x9)) (launch .u16 [[10], [12], [9], [9]] []))
      = some [0, 2, 0, 0, 0, 0, 30, 2, 0, 4, 8, 0, 4, 0] := by decide +kernel

/-! ### The validator (95_test_vectors.md 2.1) -/

/-- The base job of the vectors. -/
def baseJob : JobRecord := jobOf (.diffZero (ops 4 8 0 0 4 2 0x9))

/-- Count and error bits. -/
def report (j : JobRecord) : Nat × Nat := (validateCount j, (validateBits j).toNat)

/-- A present handle. -/
def at_ (base : Word) : Handle := { present := true, base := base }

theorem test_validator_buffers :
    [baseJob, { baseJob with input := .absent }, { baseJob with output := .absent }, { baseJob with output := at_ 0x1000 },
      { baseJob with bufferLength := 0 }, { baseJob with bufferLength := 0, samples := 0 }].map report
      = [(0, 0), (1, 0), (1, 0), (1, 0), (1, 1), (0, 0)] := by decide +kernel

theorem test_validator_model_buffers :
    [{ baseJob with mode := 1 }, { baseJob with mode := 1, model := at_ 0x1000 }, { baseJob with mode := 1, model := at_ 0x2000 },
      { baseJob with mode := 1, model := at_ 0x3000, updatedModel := at_ 0x1000 },
      { baseJob with mode := 1, model := at_ 0x3000, updatedModel := at_ 0x2000 },
      { baseJob with mode := 1, model := at_ 0x3000, updatedModel := at_ 0x3000 },
      { baseJob with model := at_ 0x1000, updatedModel := at_ 0x2000 }].map report
      = [(1, 0), (1, 0), (1, 0), (1, 0), (1, 0), (0, 0), (0, 0)] := by decide +kernel

theorem test_validator_modes :
    [{ baseJob with mode := 0, samples := 3, bufferLength := 2 }, { baseJob with mode := 0, samples := 3, bufferLength := 3 },
      { baseJob with mode := 7 }, { baseJob with mode := 0xFFFFFFFF, golombPar := 0 },
      { baseJob with mode := 0, golombPar := 0, spill := 0, round := 9, modelValue := 99, samples := 2 }].map report
      = [(1, 1), (0, 0), (1, 2), (3, 0xA), (0, 0)] := by decide +kernel

theorem test_validator_parameters :
    [{ baseJob with mode := 1, model := at_ 0x3000, modelValue := 17 }, { baseJob with mode := 1, model := at_ 0x3000, modelValue := 16 },
      { baseJob with modelValue := 99 }, { baseJob with golombPar := 0 }, { baseJob with golombPar := 65536 },
      { baseJob with golombPar := 65535, spill := 1048545 }, { baseJob with spill := 1 }, { baseJob with spill := 104 },
      { baseJob with spill := 105 }, { baseJob with round := 4 }, { baseJob with round := 3 },
      { baseJob with mode := 3, modelValue := 20, golombPar := 0, spill := 0, round := 7 }].map report
      = [(1, 4), (0, 0), (0, 0), (2, 8), (2, 8), (0, 0), (1, 8), (0, 0), (1, 8), (1, 8), (0, 0), (5, 0xC)] := by decide +kernel

/-! ### Rounding, blend, fold (95_test_vectors.md 2.2, 2.3) -/

theorem test_rounding :
    (roundFwd 0xFFFF#16 3, roundInv 0x1FFF#16 3, roundFwd 0x13#16 2, roundFwd 0xFF#8 3, roundInv 0x1F#8 3, roundFwd 7#32 3)
      = (0x1FFF, 0xFFF8, 4, 0x1F, 0xF8, 0) := by decide

theorem test_calUpModel :
    [calUpModel 100 95 8, calUpModel 100 95 0, calUpModel 100 95 16, calUpModel 100 95 1, calUpModel 100 95 15,
      calUpModel 0 0xFFFFFFFF 16, calUpModel 0xFFFFFFFF 0xFFFFFFFF 7, calUpModel 0xFFFFFFFF 0 1, calUpModel 0 1 15,
      calUpModel 1 0 1, calUpModel 0xFFFC 0 11]
      = [97, 100, 95, 99, 95, 0xFFFFFFFF, 0xFFFFFFFF, 0xEFFFFFFF, 0, 0, 0x4FFE] := by decide +kernel

theorem test_fold_8 : [0x00#8, 0x01, 0xFF, 0xFE, 0x7F, 0x80, 0x81].map mapToPos = [0x00, 0x02, 0x01, 0x03, 0xFE, 0xFF, 0xFD] := by
  decide

theorem test_bias_wraps_only_data_fields :
    (mapValue .zero true 0x8000#16, mapValue .zero false 0x80#8, mapValue .multi true 0x8000#16, mapValue .zero true 0xFFFFFFFF#32)
      = (0, 0xFF, 0xFFFF, 2) := by decide

/-! ### Codewords, spill bound, multi-escape offset (95_test_vectors.md 2.4, 2.6) -/

/-- Value and length of the normal codeword. -/
def codeword (m u : Nat) : Nat × Nat :=
  let w := normalCodeword u (encoderSetup m 8 .zero)
  (w.value, w.len)

theorem test_rice_codewords :
    [codeword 1 0, codeword 1 5, codeword 1 31, codeword 4 0, codeword 4 5, codeword 4 21, codeword 4 119, codeword 16 37,
      codeword 32768 1]
      = [(0, 1), (0b111110, 6), (0xFFFFFFFE, 32), (0, 3), (0b1001, 4), (0b11111001, 8), (0xFFFFFFFB, 32), (0b1100101, 7),
          (1, 16)] := by decide +kernel

theorem test_golomb_codewords :
    [codeword 3 0, codeword 3 1, codeword 3 4, codeword 3 10, codeword 3 90, codeword 5 2, codeword 5 3, codeword 5 147,
      codeword 10 6, codeword 10 25, codeword 65535 1, codeword 65535 65536, codeword 65535 1048560]
      = [(0, 2), (0b010, 3), (0b1010, 4), (0b111010, 6), (0xFFFFFFFC, 32), (0b010, 3), (0b0110, 4), (0xFFFFFFFA, 32),
          (0b01100, 5), (0b110101, 6), (2, 17), (0b100000000000000010, 18), (0xFFFF0000, 32)] := by decide +kernel

theorem test_maxSpill :
    [0, 1, 2, 3, 4, 5, 6, 7, 8, 16, 32, 64, 256, 32768, 65535, 65536].map (fun m => maxSpill m 0)
      = [0, 16, 46, 75, 104, 132, 160, 188, 216, 432, 848, 1648, 6128, 557040, 1048545, 0] := by decide +kernel

theorem test_multi_offset :
    [0, 3, 4, 0xF, 0x10, 0x3F, 0x40, 0xFF, 0x100, 0x3FF, 0x400, 0xFFF, 0x1000, 0x3FFF, 0x4000, 0xFFFF, 0x10000, 0x3FFFF, 0x40000,
      0xFFFFF, 0x100000, 0x3FFFFF, 0x400000, 0xFFFFFF, 0x1000000, 0x3FFFFFF, 0x4000000, 0xFFFFFFF, 0x10000000, 0x3FFFFFFF,
      0x40000000, 0xFFFFFFFF].map calMultiOffset
      = [0, 0, 1, 1, 2, 2, 3, 3, 4, 4, 5, 5, 6, 6, 7, 7, 8, 8, 9, 9, 10, 10, 11, 11, 12, 12, 13, 13, 14, 14, 15, 15] := by
  decide +kernel

/-- What `EncodeValue` puts into an output of two zero words: the bits as a number of 64 bits, and how many. -/
def emitted (m spill : Nat) (esc : Escape) (w u : Nat) : Option (Nat × Nat) :=
  let s : State :=
    { State.reset with
      j := { JobRecord.zero with bufferLength := 4, output := at_ 0x2000 }
      mem := { cells := cellsFrom 0x2000 (List.replicate 8 0) } }
  match encodeValue u w (encoderSetup m spill esc) s with
  | .go t => some (t.mem.read 0x2000 8, t.enc.streamLen)
  | .stop _ _ => none

/-- Z3, Z4, Z7, M3, M7, M10, E1, E2, E3. -/
theorem test_emissions :
    [emitted 4 8 .zero 16 8, emitted 4 8 .zero 16 0, emitted 5 20 .zero 32 0x7FFFFFFF, emitted 4 8 .multi 16 8,
      emitted 4 8 .multi 32 2000, emitted 4 104 .multi 32 0xFFFFFFFF, emitted 1 60 .zero 8 40, emitted 1 30 .multi 8 40,
      emitted 1 31 .multi 8 40]
      = [some (8 * 2 ^ 45, 19), some (0, 19), some (0x7FFFFFFF * 2 ^ 29, 35), some (0b1100000 * 2 ^ 57, 7),
          some (0b111001011111001000 * 2 ^ 46, 18), some (0xFFFFFFFBFFFFFF97, 64), none,
          some (0xFFFFFFFEA * 2 ^ 28, 36), none] := by decide +kernel

/-! ### `put_n_bits32` (95_test_vectors.md 2.5) -/

/-- The code returned and the words after, for words before and a call with capacity `cap`. -/
def putOn (words : List Nat) (cap : Nat) (v : Word) (o n : Nat) : Int × List Nat :=
  let m : Memory := { cells := cellsFrom 0x2000 (words.flatMap (bigEndian 4)) }
  let r := putNBits32 (at_ 0x2000) cap v o n m
  (r.1.code, (List.range words.length).map (fun w => (outRead r.2 (at_ 0x2000) w).toNat))

/-- B1 to B6. -/
theorem test_put_writes :
    [putOn [0xFFFFFFFF] 32 0 1 1, putOn [0xFFFFFFFF, 0xFFFFFFFF] 64 5 30 3, putOn [0xAAAAAAAA] 32 0xDEADBEEF 0 32,
      putOn [0xAAAAAAAA, 0x55555555] 64 0xDEADBEEF 8 32, putOn [0, 0] 64 0xDEADBEEF 32 32, putOn [0x12345678] 32 0xFFFFFFFF 28 4]
      = [(1, [0xBFFFFFFF]), (3, [0xFFFFFFFE, 0xFFFFFFFF]), (32, [0xDEADBEEF]), (32, [0xAADEADBE, 0xEF555555]),
          (32, [0, 0xDEADBEEF]), (4, [0x1234567F])] := by decide +kernel

/-- B7 to B13. -/
theorem test_put_refusals_and_ends :
    [putOn [0x12345678] 32 0xFFFFFFFF 28 5, putOn [0x12345678] 32 3 4 0, putOn [0x12345678] 32 3 4 33,
      putOn [0x12345678] 32 1 31 1, putOn [0x12345678, 7] 64 0xABCD 56 16, putOn [0xFFFFFFFF] 32 0xFFFFFF00 0 8,
      putOn [0] 0 1 0 1]
      = [(-2, [0x12345678]), (0, [0x12345678]), (0, [0x12345678]), (1, [0x12345679]), (-2, [0x12345678, 7]),
          (8, [0x00FFFFFF]), (-2, [0])] := by decide +kernel

/-! ### Errors and whole jobs (95_test_vectors.md 2.5, 2.7, 2.8, programs P5, P7, P8) -/

/-- P5, job 1: the capacity error finds the input completely transformed. -/
theorem test_capacity_error :
    seen (fun s => (s.status.kind, s.status.retval, s.info.cmpErr, samplesAt s .u16 0x1000 8 ++ [[(outRead s.mem (at_ 0x2000) 1).toNat]]))
      (exec (.diffZero (ops 4 8 0 0 8 2 0x9)) (launch .u16 [[10], [12], [9], [9], [300], [300], [301], [299]] []))
      = some (.smallBuf, 0xFFFFFFFE, 1, [[21], [5], [6], [1], [583], [1], [3], [4], [0xFFFFFFFF]]) := by decide +kernel

/-- P5, job 2, with the odd buffer length 3. -/
theorem test_capacity_rounds_up :
    seen (stream 2) (exec (.diffZero (ops 4 8 0 0 8 3 0x9)) (launch .u16 [[10], [12], [9], [9], [300], [300], [301], [299]] []))
      = some (.ok, 59, [0x0002B344, 0x01239700]) := by decide +kernel

/-- P8: an `exp_flags` codeword of 41 bits. -/
theorem test_internal_error :
    seen (fun s => (s.status.kind, s.status.retval, s.info.cmpErr, samplesAt s .sFx 0x1000 2))
      (exec (.diffZeroSFx (ops 4 60 0 0 2 8 0x9)) (launch .sFx [[0, 5], [20, 5]] []))
      = some (.internal, 0xFFFFFFFF, 0, [[0, 11], [40, 1]]) := by decide +kernel

/-- P7: a separate updated model; the model keeps its bytes. -/
theorem test_separate_updated_model :
    seen (fun s => (stream 2 s, samplesAt s .u32 0x3000 3, samplesAt s .u32 0x4000 3))
      (exec (.modelZero32 { ops 5 20 11 2 3 8 0xF with updatedModelBase := 0x4000 })
        (launch .u32 [[0x13], [0xFFFFFFFF], [0x80000000]] [[0x10], [0], [0x80000007]]))
      = some ((.ok, 41, [0x21FFFFFF, 0xFD000000]), [[0x10], [0], [0x80000007]], [[0x10], [0x4FFFFFFE], [0x80000004]]) := by
  decide +kernel

/-- 2.8: the residual −2^15 wraps to 0 under the bias and is sent raw. -/
theorem test_bias_wrap_in_a_job :
    seen (stream 1) (exec (.diffZero (ops 1 16 0 0 2 8 0x9)) (launch .u16 [[0], [0x8000]] []))
      = some (.ok, 19, [0x80000000]) := by decide +kernel

/-- 2.5: the full-word write inside a job. -/
theorem test_full_word_in_a_job :
    seen (stream 4) (exec (.diffZero32 (ops 32768 2 0 0 2 6 0x9)) (launch .u32 [[0x12345678], [0x13345678]] []))
      = some (.ok, 96, [0x00002468, 0xACF10000, 0x02000001, 0xFFFFFFFF]) := by decide +kernel

/-- 2.7: a raw copy that the validator lets pass and that does not fit. -/
theorem test_raw_capacity_error :
    seen (fun s => (s.status.kind, s.status.retval, s.info.cmpErr, outputAt s 3))
      (exec (.rawSFx (ops 0 0 0 0 2 2 0x9)) (launch .sFx [[0xA5, 0x01020304], [1, 0xDEADBEEF]] []))
      = some (.smallBuf, 0xFFFFFFFE, 1, [0xFFFFFFFF, 0xFFFFFFFF, 0xFFFFFFFF]) := by decide +kernel

/-- A launch that breaks a premise is refused: the output overlaps the input (70 R335). -/
theorem test_overlap_refused :
    exec (.raw { ops 0 0 0 0 3 3 0x9 with outputBase := 0x1004 }) State.reset = .refused .overlappingBuffers := by rfl

theorem test_misaligned_output_refused :
    exec (.raw { ops 0 0 0 0 3 3 0x9 with outputBase := 0x2002 }) State.reset = .refused .outputMisaligned := by rfl

/-! ### Witnesses: a concrete state and operands that meet the hypotheses of each statement -/

/-- A capacity that a launch of the tests fits, an input of two samples and a model, for each shape. -/
def twoSamples : Shape → List (List Nat)
  | .sFx => [[1, 500], [0, 40]]
  | .sFxEfx => [[1, 500, 7], [0, 40, 9]]
  | .sFxNcob => [[1, 500, 7, 8], [0, 40, 9, 9]]
  | .sFxEfxNcobEcob => [[1, 500, 7, 8, 9, 1, 2], [0, 40, 9, 9, 9, 1, 3]]
  | _ => [[100], [98]]

/-- The launch state of `twoSamples`, which stand in the model buffer too. -/
def launchTwo (sh : Shape) : State := launch sh (twoSamples sh) (twoSamples sh)

/-- Legal operands for every compressing mode with two samples: two rounded bits, half weight on the model. -/
def legalOps : JobOperands := ops 3 16 8 2 2 16 0xB

/-- The bounds of the ranges at once: the largest parameter and its largest spill, the largest weight and rounding. -/
def extremeOps : JobOperands := ops 65535 1048545 16 3 2 16 0xB

theorem witness_DecodeEncodeRoundTrip : (Instr.modelMulti (ops 1 2 0 0 3 3 0xF)).wellFormed = true := by decide

theorem witness_DecodedJobKeepsEveryBit :
    decode [2, 1, 2, 3, 4, 5, 6, 0xFFFFFFFB, 0x1000, 0x3000, 0, 0x2000] = .ok (.diffZero (ops 1 2 3 4 5 6 0xB)) := by decide

theorem witness_UnrecognisedModesRejected : ((wordsWithMode 7).drop 1).length = 11 := by decide

theorem witness_ModeClasses : descriptor 203 = some { shape := .u32, pre := .diff, esc := some .multi } := by decide

/-- A state whose next move is the start of P1's job. -/
def starting (pace : Pace) (cfg : JobRecord) : State :=
  { launch .u16 [[10], [12], [9], [9]] [] with hostQueue := [.writeReg 0 1], pace := pace, cfg := cfg }

theorem witness_StepRunsDecodedJob :
    (starting .wholeJob diffCfg).hostQueue = .writeReg 0 1 :: [] ∧ (1 : Word).getLsbD 0 = true
      ∧ (starting .wholeJob diffCfg).status.busy = false ∧ (starting .wholeJob diffCfg).pace = .wholeJob
      ∧ decode (fetchWords (starting .wholeJob diffCfg).cfg)
          = .ok (.diffZero { ops 4 8 0 0 4 2 0x9 with cfgPresent := 0x9 }) := by decide

theorem witness_StartCommandLatchesCfg :
    (starting .byPhase diffCfg).hostQueue = .writeReg 0 1 :: [] ∧ (1 : Word).getLsbD 0 = true
      ∧ (starting .byPhase diffCfg).status.busy = false ∧ (starting .byPhase diffCfg).pace = .byPhase := by decide

theorem witness_UnrecognisedModeJob :
    (starting .wholeJob { diffCfg with mode := 7 }).status.busy = false
      ∧ (7 : Word) ∉ rawModeCodes ++ diffModeCodes ++ modelModeCodes
      ∧ (0xFFFFFFFF : Word) ∉ rawModeCodes ++ diffModeCodes ++ modelModeCodes := by decide

/-- One witness for each of the two grounds: busy, and bit 0 clear. -/
theorem witness_StartIgnored :
    running.status.busy = true ∧ (0xFFFFFFFE : Word).getLsbD 0 = false ∧ (starting .wholeJob diffCfg).status.busy = false := by
  decide

/-- The offsets where the clauses meet: the first and the last CFG register, `CFG_PRESENT`, a read-only one. -/
theorem witness_CfgWriteReadsBack :
    ∀ offset ∈ [0x04, 0x10, 0x2C, 0x3C, 0x40],
      ({ running with hostQueue := [.writeReg offset 0xFFFFFFFF] } : State).hostQueue = .writeReg offset 0xFFFFFFFF :: []
        ∧ offset ≠ 0 := by decide

theorem witness_RegisterReads : (launchTwo .u16).status.busy = false ∧ running.status.busy = true := by decide

/-- The descriptor of P1's job. -/
def diffDescriptor : Descriptor := { shape := .u16, pre := .diff, esc := some .zero }

/-- The last address of MEM and the first beyond it; the borrowed input's last byte and the byte after it; the base of an
absent handle. -/
theorem witness_HostMemoryWrite :
    2 ^ 32 ≤ 4294967296 ∧ 4294967295 < 2 ^ 32 ∧ running.status.busy = true
      ∧ descriptor running.j.mode = some diffDescriptor ∧ InBuffers running.j diffDescriptor 0x1007
      ∧ ¬ InBuffers running.j diffDescriptor 0x1008
      ∧ descriptor runningNoOutput.j.mode = some diffDescriptor ∧ ¬ InBuffers runningNoOutput.j diffDescriptor 0x2000
      ∧ (launchTwo .u16).status.busy = false := by
  unfold InBuffers Handle.holds
  decide

/-- The same boundaries for reading, and a write of the host that lands while a job runs. -/
theorem witness_HostMemoryRead :
    2 ^ 32 ≤ 4294967296 ∧ running.status.busy = true ∧ descriptor running.j.mode = some diffDescriptor
      ∧ InBuffers running.j diffDescriptor 0x2000 ∧ 0x1008 < 2 ^ 32 ∧ ¬ InBuffers running.j diffDescriptor 0x1008
      ∧ (launchTwo .u16).status.busy = false
      ∧ ∃ t, step { running with hostQueue := [.writeMem 0x1008 0x5A] } = .next t := by
  refine ⟨by decide, by decide, by decide, ?_, by decide, ?_, by decide, _, rfl⟩ <;>
    · unfold InBuffers Handle.holds
      decide

/-- A reset during a job, one between jobs, and one for each ground on which MEM is kept: an unrecognised mode, a problem, no
samples, an overlap, a copy that does not fit. -/
theorem witness_ResetMove :
    ({ running with hostQueue := [.reset] } : State).hostQueue = .reset :: [] ∧ running.status.busy = true
      ∧ descriptor running.j.mode = some diffDescriptor
      ∧ ({ launchTwo .u16 with hostQueue := [.reset] } : State).status.busy = false
      ∧ descriptor 7 = none ∧ 0 < validateCount runningNoOutput.j ∧ (jobOf (.raw (ops 0 0 0 0 0 0 0x9))).samples = 0
      ∧ ¬ LaunchPremises (jobOf (.raw { ops 0 0 0 0 3 3 0x9 with outputBase := 0x1004 }))
          { shape := .u16, pre := .none, esc := none }
      ∧ capacity (jobOf (.rawSFx (ops 0 0 0 0 2 2 0x9))) / 8 < sampleSpan (jobOf (.rawSFx (ops 0 0 0 0 2 2 0x9))) .sFx :=
  ⟨rfl, by decide, by decide, by decide, by decide, by decide, by decide,
    fun h => absurd h.disjoint (by decide +kernel), by decide⟩

theorem witness_RunningJobIgnoresCfg : ∃ t, coreMove running = .next t := ⟨_, rfl⟩

theorem witness_RawShortCircuit : isRaw 0 = true ∧ isRaw 100 = true := by decide

/-- One problem, without a bit and with one, and six. -/
theorem witness_ConfigErrorOutcome :
    validateCount (jobOf (.diffZero (ops 4 8 0 0 4 2 0x8))) = 1 ∧ validateBits (jobOf (.diffZero (ops 4 8 0 0 4 2 0x8))) = 0
      ∧ ((checksOf (jobOf (.diffZero (ops 4 8 0 0 4 2 0x8)))).all (fun c => !c.1 || c.2.isNone)) = true
      ∧ validateCount (jobOf (.modelMulti (ops 0 0 17 4 1 0 0xA))) = 6 := by decide +kernel

theorem valid_legal_model : ValidConfig (jobOf (.modelZero legalOps)) := by constructor <;> decide +kernel

theorem valid_extreme_model : ValidConfig (jobOf (.modelMulti extremeOps)) := by constructor <;> decide +kernel

theorem witness_EmptyJobOutcome :
    ValidConfig (jobOf (.raw (ops 0 0 0 0 0 0 0x9))) ∧ (jobOf (.raw (ops 0 0 0 0 0 0 0x9))).samples = 0
      ∧ ValidConfig (jobOf (.diffMulti32 (ops 4 104 99 3 0 0 0x9))) ∧ (jobOf (.diffMulti32 (ops 4 104 99 3 0 0 0x9))).samples = 0 :=
  ⟨by constructor <;> decide +kernel, by decide, by constructor <;> decide +kernel, by decide⟩

/-- Both sides: a launch that keeps the premises, and one whose output overlaps the input. -/
theorem witness_LaunchRefusedExactly :
    descriptor (jobOf (.raw (ops 0 0 0 0 3 3 0x9))).mode = some { shape := .u16, pre := .none, esc := none }
      ∧ LaunchPremises (jobOf (.raw (ops 0 0 0 0 3 3 0x9))) { shape := .u16, pre := .none, esc := none }
      ∧ ¬ LaunchPremises (jobOf (.raw { ops 0 0 0 0 3 3 0x9 with outputBase := 0x1004 }))
          { shape := .u16, pre := .none, esc := none } :=
  ⟨by decide, by constructor <;> decide +kernel, fun h => absurd h.disjoint (by decide +kernel)⟩

theorem witness_BigEndianPrimitives : (1 ∈ [1, 2, 4]) ∧ (2 ∈ [1, 2, 4]) ∧ (4 ∈ [1, 2, 4]) := by decide

/-- The first and the last field of the longest shape, in samples that end at the top of MEM. -/
theorem witness_FieldAccess :
    (⟨.expFlags, .w8, 0⟩ : Field) ∈ shapeFields .sFxEfxNcobEcob ∧ (⟨.ecobY, .w32, 21⟩ : Field) ∈ shapeFields .sFxEfxNcobEcob
      ∧ (at_ (BitVec.ofNat 32 (2 ^ 32 - 50))).base.toNat + (1 + 1) * sampleBytes .sFxEfxNcobEcob ≤ 2 ^ 32
      ∧ ((1, (⟨.ecobY, .w32, 21⟩ : Field)) ≠ (0, ⟨.expFlags, .w8, 0⟩)) := by decide

/-- `n` at 0, 1, 32 and 33, and a write that ends at the capacity and one bit beyond it. -/
theorem witness_PutReturnCodes :
    (0 = 0 ∨ 32 < 0) ∧ (33 = 0 ∨ 32 < 33) ∧ (1 ≤ 5 ∧ 5 ≤ 32 ∧ 32 < 28 + 5) ∧ (1 ≤ 4 ∧ 4 ≤ 32 ∧ 28 + 4 ≤ 32)
      ∧ (1 ≤ 32 ∧ 32 ≤ 32 ∧ 0 + 32 ≤ 32) := by decide

/-- A buffer that ends at the top of MEM, and a split write that ends at its capacity. -/
theorem witness_PutWritesItsBits :
    64 % 32 = 0 ∧ (at_ 0xFFFFFFF8).base.toNat + 64 / 8 ≤ 2 ^ 32 ∧ 1 ≤ 32 ∧ 32 ≤ 32 ∧ 31 + 32 ≤ 64 ∧ 32 + 32 ≤ 64 := by decide

theorem witness_FullWordPut : 32 * 1 + 32 ≤ 64 := by decide

/-- An empty stream, a stream of 30 bits and one that fills the capacity. -/
theorem witness_TailPadding :
    ∀ n ∈ [0, 30, 32],
      ({ running with enc := { running.enc with streamLen := n } } : State).enc.streamLen ≤ capacity running.j
        ∧ running.j.output.base.toNat + capacity running.j / 8 ≤ 2 ^ 32 := by decide

/-- The latched state of a compressing job. -/
def latched (i : Instr) (sh : Shape) : State := latchJob (jobOf i) (launchTwo sh)

/-- An input that ends at the top of MEM. -/
theorem witness_DifferencePhase :
    (at_ 0xFFFFFFF6).base.toNat + (2 : Word).toNat * sampleBytes .sFx ≤ 2 ^ 32
      ∧ 0 < (latched (.diffZeroSFx legalOps) .sFx).j.samples.toNat
      ∧ (latched (.diffZeroSFx legalOps) .sFx).j.input.base.toNat
          + (latched (.diffZeroSFx legalOps) .sFx).j.samples.toNat * sampleBytes .sFx ≤ 2 ^ 32 := by decide

/-- The hypotheses of `ModelPhase` for one state. -/
def ModelPremises (s : State) (sh : Shape) : Prop :=
  let span := s.j.samples.toNat * sampleBytes sh
  let input : Extent := { base := s.j.input.base.toNat, len := span }
  let model : Extent := { base := s.j.model.base.toNat, len := span }
  let target : Extent :=
    { base := (if s.j.updatedModel.present then s.j.updatedModel else s.j.model).base.toNat, len := span }
  (∀ e ∈ [input, model, target], e.base + e.len ≤ 2 ^ 32) ∧ input.disjoint model = true ∧ input.disjoint target = true
    ∧ (target = model ∨ target.disjoint model = true) ∧ 0 < s.j.samples.toNat

/-- The three targets: no updated model, the same buffer as the model, another one that starts where the model ends. -/
theorem witness_ModelPhase :
    ModelPremises (latched (.modelZero32 legalOps) .u32) .u32
      ∧ ModelPremises (latched (.modelZero32 { legalOps with cfgPresent := 0xF, updatedModelBase := 0x3000 }) .u32) .u32
      ∧ ModelPremises (latched (.modelZero32 { legalOps with cfgPresent := 0xF, updatedModelBase := 0x3008 }) .u32) .u32
      ∧ (latched (.modelZero32 { legalOps with cfgPresent := 0xF, updatedModelBase := 0x3008 }) .u32).j.updatedModel.present = true
      ∧ (latched (.modelZero32 { legalOps with cfgPresent := 0xF, updatedModelBase := 0x3008 }) .u32).j.updatedModel.base
          ≠ (latched (.modelZero32 { legalOps with cfgPresent := 0xF, updatedModelBase := 0x3008 }) .u32).j.model.base := by
  unfold ModelPremises
  decide

theorem witness_BlendBetweenOperands : (0 ≤ 16) ∧ (16 ≤ 16) := by decide

/-- An input that ends at the top of MEM. -/
theorem witness_MapPhase :
    ({ running with j := { running.j with input := at_ 0xFFFFFFF8 } } : State).j.input.base.toNat
        + running.j.samples.toNat * sampleBytes .u16 ≤ 2 ^ 32 := by decide

/-- The least parameter that is no power of two; 0 is below its cutoff 1, and 1 is not. -/
theorem witness_GolombCodewordBits :
    3 ≤ 3 ∧ (∀ k, 3 ≠ 2 ^ k) ∧ 0 < 2 ^ (ilog2 3 + 1) - 3 ∧ 2 ^ (ilog2 3 + 1) - 3 ≤ 1 := by
  refine ⟨by decide, fun k => ?_, by decide +kernel, by decide +kernel⟩
  rcases k with _ | _ | k
  · decide
  · decide
  · rw [Nat.pow_add]
    omega

theorem witness_NormalCodePrefixFree : (1 ≤ 1) ∧ (1 ≤ 65535) := by decide

theorem witness_MultiOffsetTable : (0 < 2 ^ 32) ∧ (0xFFFFFFFF < 2 ^ 32) := by decide

theorem witness_MaxSpillBudget : (1 ≤ 1 ∧ 1 ≤ 65535) ∧ (1 ≤ 65535 ∧ 65535 ≤ 65535) ∧ (0 = 0 ∨ 65535 < 0) ∧ 65535 < 65536 := by
  decide

theorem witness_PrimaryEncoderWithinBudget :
    ValidConfig (jobOf (.modelMulti extremeOps)) ∧ isRaw (jobOf (.modelMulti extremeOps)).mode = false :=
  ⟨valid_extreme_model, by decide⟩

/-- Values at the edges of the clauses: 31 and 32 on the normal path, 255 as an outlier, spills 28 and 32. -/
theorem witness_ExposureFlagsBudget : (31 < 256) ∧ (32 < 256) ∧ (255 < 256) ∧ (28 ≤ 28) ∧ (32 ≤ 32) := by decide

/-- The encoder's state at the start of ENCODE with a capacity of 32 bits. -/
def encoding : State := { running with j := { running.j with golombPar := 4, spill := 8 } }

/-- One value that fits, one whose codeword is too long, and one whose raw bits exceed the capacity. -/
theorem witness_EncodeValueAppendsEmission :
    (encoderSetup 4 8 .zero).coherent ∧ (encoderSetup 1 60 .zero).coherent ∧ encoding.enc.streamLen ≤ capacity encoding.j
      ∧ encoding.j.output.base.toNat + capacity encoding.j / 8 ≤ 2 ^ 32
      ∧ (headFits 5 (encoderSetup 4 8 .zero)
        ∧ encoding.enc.streamLen + (emissionBits 5 16 (encoderSetup 4 8 .zero)).length ≤ capacity encoding.j)
      ∧ ¬ headFits 40 (encoderSetup 1 60 .zero)
      ∧ (headFits 21 (encoderSetup 4 8 .zero)
        ∧ capacity encoding.j < encoding.enc.streamLen + (emissionBits 21 32 (encoderSetup 4 8 .zero)).length) := by
  unfold EncSetup.coherent headFits
  decide +kernel

theorem witness_DecodeInvertsEmission : (1 ≤ 65535) ∧ (32 ≤ 32) ∧ (0xFFFFFFFF < 2 ^ 32) := by decide

/-- A job that ends well has a next state to speak of. -/
theorem ends_well {i : Instr} {s : State} (h : seen (fun s => s.status.kind) (exec i s) = some .ok) :
    ∃ t, exec i s = .next t ∧ t.status.kind = .ok := by
  cases hr : exec i s with
  | next t => exact ⟨t, rfl, by simpa [seen, hr] using h⟩
  | fault e => simp [seen, hr] at h
  | refused e => simp [seen, hr] at h

/-- A difference job, a model job and a raw job that end well. -/
theorem witness_DecompressRoundTrip :
    (∃ t, exec (.diffMulti legalOps) (launchTwo .u16) = .next t ∧ t.status.kind = .ok)
      ∧ (∃ t, exec (.modelZero32 legalOps) (launchTwo .u32) = .next t ∧ t.status.kind = .ok)
      ∧ (∃ t, exec (.rawSFx (ops 0 0 0 9 2 5 0x9)) (launchTwo .sFx) = .next t ∧ t.status.kind = .ok)
      ∧ descriptor (jobOf (.diffMulti legalOps)).mode = some { shape := .u16, pre := .diff, esc := some .multi }
      ∧ descriptor (jobOf (.modelZero32 legalOps)).mode = some { shape := .u32, pre := .model, esc := some .zero }
      ∧ descriptor (jobOf (.rawSFx (ops 0 0 0 9 2 5 0x9))).mode = some { shape := .sFx, pre := .none, esc := none } :=
  ⟨ends_well (by decide +kernel), ends_well (by decide +kernel), ends_well (by decide +kernel), by decide, by decide, by decide⟩

/-- The hypotheses of `RawCompletes`, met by a copy that fills the capacity. -/
theorem witness_RawModesComplete :
    (Launchable (jobOf (.raw (ops 0 0 0 0 2 2 0x9))) { shape := .u16, pre := .none, esc := none }
        ∧ sampleSpan (jobOf (.raw (ops 0 0 0 0 2 2 0x9))) .u16 ≤ capacity (jobOf (.raw (ops 0 0 0 0 2 2 0x9))) / 8)
      ∧ (Launchable (jobOf (.rawSFx (ops 0 0 0 0 4 10 0x9))) { shape := .sFx, pre := .none, esc := none }
        ∧ sampleSpan (jobOf (.rawSFx (ops 0 0 0 0 4 10 0x9))) .sFx ≤ capacity (jobOf (.rawSFx (ops 0 0 0 0 4 10 0x9))) / 8) :=
  ⟨⟨⟨by constructor <;> decide +kernel, by decide, by constructor <;> decide +kernel⟩, by decide⟩,
    ⟨by constructor <;> decide +kernel, by decide, by constructor <;> decide +kernel⟩, by decide⟩

theorem witness_RawCapacityError :
    Launchable (jobOf (.rawSFx (ops 0 0 0 0 2 2 0x9))) { shape := .sFx, pre := .none, esc := none }
      ∧ capacity (jobOf (.rawSFx (ops 0 0 0 0 2 2 0x9))) / 8 < sampleSpan (jobOf (.rawSFx (ops 0 0 0 0 2 2 0x9))) .sFx
      ∧ ValidConfig (jobOf (.raw (ops 0 0 0 0 3 3 0x9))) :=
  ⟨⟨by constructor <;> decide +kernel, by decide, by constructor <;> decide +kernel⟩, by decide,
    by constructor <;> decide +kernel⟩

/-- The hypotheses of `CompressionCompletes` for one instruction and one state. -/
def MayComplete (i : Instr) (sh : Shape) (pre : Pre) (esc : Escape) (s : State) : Prop :=
  Launchable (jobOf i) { shape := sh, pre := pre, esc := some esc } ∧ ExposureFlagsFit (jobOf i) sh pre esc s.mem
    ∧ (jobBits (jobOf i) sh pre esc s.mem).length ≤ capacity (jobOf i)

theorem witness_ScalarModesComplete :
    MayComplete (.modelZero legalOps) .u16 .model .zero (launchTwo .u16)
      ∧ MayComplete (.diffZero legalOps) .u16 .diff .zero (launchTwo .u16)
      ∧ MayComplete (.modelMulti extremeOps) .u16 .model .multi (launchTwo .u16)
      ∧ MayComplete (.diffMulti legalOps) .u16 .diff .multi (launchTwo .u16)
      ∧ MayComplete (.modelZeroFFx legalOps) .fFx .model .zero (launchTwo .fFx)
      ∧ MayComplete (.diffZeroFFx legalOps) .fFx .diff .zero (launchTwo .fFx)
      ∧ MayComplete (.modelMultiFFx legalOps) .fFx .model .multi (launchTwo .fFx)
      ∧ MayComplete (.diffMultiFFx legalOps) .fFx .diff .multi (launchTwo .fFx)
      ∧ MayComplete (.modelZero32 legalOps) .u32 .model .zero (launchTwo .u32)
      ∧ MayComplete (.diffZero32 extremeOps) .u32 .diff .zero (launchTwo .u32)
      ∧ MayComplete (.modelMulti32 legalOps) .u32 .model .multi (launchTwo .u32)
      ∧ MayComplete (.diffMulti32 legalOps) .u32 .diff .multi (launchTwo .u32) := by
  refine ⟨?_, ?_, ?_, ?_, ?_, ?_, ?_, ?_, ?_, ?_, ?_, ?_⟩ <;>
    exact ⟨⟨by constructor <;> decide +kernel, by decide, by constructor <;> decide +kernel⟩,
      by unfold ExposureFlagsFit headFits; decide +kernel, by decide +kernel⟩

/-- Legal operands for the exposure modes at the largest spill that R341 allows for all data under the multi escape. -/
def exposureOps : JobOperands := ops 3 28 8 2 2 60 0xB

theorem witness_ExposureModesComplete :
    MayComplete (.modelZeroSFx exposureOps) .sFx .model .zero (launchTwo .sFx)
      ∧ MayComplete (.diffZeroSFx exposureOps) .sFx .diff .zero (launchTwo .sFx)
      ∧ MayComplete (.modelMultiSFx exposureOps) .sFx .model .multi (launchTwo .sFx)
      ∧ MayComplete (.diffMultiSFx exposureOps) .sFx .diff .multi (launchTwo .sFx)
      ∧ MayComplete (.modelZeroSFxEfx exposureOps) .sFxEfx .model .zero (launchTwo .sFxEfx)
      ∧ MayComplete (.diffZeroSFxEfx exposureOps) .sFxEfx .diff .zero (launchTwo .sFxEfx)
      ∧ MayComplete (.modelMultiSFxEfx exposureOps) .sFxEfx .model .multi (launchTwo .sFxEfx)
      ∧ MayComplete (.diffMultiSFxEfx exposureOps) .sFxEfx .diff .multi (launchTwo .sFxEfx)
      ∧ MayComplete (.modelZeroSFxNcob exposureOps) .sFxNcob .model .zero (launchTwo .sFxNcob)
      ∧ MayComplete (.diffZeroSFxNcob exposureOps) .sFxNcob .diff .zero (launchTwo .sFxNcob)
      ∧ MayComplete (.modelMultiSFxNcob exposureOps) .sFxNcob .model .multi (launchTwo .sFxNcob)
      ∧ MayComplete (.diffMultiSFxNcob exposureOps) .sFxNcob .diff .multi (launchTwo .sFxNcob)
      ∧ MayComplete (.modelZeroSFxEfxNcobEcob exposureOps) .sFxEfxNcobEcob .model .zero (launchTwo .sFxEfxNcobEcob)
      ∧ MayComplete (.diffZeroSFxEfxNcobEcob exposureOps) .sFxEfxNcobEcob .diff .zero (launchTwo .sFxEfxNcobEcob)
      ∧ MayComplete (.modelMultiSFxEfxNcobEcob exposureOps) .sFxEfxNcobEcob .model .multi (launchTwo .sFxEfxNcobEcob)
      ∧ MayComplete (.diffMultiSFxEfxNcobEcob exposureOps) .sFxEfxNcobEcob .diff .multi (launchTwo .sFxEfxNcobEcob) := by
  refine ⟨?_, ?_, ?_, ?_, ?_, ?_, ?_, ?_, ?_, ?_, ?_, ?_, ?_, ?_, ?_, ?_⟩ <;>
    exact ⟨⟨by constructor <;> decide +kernel, by decide, by constructor <;> decide +kernel⟩,
      by unfold ExposureFlagsFit headFits; decide +kernel, by decide +kernel⟩

/-- P8's job: the first `exp_flags` of the second sample is over the budget. -/
theorem witness_FirstErrorEndsJob_internal :
    Launchable (jobOf (.diffZeroSFx (ops 4 60 0 0 2 8 0x9))) { shape := .sFx, pre := .diff, esc := some .zero }
      ∧ FirstFailure (jobOf (.diffZeroSFx (ops 4 60 0 0 2 8 0x9))) .sFx .diff .zero (launch .sFx [[0, 5], [20, 5]] []).mem
          [(0, ⟨.expFlags, .w8, 0⟩), (0, ⟨.fx, .w32, 1⟩)] 1 ⟨.expFlags, .w8, 0⟩ [(1, ⟨.fx, .w32, 1⟩)]
      ∧ ¬ headFits (mappedValue (jobOf (.diffZeroSFx (ops 4 60 0 0 2 8 0x9))) .sFx .diff .zero
            (launch .sFx [[0, 5], [20, 5]] []).mem 1 ⟨.expFlags, .w8, 0⟩).toNat
          (setupOf (jobOf (.diffZeroSFx (ops 4 60 0 0 2 8 0x9))) .zero ⟨.expFlags, .w8, 0⟩) :=
  ⟨⟨by constructor <;> decide +kernel, by decide, by constructor <;> decide +kernel⟩,
    ⟨by decide +kernel, by unfold headFits; decide +kernel, by decide +kernel⟩, by unfold headFits; decide +kernel⟩

/-- A job of two samples whose second emission does not fit one output word. -/
theorem witness_FirstErrorEndsJob_capacity :
    Launchable (jobOf (.diffZero (ops 4 8 0 0 2 2 0x9))) { shape := .u16, pre := .diff, esc := some .zero }
      ∧ FirstFailure (jobOf (.diffZero (ops 4 8 0 0 2 2 0x9))) .u16 .diff .zero (launch .u16 [[10], [100]] []).mem
          [(0, ⟨.v, .w16, 0⟩)] 1 ⟨.v, .w16, 0⟩ []
      ∧ headFits (mappedValue (jobOf (.diffZero (ops 4 8 0 0 2 2 0x9))) .u16 .diff .zero
            (launch .u16 [[10], [100]] []).mem 1 ⟨.v, .w16, 0⟩).toNat
          (setupOf (jobOf (.diffZero (ops 4 8 0 0 2 2 0x9))) .zero ⟨.v, .w16, 0⟩)
      ∧ capacity (jobOf (.diffZero (ops 4 8 0 0 2 2 0x9)))
          < (([(0, ⟨.v, .w16, 0⟩)] ++ [(1, ⟨.v, .w16, 0⟩)] : List (Nat × Field)).flatMap
              (fun x => fieldBits (jobOf (.diffZero (ops 4 8 0 0 2 2 0x9))) .u16 .diff .zero
                (launch .u16 [[10], [100]] []).mem x.1 x.2)).length :=
  ⟨⟨by constructor <;> decide +kernel, by decide, by constructor <;> decide +kernel⟩,
    ⟨by decide +kernel, by unfold headFits; decide +kernel, by decide +kernel⟩, by unfold headFits; decide +kernel,
    by decide +kernel⟩

/-- A next state, for the statements about every next state of `exec`. -/
theorem witness_FourOutcomes : ∃ t, exec (.diffZero (ops 4 8 0 0 4 2 0x8)) State.reset = .next t := ⟨_, rfl⟩

theorem witness_StoresOnlyWritable :
    (∃ t, exec (.diffZero (ops 4 8 0 0 4 2 0x8)) State.reset = .next t)
      ∧ descriptor (jobOf (.diffZero (ops 4 8 0 0 4 2 0x8))).mode = some { shape := .u16, pre := .diff, esc := some .zero }
      ∧ 0 < validateCount (jobOf (.diffZero (ops 4 8 0 0 4 2 0x8))) := ⟨⟨_, rfl⟩, by decide, by decide +kernel⟩

/-- Two states with the same MEM and different registers. -/
theorem witness_JobForgetsHistory :
    (launchTwo .u16).mem = ({ launchTwo .u16 with cfg := diffCfg, j := diffCfg, seq := { phase := .done, i := 7, f := 1 } } : State).mem
      ∧ (launchTwo .u16).freeDraws
        = ({ launchTwo .u16 with cfg := diffCfg, j := diffCfg, seq := { phase := .done, i := 7, f := 1 } } : State).freeDraws :=
  ⟨rfl, rfl⟩

/-- Operands that differ in every word that a difference mode does not use. -/
theorem witness_UnusedWordsIgnored :
    (legalOps.samples = ({ legalOps with modelValue := 99, modelBase := 1, updatedModelBase := 2, cfgPresent := 0xD } : JobOperands).samples)
      ∧ legalOps.cfgPresent.getLsbD 0 = (0xD : Word).getLsbD 0 ∧ legalOps.cfgPresent.getLsbD 3 = (0xD : Word).getLsbD 3 := by
  decide

/-- A running job right after its latch meets the invariant. -/
theorem witness_PhasesAdvance : running.Inv ∧ running.status.busy = true := by
  refine ⟨?_, by decide⟩
  constructor
  case primary => exact ⟨by decide, by decide +kernel⟩
  case secondary => exact ⟨by decide, by decide +kernel⟩
  case configResult => exact fun h => absurd h (by decide)
  case beyondValidate => exact fun h => absurd h (by decide)
  all_goals decide +kernel

/-- The same job entering PRE meets the invariant too: the validator and the premises have let it pass. -/
theorem witness_PhasesAdvance_beyond_validate : ({ running with seq := { phase := .pre, i := 0, f := 0 } } : State).Inv := by
  constructor
  case primary => exact ⟨by decide, by decide +kernel⟩
  case secondary => exact ⟨by decide, by decide +kernel⟩
  case configResult => exact fun h => absurd h (by decide)
  case beyondValidate =>
    exact fun _ => ⟨{ shape := .u16, pre := .diff, esc := some .zero }, by decide,
      ⟨by constructor <;> decide +kernel, by decide, by constructor <;> decide +kernel⟩, fun h => absurd h (by decide)⟩
  all_goals decide +kernel

theorem witness_StepKeepsInvariant :
    running.Inv ∧ ∃ t, step { running with hostQueue := [.writeReg 0x24 99] } = .next t :=
  ⟨witness_PhasesAdvance.1, ⟨_, rfl⟩⟩

end Sys2Proof.Tests
end

section
/-! The validator's short circuit for raw modes (40_validator.md R112). -/

namespace Sys2Proof.Proofs.Validator

open Sys2Proof.Machine

/-- A raw mode ends the validation after V11. -/
theorem checksOf_of_isRaw {j : JobRecord} (hraw : isRaw j.mode = true) : checksOf j = checksAlways j :=
  if_pos hraw

/-- V1 to V11 read the mode, the two sizes and the handles only. -/
@[simp] theorem checksAlways_with_parameters (j : JobRecord) (golombPar spill modelValue round : Word) :
    checksAlways { j with golombPar := golombPar, spill := spill, modelValue := modelValue, round := round }
      = checksAlways j := rfl

/-- Settles O18: a raw job is checked by V1 to V11, with any parameters, and these do not read the parameters. -/
theorem rawShortCircuit : Obligations.RawShortCircuit := by
  intro j golombPar spill modelValue round hraw
  refine ⟨checksOf_of_isRaw hraw, ?_⟩
  calc checksOf { j with golombPar := golombPar, spill := spill, modelValue := modelValue, round := round }
      = checksAlways { j with golombPar := golombPar, spill := spill, modelValue := modelValue, round := round } :=
        checksOf_of_isRaw hraw
    _ = checksAlways j := checksAlways_with_parameters j golombPar spill modelValue round
    _ = checksOf j := (checksOf_of_isRaw hraw).symm

end Sys2Proof.Proofs.Validator
end

section
/-! The packed layout of a sample buffer and the access to its fields (20_memory.md R53, R54): fields of one buffer do not
overlap, a write is read back, and it leaves every other field and every byte outside alone. -/

namespace Sys2Proof.Proofs.Fields

open Sys2Proof.Machine

/-! ### What a change of MEM keeps -/

theorem keptOutside_refl (es : List Extent) (m : Memory) : KeptOutside es m m := fun _ _ => rfl

theorem keptOutside_trans {es : List Extent} {m₁ m₂ m₃ : Memory} (h₁₂ : KeptOutside es m₁ m₂)
    (h₂₃ : KeptOutside es m₂ m₃) : KeptOutside es m₁ m₃ :=
  fun a ha => (h₂₃ a ha).trans (h₁₂ a ha)

/-- What is kept outside an extent is kept outside a larger one. -/
theorem keptOutside_widen {e e' : Extent} {m m' : Memory} (h : KeptOutside [e] m m') (hbase : e'.base ≤ e.base)
    (hend : e.base + e.len ≤ e'.base + e'.len) : KeptOutside [e'] m m' := by
  intro a ha
  refine h a (fun x hx => ?_)
  have hout := ha e' List.mem_cons_self
  rw [List.mem_singleton.mp hx]
  simp only [← Bool.not_eq_true, Extent.covers_iff] at hout ⊢
  omega

/-- What every step of a loop keeps, the loop keeps. -/
theorem keptOutside_foldl {α : Type} {es : List Extent} {step : Memory → α → Memory} {l : List α}
    (hstep : ∀ m, ∀ x ∈ l, KeptOutside es m (step m x)) (m : Memory) : KeptOutside es m (l.foldl step m) :=
  List.foldlRecOn l step (keptOutside_refl es m) (fun m' hm' x hx => keptOutside_trans hm' (hstep m' x hx))

/-! ### The layout of a sample -/

/-- Every field lies inside its sample (30_encoding.md R84). -/
theorem field_end_le_sampleBytes {sh : Shape} :
    ∀ f ∈ shapeFields sh, f.off + f.width.bytes ≤ sampleBytes sh := by
  cases sh <;> decide

/-- Two fields of one shape do not overlap (30_encoding.md R84). -/
theorem fields_apart {sh : Shape} :
    ∀ f ∈ shapeFields sh, ∀ g ∈ shapeFields sh, f ≠ g →
      f.off + f.width.bytes ≤ g.off ∨ g.off + g.width.bytes ≤ f.off := by
  cases sh <;> decide

theorem shapeFields_nodup (sh : Shape) : (shapeFields sh).Nodup := by
  cases sh <;> decide

theorem two_pow_bits (w : Width) : 2 ^ w.bits = 256 ^ w.bytes := by
  cases w <;> decide

theorem biased_iff (f : Field) : f.biased = true ↔ f.name ≠ .expFlags := bne_iff_ne

/-! ### The addresses of fields -/

/-- `f` is a field of the shape, and sample `i` of the buffer does not run over the top of MEM (70_reset_and_hazards.md
R336). -/
structure FieldFits (h : Handle) (sh : Shape) (i : Nat) (f : Field) : Prop where
  mem : f ∈ shapeFields sh
  noWrap : h.base.toNat + (i + 1) * sampleBytes sh ≤ 2 ^ 32

/-- A sample that comes before another one in a buffer ends where that one starts, or before. -/
theorem sample_end_le {i k : Nat} (sh : Shape) (hik : i < k) :
    i * sampleBytes sh + sampleBytes sh ≤ k * sampleBytes sh := by
  rw [← Nat.succ_mul]
  exact Nat.mul_le_mul_right _ hik

/-- The samples of a buffer that does not run over the top of MEM, each by itself. -/
theorem fieldFits_of_lt {h : Handle} {sh : Shape} {i n : Nat} {f : Field}
    (hn : h.base.toNat + n * sampleBytes sh ≤ 2 ^ 32) (hi : i < n) (hf : f ∈ shapeFields sh) : FieldFits h sh i f :=
  ⟨hf, Nat.le_trans (Nat.add_le_add_left (Nat.mul_le_mul_right _ hi) _) hn⟩

theorem fieldAddress_end_le {h : Handle} {sh : Shape} {i : Nat} {f : Field} (hf : f ∈ shapeFields sh) :
    fieldAddress h sh i f + f.width.bytes ≤ h.base.toNat + (i * sampleBytes sh + sampleBytes sh) := by
  have hend := field_end_le_sampleBytes f hf
  unfold fieldAddress
  omega

theorem FieldFits.end_le {h : Handle} {sh : Shape} {i : Nat} {f : Field} (hfit : FieldFits h sh i f) :
    fieldAddress h sh i f + f.width.bytes ≤ 2 ^ 32 := by
  obtain ⟨hf, hwrap⟩ := hfit
  rw [Nat.succ_mul] at hwrap
  exact Nat.le_trans (fieldAddress_end_le hf) hwrap

/-- Different fields of one buffer lie apart: of different samples by the size of a sample, of one sample by the layout. -/
theorem fieldAddress_apart {h : Handle} {sh : Shape} {i k : Nat} {f g : Field} (hf : f ∈ shapeFields sh)
    (hg : g ∈ shapeFields sh) (hne : (k, g) ≠ (i, f)) :
    fieldAddress h sh i f + f.width.bytes ≤ fieldAddress h sh k g
      ∨ fieldAddress h sh k g + g.width.bytes ≤ fieldAddress h sh i f := by
  have hfend := fieldAddress_end_le (h := h) (i := i) hf
  have hgend := fieldAddress_end_le (h := h) (i := k) hg
  rcases Nat.lt_trichotomy i k with hik | rfl | hki
  · have hsamples := sample_end_le sh hik
    left
    unfold fieldAddress at *
    omega
  · have hlayout := fields_apart f hf g hg (fun hfg => hne (by rw [hfg]))
    unfold fieldAddress
    omega
  · have hsamples := sample_end_le sh hki
    right
    unfold fieldAddress at *
    omega

/-! ### Reading after writing -/

theorem fieldRead_fieldWrite_same (m : Memory) {h : Handle} {sh : Shape} {i : Nat} {f : Field}
    (v : BitVec f.width.bits) (hfit : FieldFits h sh i f) : fieldRead (fieldWrite m h sh i f v) h sh i f = v := by
  unfold fieldRead fieldWrite
  rw [Memory.read_write_same _ _ _ _ hfit.end_le, ← two_pow_bits, Nat.mod_eq_of_lt v.isLt, BitVec.ofNat_toNat,
    BitVec.setWidth_eq]

/-- A field write leaves every byte alone that is none of the field's. -/
theorem fieldWrite_keptOutside (m : Memory) {h : Handle} {sh : Shape} {i : Nat} {f : Field} (v : BitVec f.width.bits)
    (hfit : FieldFits h sh i f) :
    KeptOutside [{ base := fieldAddress h sh i f, len := f.width.bytes }] m (fieldWrite m h sh i f v) := by
  intro a ha
  have hout := ha _ List.mem_cons_self
  have hend := hfit.end_le
  simp only [← Bool.not_eq_true, Extent.covers_iff] at hout
  refine Memory.readByte_write_of_ne _ _ _ _ _ (fun k hk => ?_)
  rw [wrapAddress_of_lt (by omega)]
  omega

/-- A field is read from its own bytes. -/
theorem fieldRead_of_keptOutside {m m' : Memory} {h : Handle} {sh : Shape} {k : Nat} {g : Field} {e : Extent}
    (hkept : KeptOutside [e] m m') (hfit : FieldFits h sh k g)
    (hapart : e.base + e.len ≤ fieldAddress h sh k g ∨ fieldAddress h sh k g + g.width.bytes ≤ e.base) :
    fieldRead m' h sh k g = fieldRead m h sh k g := by
  have hend := hfit.end_le
  unfold fieldRead
  rw [Memory.read_congr]
  intro n hn
  rw [wrapAddress_of_lt (by omega)]
  refine hkept _ (fun x hx => ?_)
  rw [List.mem_singleton.mp hx, ← Bool.not_eq_true, Extent.covers_iff]
  omega

theorem fieldRead_fieldWrite_of_ne (m : Memory) {h : Handle} {sh : Shape} {i k : Nat} {f g : Field}
    (v : BitVec f.width.bits) (hf : FieldFits h sh i f) (hg : FieldFits h sh k g) (hne : (k, g) ≠ (i, f)) :
    fieldRead (fieldWrite m h sh i f v) h sh k g = fieldRead m h sh k g :=
  fieldRead_of_keptOutside (fieldWrite_keptOutside m v hf) hg (fieldAddress_apart hf.mem hg.mem hne)

end Sys2Proof.Proofs.Fields
end

section
/-! The mapper (42_mapper.md): the fold of a residual, and what the MAP phase leaves in every field and outside the input. -/

namespace Sys2Proof.Proofs.Mapper

open Sys2Proof.Machine Sys2Proof.Proofs.Fields

/-! ### The fold of one residual -/

/-- The number that the fold assigns to a residual (42_mapper.md R161). -/
def foldedInt (t : Int) : Int := if 0 ≤ t then 2 * t else -2 * t - 1

/-- The fold of a `w`-bit residual needs no more than `w` bits, the most negative residual included. -/
theorem foldedInt_toInt_bounds {w : Nat} (s : BitVec w) : 0 ≤ foldedInt s.toInt ∧ foldedInt s.toInt < 2 ^ w := by
  have hlow := BitVec.le_two_mul_toInt (x := s)
  have hhigh := BitVec.two_mul_toInt_lt (x := s)
  unfold foldedInt
  split <;> omega

/-- The arithmetic modulo `2^w` of the fold, on the residual as an integer. -/
theorem mapToPos_eq_ofInt {w : Nat} (s : BitVec w) : mapToPos s = BitVec.ofInt w (foldedInt s.toInt) := by
  have htwo : BitVec.ofInt w 2 = 2 := rfl
  unfold mapToPos foldedInt
  rw [BitVec.msb_eq_toInt]
  by_cases hs : 0 ≤ s.toInt
  · rw [if_neg (by simpa using hs), if_pos hs, BitVec.ofInt_mul, BitVec.ofInt_toInt, htwo, BitVec.mul_comm]
  · have hneg : -2 * s.toInt - 1 = -s.toInt * 2 + -1 := by omega
    rw [if_pos (by simpa using hs), if_neg hs, hneg, BitVec.ofInt_add, BitVec.ofInt_mul, BitVec.ofInt_neg,
      BitVec.ofInt_toInt, htwo, BitVec.ofInt_neg, BitVec.sub_eq_add_neg]
    rfl

theorem toNat_mapToPos {w : Nat} (s : BitVec w) : ((mapToPos s).toNat : Int) = foldedInt s.toInt := by
  obtain ⟨hnonneg, hlt⟩ := foldedInt_toInt_bounds s
  rw [mapToPos_eq_ofInt, BitVec.toNat_ofInt, Nat.cast_pow, Nat.cast_ofNat, Int.emod_eq_of_lt hnonneg hlt,
    Int.toNat_of_nonneg hnonneg]

/-- Settles O34: the fold of a residual is its folded integer, which fits the width. -/
theorem foldSignedResiduals : Obligations.FoldSignedResiduals :=
  fun _ s => toNat_mapToPos s

/-! ### The mapping of one field -/

theorem fieldRead_mapField_same (m : Memory) {h : Handle} {sh : Shape} {i : Nat} {f : Field} (esc : Escape)
    (hfit : FieldFits h sh i f) :
    fieldRead (mapField h sh esc i f m) h sh i f = mapValue esc f.biased (fieldRead m h sh i f) :=
  fieldRead_fieldWrite_same m _ hfit

theorem fieldRead_mapField_of_ne (m : Memory) {h : Handle} {sh : Shape} {i k : Nat} {f g : Field} (esc : Escape)
    (hf : FieldFits h sh i f) (hg : FieldFits h sh k g) (hne : (k, g) ≠ (i, f)) :
    fieldRead (mapField h sh esc i f m) h sh k g = fieldRead m h sh k g :=
  fieldRead_fieldWrite_of_ne m _ hf hg hne

theorem mapField_keptOutside_samples (m : Memory) {h : Handle} {sh : Shape} {i n : Nat} {f : Field} (esc : Escape)
    (hn : h.base.toNat + n * sampleBytes sh ≤ 2 ^ 32) (hi : i < n) (hf : f ∈ shapeFields sh) :
    KeptOutside [{ base := h.base.toNat, len := n * sampleBytes sh }] m (mapField h sh esc i f m) := by
  have hend := fieldAddress_end_le (h := h) (i := i) hf
  have hsamples := sample_end_le sh hi
  refine keptOutside_widen (fieldWrite_keptOutside m _ (fieldFits_of_lt hn hi hf)) ?_ ?_
  · show h.base.toNat ≤ fieldAddress h sh i f
    unfold fieldAddress
    omega
  · show fieldAddress h sh i f + f.width.bytes ≤ h.base.toNat + n * sampleBytes sh
    omega

/-! ### The mapping of a list of fields -/

/-- The fields `places` of a buffer, given by sample index and field, mapped one after the other. -/
def mapPlaces (h : Handle) (sh : Shape) (esc : Escape) (places : List (Nat × Field)) (m : Memory) : Memory :=
  places.foldl (fun m p => mapField h sh esc p.1 p.2 m) m

/-- The two loops of the MAP phase are one loop over all the fields of all the samples. -/
theorem mapMemory_eq_mapPlaces (j : JobRecord) (sh : Shape) (esc : Escape) (m : Memory) :
    mapMemory j sh esc m = mapPlaces j.input sh esc (List.range j.samples.toNat ×ˢ shapeFields sh) m := by
  unfold mapMemory mapPlaces
  simp only [SProd.sprod, List.product, List.foldl_flatMap, List.foldl_map]

theorem fieldRead_mapPlaces_of_not_mem {h : Handle} {sh : Shape} (esc : Escape) {places : List (Nat × Field)}
    {k : Nat} {g : Field} (m : Memory) (hfit : ∀ p ∈ places, FieldFits h sh p.1 p.2) (hg : FieldFits h sh k g)
    (hkg : (k, g) ∉ places) : fieldRead (mapPlaces h sh esc places m) h sh k g = fieldRead m h sh k g := by
  induction places generalizing m with
  | nil => rfl
  | cons p rest ih =>
    obtain ⟨hpfit, hrestfit⟩ := List.forall_mem_cons.mp hfit
    obtain ⟨hne, hnotin⟩ := not_or.mp (List.mem_cons.not.mp hkg)
    calc fieldRead (mapPlaces h sh esc rest (mapField h sh esc p.1 p.2 m)) h sh k g
        = fieldRead (mapField h sh esc p.1 p.2 m) h sh k g := ih _ hrestfit hnotin
      _ = fieldRead m h sh k g := fieldRead_mapField_of_ne m esc hpfit hg hne

/-- A field that is listed once is mapped once, from the value it had before the loop. -/
theorem fieldRead_mapPlaces_of_mem {h : Handle} {sh : Shape} (esc : Escape) {places : List (Nat × Field)}
    {k : Nat} {g : Field} (m : Memory) (hnodup : places.Nodup) (hfit : ∀ p ∈ places, FieldFits h sh p.1 p.2)
    (hkg : (k, g) ∈ places) :
    fieldRead (mapPlaces h sh esc places m) h sh k g = mapValue esc g.biased (fieldRead m h sh k g) := by
  induction places generalizing m with
  | nil => exact absurd hkg List.not_mem_nil
  | cons p rest ih =>
    have hg : FieldFits h sh k g := hfit _ hkg
    obtain ⟨hp, hrest⟩ := List.nodup_cons.mp hnodup
    obtain ⟨hpfit, hrestfit⟩ := List.forall_mem_cons.mp hfit
    by_cases hkp : (k, g) = p
    · subst hkp
      calc fieldRead (mapPlaces h sh esc rest (mapField h sh esc k g m)) h sh k g
          = fieldRead (mapField h sh esc k g m) h sh k g := fieldRead_mapPlaces_of_not_mem esc _ hrestfit hg hp
        _ = mapValue esc g.biased (fieldRead m h sh k g) := fieldRead_mapField_same m esc hg
    · calc fieldRead (mapPlaces h sh esc rest (mapField h sh esc p.1 p.2 m)) h sh k g
          = mapValue esc g.biased (fieldRead (mapField h sh esc p.1 p.2 m) h sh k g) :=
            ih _ hrest hrestfit (List.mem_of_ne_of_mem hkp hkg)
        _ = mapValue esc g.biased (fieldRead m h sh k g) := by
            rw [fieldRead_mapField_of_ne m esc hpfit hg hkp]

/-! ### The MAP phase -/

theorem fieldRead_mapMemory {j : JobRecord} {sh : Shape} (esc : Escape) (m : Memory)
    (hn : j.input.base.toNat + j.samples.toNat * sampleBytes sh ≤ 2 ^ 32) {i : Nat} (hi : i < j.samples.toNat)
    {f : Field} (hf : f ∈ shapeFields sh) :
    fieldRead (mapMemory j sh esc m) j.input sh i f = mapValue esc f.biased (fieldRead m j.input sh i f) := by
  rw [mapMemory_eq_mapPlaces]
  refine fieldRead_mapPlaces_of_mem esc m (List.nodup_range.product (shapeFields_nodup sh)) ?_
    (List.mem_product.mpr ⟨List.mem_range.mpr hi, hf⟩)
  intro p hp
  obtain ⟨hsample, hfield⟩ := List.mem_product.mp hp
  exact fieldFits_of_lt hn (List.mem_range.mp hsample) hfield

theorem mapMemory_keptOutside {j : JobRecord} {sh : Shape} (esc : Escape) (m : Memory)
    (hn : j.input.base.toNat + j.samples.toNat * sampleBytes sh ≤ 2 ^ 32) :
    KeptOutside [{ base := j.input.base.toNat, len := j.samples.toNat * sampleBytes sh }] m (mapMemory j sh esc m) := by
  rw [mapMemory_eq_mapPlaces]
  refine keptOutside_foldl (fun m' p hp => ?_) m
  obtain ⟨hsample, hfield⟩ := List.mem_product.mp hp
  exact mapField_keptOutside_samples m' esc hn (List.mem_range.mp hsample) hfield

/-- The mapping with the bias of a field written out (42_mapper.md R163). -/
theorem mapValue_biased (esc : Escape) (f : Field) (s : BitVec f.width.bits) :
    mapValue esc f.biased s
      = if esc = .zero ∧ f.name ≠ .expFlags then mapToPos s + 1 else mapToPos s := by
  simp only [mapValue, biased_iff]

/-- Settles O36: every field is mapped once, from the value it had when the phase began, and only fields of the input are
written. -/
theorem mapPhase : Obligations.MapPhase := by
  intro s sh esc hn
  rw [mapPhase_mem]
  refine ⟨fun i hi f hf => ?_, mapMemory_keptOutside esc s.mem hn⟩
  rw [fieldRead_mapMemory esc s.mem hn hi hf, mapValue_biased]

end Sys2Proof.Proofs.Mapper
end

section
/-! The Rice codeword as a bit string (43_entropy_encoder.md R171). The value of a codeword is `2^(l+1) · (2^q − 1) + r`,
so its bits are those of `2^q − 1` followed by the `l + 1` bits of `r < 2^l`, of which the first is the zero. -/

namespace Sys2Proof.Proofs.Rice

open Sys2Proof.Machine

/-! ### Bit strings -/

theorem binBits_two_pow_mul_add (m n a : Nat) {b : Nat} (hb : b < 2 ^ n) :
    binBits (m + n) (2 ^ n * a + b) = binBits m a ++ binBits n b := by
  simp only [binBits, List.range_add, List.map_append, List.map_map]
  congr 1
  · refine List.map_congr_left fun k hk => ?_
    have hk : k < m := List.mem_range.mp hk
    rw [Nat.testBit_two_pow_mul_add a hb, if_neg (by omega)]
    congr 1
    omega
  · refine List.map_congr_left fun k hk => ?_
    have hk : k < n := List.mem_range.mp hk
    have hindex : m + n - 1 - (m + k) = n - 1 - k := by omega
    rw [Function.comp_apply, hindex, Nat.testBit_two_pow_mul_add a hb, if_pos (by omega)]

theorem binBits_two_pow_sub_one (n : Nat) : binBits n (2 ^ n - 1) = List.replicate n true := by
  refine List.eq_replicate_iff.mpr ⟨by simp [binBits], fun b hb => ?_⟩
  obtain ⟨k, hk, rfl⟩ := List.mem_map.mp hb
  have hk : k < n := List.mem_range.mp hk
  rw [Nat.testBit_two_pow_sub_one, decide_eq_true_eq]
  omega

/-- A number that fits `l` bits has a leading zero in `l + 1` bits. -/
theorem binBits_succ_of_lt {l r : Nat} (hr : r < 2 ^ l) : binBits (1 + l) r = [false] ++ binBits l r := by
  simpa [binBits] using binBits_two_pow_mul_add 1 l 0 hr

/-! ### The setup of a power of two -/

theorem isPow2_two_pow (l : Nat) : isPow2 (2 ^ l) = true := by
  simp [isPow2, Nat.and_two_pow_sub_one_eq_mod, Nat.one_le_two_pow]

theorem normalCodeword_two_pow (u l spill : Nat) (esc : Escape) :
    normalCodeword u (encoderSetup (2 ^ l) spill esc) = riceCodeword u l := by
  simp [normalCodeword, encoderSetup, isPow2_two_pow, ilog2, Nat.log2_two_pow]

/-! ### The codeword -/

theorem riceCodeword_len (u l : Nat) : (riceCodeword u l).len = u / 2 ^ l + 1 + l := rfl

theorem riceCodeword_value (u l : Nat) :
    (riceCodeword u l).value = 2 ^ (1 + l) * (2 ^ (u / 2 ^ l) - 1) + u % 2 ^ l := by
  simp only [riceCodeword, Nat.mul_comm, Nat.add_comm l 1]

theorem mod_two_pow_lt_succ (u l : Nat) : u % 2 ^ l < 2 ^ (1 + l) :=
  (Nat.mod_lt u (Nat.two_pow_pos l)).trans (Nat.pow_lt_pow_right one_lt_two (by omega))

theorem riceCodeword_value_lt (u l : Nat) : (riceCodeword u l).value < 2 ^ (riceCodeword u l).len := by
  rw [riceCodeword_value, riceCodeword_len]
  have hr := mod_two_pow_lt_succ u l
  have hq : 2 ^ (u / 2 ^ l) - 1 + 1 = 2 ^ (u / 2 ^ l) := Nat.sub_add_cancel Nat.one_le_two_pow
  calc 2 ^ (1 + l) * (2 ^ (u / 2 ^ l) - 1) + u % 2 ^ l
      < 2 ^ (1 + l) * (2 ^ (u / 2 ^ l) - 1) + 2 ^ (1 + l) := by omega
    _ = 2 ^ (u / 2 ^ l + 1 + l) := by rw [← Nat.mul_succ, Nat.succ_eq_add_one, hq, ← pow_add]; congr 1; omega

/-- A codeword that begins with a one uses its whole length. -/
theorem two_pow_le_riceCodeword_value {u l : Nat} (hq : 0 < u / 2 ^ l) :
    2 ^ (u / 2 ^ l + l) ≤ (riceCodeword u l).value := by
  obtain ⟨q, hq⟩ := Nat.exists_eq_succ_of_ne_zero hq.ne'
  rw [riceCodeword_value, hq]
  have hones : 2 ^ q ≤ 2 ^ (q + 1) - 1 := by
    have := Nat.one_le_two_pow (n := q)
    omega
  calc 2 ^ (q + 1 + l) = 2 ^ (1 + l) * 2 ^ q := by rw [← pow_add]; congr 1; omega
    _ ≤ 2 ^ (1 + l) * (2 ^ (q + 1) - 1) := Nat.mul_le_mul_left _ hones
    _ ≤ _ := Nat.le_add_right _ _

/-- The value fits `k` bits iff the codeword does, as soon as `k` bits hold the codeword of 0. -/
theorem riceCodeword_value_lt_two_pow_iff (u : Nat) {l k : Nat} (hl : l < k) :
    (riceCodeword u l).value < 2 ^ k ↔ (riceCodeword u l).len ≤ k := by
  refine ⟨fun hvalue => ?_, fun hlen =>
    (riceCodeword_value_lt u l).trans_le (Nat.pow_le_pow_right two_pos hlen)⟩
  rw [riceCodeword_len]
  rcases Nat.eq_zero_or_pos (u / 2 ^ l) with hq | hq
  · omega
  · have hlt := (Nat.pow_lt_pow_iff_right one_lt_two).mp ((two_pow_le_riceCodeword_value hq).trans_lt hvalue)
    omega

/-- The bits of the value are the bit string of R171. -/
theorem binBits_riceCodeword (u l : Nat) :
    binBits (riceCodeword u l).len (riceCodeword u l).value = riceBits u l := by
  rw [riceCodeword_len, riceCodeword_value, Nat.add_assoc, binBits_two_pow_mul_add _ _ _ (mod_two_pow_lt_succ u l),
    binBits_two_pow_sub_one, binBits_succ_of_lt (Nat.mod_lt u (Nat.two_pow_pos l)), riceBits, List.append_assoc]

/-- Settles O37: the setup of a power of two is a Rice setup, and the value and the length of its codeword spell `u >> l`
ones, a zero and the `l` low bits of `u`. -/
theorem riceCodewordBits : Obligations.RiceCodewordBits := by
  intro u l spill esc
  refine ⟨normalCodeword_two_pow u l spill esc, riceCodeword_len u l, riceCodeword_value_lt u l, fun hl => ?_,
    binBits_riceCodeword u l⟩
  exact riceCodeword_value_lt_two_pow_iff u (by omega)

end Sys2Proof.Proofs.Rice
end

section
/-! The bit-packer (44_bitpacker.md): the capacity, what `put_n_bits32` returns, and which stream bits and bytes it writes. A
written word is followed bit by bit, and a stream bit is a bit of its output word. -/

namespace Sys2Proof.Proofs.Bitpacker

open Sys2Proof.Machine Sys2Proof.Proofs.Fields

/-! ### The capacity -/

theorem capacity_eq (j : JobRecord) : capacity j = (j.bufferLength.toNat + 1) / 2 * 32 := rfl

theorem capacity_mod (j : JobRecord) : capacity j % 32 = 0 := Nat.mul_mod_left _ _

theorem outputWords_mul_four (j : JobRecord) : outputWords j * 4 = capacity j / 8 := by
  unfold capacity
  omega

/-- The rounding adds less than one word. -/
theorem capacity_bounds (j : JobRecord) :
    j.bufferLength.toNat * 16 ≤ capacity j ∧ capacity j < j.bufferLength.toNat * 16 + 32 := by
  rw [capacity_eq]
  omega

/-- Settles O25: the definition is `buffer_length × 16` rounded up to whole words; R211's examples are evaluated. -/
theorem capacityInWholeWords : Obligations.CapacityInWholeWords := by
  intro j
  obtain ⟨hlow, hhigh⟩ := capacity_bounds j
  refine ⟨rfl, capacity_mod j, hlow, hhigh, outputWords_mul_four j, ?_⟩
  simp [capacity_eq]

/-! ### The answers of `put_n_bits32`, one equation per case -/

theorem putNBits32_noOp (out : Handle) (cap : Nat) (v : Word) (o : Nat) {n : Nat} (m : Memory) (hn : n = 0 ∨ 32 < n) :
    putNBits32 out cap v o n m = (.noOp, m) :=
  if_pos hn

theorem putNBits32_smallBuffer (out : Handle) {cap : Nat} (v : Word) {o n : Nat} (m : Memory) (hpos : 1 ≤ n)
    (hle : n ≤ 32) (hend : cap < o + n) : putNBits32 out cap v o n m = (.smallBuffer, m) := by
  rw [putNBits32, if_neg (by omega), if_pos hend]

theorem putNBits32_wrote (out : Handle) {cap : Nat} (v : Word) {o n : Nat} (m : Memory) (hpos : 1 ≤ n) (hle : n ≤ 32)
    (hend : o + n ≤ cap) :
    putNBits32 out cap v o n m
      = (.wrote n,
          if o % 32 + n ≤ 32 then putSingle out (v &&& lowOnes n) (o / 32) (o % 32) n m
          else putSplit out (v &&& lowOnes n) (o / 32) (o % 32) n m) := by
  rw [putNBits32, if_neg (by omega), if_neg (by omega)]
  split <;> rfl

theorem put_noOp (v : Nat) {n : Nat} (s : State) (hn : n = 0 ∨ 32 < n) : put v n s = .go s := by
  rw [put_eq, if_pos hn]

/-- Settles O26: one equation of `put_n_bits32` per clause. -/
theorem putReturnCodes : Obligations.PutReturnCodes := by
  intro out cap v o n m
  refine ⟨fun hn => ⟨putNBits32_noOp out cap v o m hn, fun s => put_noOp v.toNat s hn⟩, ?_, ?_, rfl, rfl, rfl⟩
  · rintro ⟨hpos, hle, hend⟩
    exact putNBits32_smallBuffer out v m hpos hle hend
  · rintro ⟨hpos, hle, hend⟩
    rw [putNBits32_wrote out v m hpos hle hend]

/-! ### The bits of a written word -/

theorem getLsbD_lowOnes (n i : Nat) : (lowOnes n).getLsbD i = (decide (i < 32) && decide (i < n)) := by
  rw [lowOnes, BitVec.getLsbD_ofNat, Nat.testBit_two_pow_sub_one]

/-- Bits above the low `n` do not survive the mask of R219. -/
theorem and_lowOnes_congr {n : Nat} {v v' : Word} (h : ∀ b, b < n → v'.getLsbD b = v.getLsbD b) :
    v' &&& lowOnes n = v &&& lowOnes n := by
  refine BitVec.eq_of_getLsbD_eq fun i _ => ?_
  rw [BitVec.getLsbD_and, BitVec.getLsbD_and, getLsbD_lowOnes]
  by_cases hin : i < n
  · rw [h i hin]
  · simp [hin]

/-- The single word (R214): bits `sh` to `sh + n − 1` are replaced. -/
theorem getLsbD_single (old v : Word) {n sh i : Nat} (hi : i < 32) :
    (old &&& ~~~(lowOnes n <<< sh) ||| (v &&& lowOnes n) <<< sh).getLsbD i
      = if sh ≤ i ∧ i < sh + n then v.getLsbD (i - sh) else old.getLsbD i := by
  simp only [BitVec.getLsbD_or, BitVec.getLsbD_and, BitVec.getLsbD_not, BitVec.getLsbD_shiftLeft, getLsbD_lowOnes]
  split_ifs with hin
  · simp [hi, show ¬ i < sh by omega, show i - sh < 32 by omega, show i - sh < n by omega]
  · by_cases hlow : i < sh
    · simp [hi, hlow]
    · simp [hi, show ¬ i - sh < n by omega]

/-- The first word of a split (R215): its `hi` low bits are replaced by the high bits of the value. -/
theorem getLsbD_splitFirst (old v : Word) {hi lo n i : Nat} (hsum : hi + lo = n) (hn : n ≤ 32) (hi32 : i < 32) :
    (old &&& ~~~lowOnes hi ||| (v &&& lowOnes n) >>> lo).getLsbD i
      = if i < hi then v.getLsbD (lo + i) else old.getLsbD i := by
  simp only [BitVec.getLsbD_or, BitVec.getLsbD_and, BitVec.getLsbD_not, BitVec.getLsbD_ushiftRight, getLsbD_lowOnes]
  split_ifs with hin
  · simp [hin, show lo + i < 32 by omega, show lo + i < n by omega]
  · simp [hi32, hin, show ¬ lo + i < n by omega]

/-- The second word of a split (R215): its `lo` high bits are replaced by the low bits of the value. -/
theorem getLsbD_splitSecond (old v : Word) {n lo i : Nat} (hlo : lo ≤ n) (hlo32 : lo ≤ 32) (hi : i < 32) :
    (old &&& lowOnes (32 - lo) ||| (v &&& lowOnes n &&& lowOnes lo) <<< (32 - lo)).getLsbD i
      = if 32 - lo ≤ i then v.getLsbD (i - (32 - lo)) else old.getLsbD i := by
  simp only [BitVec.getLsbD_or, BitVec.getLsbD_and, BitVec.getLsbD_shiftLeft, getLsbD_lowOnes]
  split_ifs with hin
  · simp [hi, show ¬ i < 32 - lo by omega, show i - (32 - lo) < 32 by omega, show i - (32 - lo) < n by omega,
      show i - (32 - lo) < lo by omega]
  · simp [hi, show i < 32 - lo by omega]

/-! ### The full word -/

/-- The mask of 32 ones clears the whole old word and keeps the whole value. -/
theorem putSingle_full (out : Handle) (v : Word) (w : Nat) (m : Memory) :
    putSingle out (v &&& lowOnes 32) w 0 32 m = outWrite m out w v := by
  refine congrArg (outWrite m out w) (BitVec.eq_of_getLsbD_eq fun i hi => ?_)
  rw [getLsbD_single _ _ hi, if_pos (by omega)]
  rfl

/-- Settles O28: a word boundary leaves the single-word case, with all 32 bits replaced. -/
theorem fullWordPut : Obligations.FullWordPut := by
  intro out cap v w m hend
  rw [putNBits32_wrote out v m (by omega) (by omega) hend, Nat.mul_mod_right, Nat.mul_div_cancel_left _ (by omega),
    if_pos (by omega), putSingle_full]

/-! ### Stream bits and output words -/

/-- Bit `b` of a big-endian number of `n` bytes is a bit of its byte `n − 1 − b / 8` (20_memory.md R51). -/
theorem testBit_read (m : Memory) (addr : Nat) {n b : Nat} (hb : b < 8 * n) :
    (m.read addr n).testBit b = (m.readByte (wrapAddress (addr + (n - 1 - b / 8)))).getLsbD (b % 8) := by
  induction n generalizing b with
  | zero => omega
  | succ n ih =>
    have hbyte := (m.readByte (wrapAddress (addr + n))).isLt
    rw [Memory.read, Nat.mul_comm, show 256 = 2 ^ 8 from rfl, Nat.testBit_two_pow_mul_add _ hbyte]
    split_ifs with hlow
    · rw [Nat.mod_eq_of_lt hlow, show n + 1 - 1 - b / 8 = n by omega]
      rfl
    · rw [ih (by omega), show (b - 8) % 8 = b % 8 by omega, show n - 1 - (b - 8) / 8 = n + 1 - 1 - b / 8 by omega]

/-- A stream bit as a bit of its output word (R210). -/
theorem streamBit_eq_getLsbD_outRead (m : Memory) (out : Handle) (p : Nat) :
    streamBit m out p = (outRead m out (p / 32)).getLsbD (31 - p % 32) := by
  rw [outRead, BitVec.getLsbD_ofNat, testBit_read m _ (by omega), decide_eq_true (by omega), Bool.true_and, streamBit,
    show out.base.toNat + 4 * (p / 32) + (4 - 1 - (31 - p % 32) / 8) = out.base.toNat + p / 8 by omega,
    show (31 - p % 32) % 8 = 7 - p % 8 by omega]

/-- A buffer of whole words that does not run over the top of MEM: what every launch provides (R211,
70_reset_and_hazards.md R336). -/
structure BufferFits (out : Handle) (cap : Nat) : Prop where
  whole : cap % 32 = 0
  noWrap : out.base.toNat + cap / 8 ≤ 2 ^ 32

section
variable {out : Handle} {cap : Nat} (hbuf : BufferFits out cap)
include hbuf

theorem outRead_outWrite_same (m : Memory) {w : Nat} (x : Word) (hw : 32 * w + 32 ≤ cap) :
    outRead (outWrite m out w x) out w = x := by
  have hnoWrap := hbuf.noWrap
  rw [outRead, outWrite, Memory.read_write_same _ _ _ _ (by omega),
    Nat.mod_eq_of_lt (show x.toNat < 256 ^ 4 from x.isLt), BitVec.ofNat_toNat, BitVec.setWidth_eq]

theorem streamBit_outWrite_of_ne (m : Memory) {w p : Nat} (x : Word) (hw : 32 * w + 32 ≤ cap) (hp : p < cap)
    (hne : p / 32 ≠ w) : streamBit (outWrite m out w x) out p = streamBit m out p := by
  obtain ⟨hwhole, hnoWrap⟩ := hbuf
  unfold streamBit outWrite
  rw [Memory.readByte_write_of_ne]
  intro k hk
  rw [wrapAddress_of_lt (by omega), wrapAddress_of_lt (by omega)]
  omega

theorem streamBit_outWrite (m : Memory) {w p : Nat} (x : Word) (hw : 32 * w + 32 ≤ cap) (hp : p < cap) :
    streamBit (outWrite m out w x) out p = if p / 32 = w then x.getLsbD (31 - p % 32) else streamBit m out p := by
  split_ifs with hword
  · rw [streamBit_eq_getLsbD_outRead, hword, outRead_outWrite_same hbuf m x hw]
  · exact streamBit_outWrite_of_ne hbuf m x hw hp hword

theorem outWrite_keptOutside (m : Memory) {w : Nat} (x : Word) (hw : 32 * w + 32 ≤ cap) :
    KeptOutside [{ base := out.base.toNat, len := cap / 8 }] m (outWrite m out w x) := by
  intro a ha
  have hout := ha _ List.mem_cons_self
  have hnoWrap := hbuf.noWrap
  simp only [← Bool.not_eq_true, Extent.covers_iff] at hout
  refine Memory.readByte_write_of_ne _ _ _ _ _ fun k hk => ?_
  rw [wrapAddress_of_lt (by omega)]
  omega

/-! ### The two ways to write -/

theorem streamBit_putSingle (v : Word) {o n p : Nat} (m : Memory) (hpos : 1 ≤ n) (hend : o + n ≤ cap)
    (hone : o % 32 + n ≤ 32) (hp : p < cap) :
    streamBit (putSingle out (v &&& lowOnes n) (o / 32) (o % 32) n m) out p
      = if o ≤ p ∧ p < o + n then v.getLsbD (o + n - 1 - p) else streamBit m out p := by
  have hwhole := hbuf.whole
  rw [putSingle, streamBit_outWrite hbuf m _ (by omega) hp]
  by_cases hword : p / 32 = o / 32
  · rw [if_pos hword, getLsbD_single _ _ (by omega), streamBit_eq_getLsbD_outRead m, hword]
    exact if_congr (by omega) (congrArg v.getLsbD (by omega)) rfl
  · rw [if_neg hword, if_neg (by omega)]

theorem putSingle_keptOutside (v : Word) {o n : Nat} (m : Memory) (hpos : 1 ≤ n) (hend : o + n ≤ cap) :
    KeptOutside [{ base := out.base.toNat, len := cap / 8 }] m (putSingle out v (o / 32) (o % 32) n m) := by
  have hwhole := hbuf.whole
  exact outWrite_keptOutside hbuf m _ (by omega)

/-- The bits of the second word are read after the first was written, which left them alone. -/
theorem streamBit_putSplit (v : Word) {o n p : Nat} (m : Memory) (hle : n ≤ 32) (hend : o + n ≤ cap)
    (htwo : 32 < o % 32 + n) (hp : p < cap) :
    streamBit (putSplit out (v &&& lowOnes n) (o / 32) (o % 32) n m) out p
      = if o ≤ p ∧ p < o + n then v.getLsbD (o + n - 1 - p) else streamBit m out p := by
  have hwhole := hbuf.whole
  have hfirst : 32 * (o / 32) + 32 ≤ cap := by omega
  rw [putSplit, streamBit_outWrite hbuf _ _ (by omega) hp]
  by_cases hsecond : p / 32 = o / 32 + 1
  · rw [if_pos hsecond, getLsbD_splitSecond _ _ (by omega) (by omega) (by omega), ← hsecond,
      ← streamBit_eq_getLsbD_outRead, streamBit_outWrite_of_ne hbuf m _ hfirst hp (by omega)]
    exact if_congr (by omega) (congrArg v.getLsbD (by omega)) rfl
  · rw [if_neg hsecond, streamBit_outWrite hbuf m _ hfirst hp]
    by_cases hword : p / 32 = o / 32
    · rw [if_pos hword, getLsbD_splitFirst _ _ (by omega) hle (by omega), streamBit_eq_getLsbD_outRead m, hword]
      exact if_congr (by omega) (congrArg v.getLsbD (by omega)) rfl
    · rw [if_neg hword, if_neg (by omega)]

theorem putSplit_keptOutside (v : Word) {o n : Nat} (m : Memory) (hend : o + n ≤ cap) (htwo : 32 < o % 32 + n) :
    KeptOutside [{ base := out.base.toNat, len := cap / 8 }] m (putSplit out v (o / 32) (o % 32) n m) := by
  have hwhole := hbuf.whole
  exact keptOutside_trans (outWrite_keptOutside hbuf m _ (by omega)) (outWrite_keptOutside hbuf _ _ (by omega))

/-! ### A successful `put_n_bits32` -/

theorem streamBit_putNBits32 (v : Word) {o n p : Nat} (m : Memory) (hpos : 1 ≤ n) (hle : n ≤ 32) (hend : o + n ≤ cap)
    (hp : p < cap) :
    streamBit (putNBits32 out cap v o n m).2 out p
      = if o ≤ p ∧ p < o + n then v.getLsbD (o + n - 1 - p) else streamBit m out p := by
  rw [putNBits32_wrote out v m hpos hle hend]
  by_cases hone : o % 32 + n ≤ 32
  · rw [if_pos hone]
    exact streamBit_putSingle hbuf v m hpos hend hone hp
  · rw [if_neg hone]
    exact streamBit_putSplit hbuf v m hle hend (Nat.lt_of_not_le hone) hp

theorem putNBits32_keptOutside (v : Word) {o n : Nat} (m : Memory) (hpos : 1 ≤ n) (hle : n ≤ 32) (hend : o + n ≤ cap) :
    KeptOutside [{ base := out.base.toNat, len := cap / 8 }] m (putNBits32 out cap v o n m).2 := by
  rw [putNBits32_wrote out v m hpos hle hend]
  by_cases hone : o % 32 + n ≤ 32
  · rw [if_pos hone]
    exact putSingle_keptOutside hbuf _ m hpos hend
  · rw [if_neg hone]
    exact putSplit_keptOutside hbuf _ m hend (Nat.lt_of_not_le hone)

end

/-- Settles O27: the bits and the frame of both ways to write; the mask takes away the bits above the low `n`. -/
theorem putWritesItsBits : Obligations.PutWritesItsBits := by
  intro out cap v o n m hwhole hnoWrap hpos hle hend
  have hbuf : BufferFits out cap := ⟨hwhole, hnoWrap⟩
  refine ⟨?_, fun p hp => streamBit_putNBits32 hbuf v m hpos hle hend hp, putNBits32_keptOutside hbuf v m hpos hle hend,
    fun v' hlow => ?_⟩
  · rw [putNBits32_wrote out v m hpos hle hend]
  · rw [putNBits32_wrote out v' m hpos hle hend, putNBits32_wrote out v m hpos hle hend, and_lowOnes_congr hlow]

end Sys2Proof.Proofs.Bitpacker
end

section
/-! The job format (30_encoding.md R80, R82): the mode table against the instructions, the twelve words of a job, and the
classes of the mode codes (R83). -/

namespace Sys2Proof.Proofs.Encoding

open Sys2Proof.Machine

/-! ### The mode table -/

/-- Every mode code has a row of the table, and that row rebuilds the instruction (R82). -/
theorem modeRow_modeCode (i : Instr) : ∃ r, modeRow i.modeCode = some r ∧ r.build i.operands = i := by
  have hrow : Laws.ModeWord.Statement i := by cases i <;> exact ⟨rfl, rfl, rfl⟩
  obtain ⟨-, -, hbuild⟩ := hrow
  exact Option.map_eq_some_iff.mp hbuild

/-- A row builds instructions that have its code and the given operands. -/
theorem build_of_mem_modeTable {r : ModeRow} (hr : r ∈ modeTable) (o : JobOperands) :
    (r.build o).modeCode = r.code ∧ (r.build o).operands = o := by
  simp only [modeTable, List.mem_cons, List.not_mem_nil, or_false] at hr
  rcases hr with rfl | rfl | rfl | rfl | rfl | rfl | rfl | rfl | rfl | rfl | rfl | rfl | rfl | rfl | rfl | rfl | rfl | rfl
    | rfl | rfl | rfl | rfl | rfl | rfl | rfl | rfl | rfl | rfl | rfl | rfl <;> exact ⟨rfl, rfl⟩

theorem modeRow_eq_some {mode : Word} {r : ModeRow} (h : modeRow mode = some r) : r ∈ modeTable ∧ r.code = mode :=
  ⟨List.mem_of_find?_eq_some h, eq_of_beq (List.find?_some (p := fun r : ModeRow => r.code == mode) h)⟩

/-- The 30 codes (R82). -/
def modeCodes : List Word := rawModeCodes ++ diffModeCodes ++ modelModeCodes

theorem codes_perm_modeCodes : (modeTable.map (fun r => r.code)).Perm modeCodes := by decide

/-- The words without a row are those that are none of the 30 codes (R87). -/
theorem modeRow_eq_none_iff (mode : Word) : modeRow mode = none ↔ mode ∉ modeCodes := by
  rw [← codes_perm_modeCodes.mem_iff, modeRow, List.find?_eq_none]
  simp only [List.mem_map, not_exists, not_and, beq_iff_eq]

/-! ### The reserved bits of `CFG_PRESENT` -/

theorem presentBits_of_reservedZero {o : JobOperands} (h : o.reservedZero = true) :
    presentBits o.cfgPresent = o.cfgPresent := by
  have hhigh : o.cfgPresent.extractLsb' 4 28 = 0#28 := eq_of_beq h
  refine BitVec.eq_of_getLsbD_eq fun k hk => ?_
  show (o.cfgPresent &&& lowOnes 4).getLsbD k = _
  rw [BitVec.getLsbD_and, Bitpacker.getLsbD_lowOnes]
  by_cases hlow : k < 4
  · simp [hk, hlow]
  · have hbit := congrArg (fun x => x.getLsbD (k - 4)) hhigh
    simp only [BitVec.getLsbD_extractLsb', show k - 4 < 28 by omega, show 4 + (k - 4) = k by omega] at hbit
    simpa [hlow] using hbit

/-- What the register keeps of a word written to `CFG_PRESENT` has the reserved bits zero. -/
theorem presentBits_high (w : Word) : (presentBits w).extractLsb' 4 28 = 0#28 := by
  refine BitVec.eq_of_getLsbD_eq fun k hk => ?_
  rw [BitVec.getLsbD_extractLsb', show presentBits w = w &&& lowOnes 4 from rfl, BitVec.getLsbD_and,
    Bitpacker.getLsbD_lowOnes]
  simp

/-! ### Decoding -/

/-- The operands that twelve words spell (R80). -/
def operandsOf (golombPar spill modelValue round samples bufferLength present input model updated output : Word) :
    JobOperands :=
  { golombPar, spill, modelValue, round, samples, bufferLength, cfgPresent := presentBits present, inputBase := input
    modelBase := model, updatedModelBase := updated, outputBase := output }

/-- Twelve words are decoded by the row of the first. -/
theorem decode_of_row {mode : Word} {r : ModeRow} (hrow : modeRow mode = some r) (a b c d e f g h i j k : Word) :
    decode [mode, a, b, c, d, e, f, g, h, i, j, k] = .ok (r.build (operandsOf a b c d e f g h i j k)) := by
  simp only [decode, hrow, operandsOf]

theorem decode_of_no_row {mode : Word} (hrow : modeRow mode = none) (a b c d e f g h i j k : Word) :
    decode [mode, a, b, c, d, e, f, g, h, i, j, k] = .error (.unrecognisedMode mode) := by
  simp only [decode, hrow]

/-- Settles O1: the code selects the row that rebuilds the job, and the reserved bits are zero already. -/
theorem decodeEncodeRoundTrip : Obligations.DecodeEncodeRoundTrip := by
  intro i hwf
  obtain ⟨r, hrow, hbuild⟩ := modeRow_modeCode i
  rw [encode, decode_of_row hrow, operandsOf, presentBits_of_reservedZero hwf]
  exact congrArg Except.ok hbuild

/-- All that a decoded list of words can be. -/
theorem decode_eq_ok {ws : List Word} {x : Instr} (hdec : decode ws = .ok x) :
    ∃ mode a b c d e f g h i j k r, ws = [mode, a, b, c, d, e, f, g, h, i, j, k] ∧ modeRow mode = some r
      ∧ x = r.build (operandsOf a b c d e f g h i j k) := by
  unfold decode at hdec
  split at hdec
  · split at hdec
    case h_1 r hrow => exact ⟨_, _, _, _, _, _, _, _, _, _, _, _, r, rfl, hrow, (Except.ok.inj hdec).symm⟩
    case h_2 => exact nomatch hdec
  · exact nomatch hdec

/-- Settles O2: a row keeps the code and the operands, and `CFG_PRESENT` is the only word that the decoder cuts. -/
theorem decodedJobKeepsEveryBit : Obligations.DecodedJobKeepsEveryBit := by
  intro ws x hdec
  obtain ⟨mode, a, b, c, d, e, f, g, h, i, j, k, r, rfl, hrow, rfl⟩ := decode_eq_ok hdec
  obtain ⟨hmem, hcode⟩ := modeRow_eq_some hrow
  obtain ⟨hmode, hops⟩ := build_of_mem_modeTable hmem (operandsOf a b c d e f g h i j k)
  refine ⟨?_, rfl, ?_⟩
  · rw [Instr.wellFormed, hops, JobOperands.reservedZero, beq_iff_eq]
    exact presentBits_high g
  · rw [encode, hmode, hops, hcode]
    rfl

/-- Settles O3: with twelve words only the row of the mode word can be missing. -/
theorem unrecognisedModesRejected : Obligations.UnrecognisedModesRejected := by
  intro mode operands hlen
  match operands, hlen with
  | [a, b, c, d, e, f, g, h, i, j, k], _ =>
    cases hrow : modeRow mode with
    | none =>
      rw [decode_of_no_row hrow]
      exact ⟨iff_of_true rfl ((modeRow_eq_none_iff mode).mp hrow), fun e he => (Except.error.inj he).symm⟩
    | some r =>
      have hmem : mode ∈ modeCodes := by
        by_contra hout
        exact nomatch hrow.symm.trans ((modeRow_eq_none_iff mode).mpr hout)
      rw [decode_of_row hrow]
      exact ⟨iff_of_false (fun he => nomatch he) (not_not_intro hmem), fun e he => nomatch he⟩

/-- Settles O4: each word list is evaluated. -/
theorem writtenOutWordsDecode : Obligations.WrittenOutWordsDecode := ⟨rfl, rfl, rfl, rfl⟩

/-! ### The classes of the mode codes -/

theorem descriptor_eq_none_iff (mode : Word) : descriptor mode = none ↔ mode ∉ modeCodes := by
  rw [descriptor, Option.map_eq_none_iff, modeRow_eq_none_iff]

theorem mem_modeCodes_of_descriptor {mode : Word} {d : Descriptor} (hd : descriptor mode = some d) :
    mode ∈ modeCodes := by
  by_contra hout
  exact nomatch hd.symm.trans ((descriptor_eq_none_iff mode).mpr hout)

/-- What the descriptor of a code says, against the lists of codes (R83, R84). -/
def ClassesOf (mode : Word) (d : Descriptor) : Prop :=
  (d.pre = .none ↔ mode ∈ rawModeCodes) ∧ (d.pre = .diff ↔ mode ∈ diffModeCodes)
    ∧ (d.pre = .model ↔ mode ∈ modelModeCodes) ∧ (d.esc = some .zero ↔ mode ∈ zeroEscapeCodes)
    ∧ (d.esc = some .multi ↔ mode ∈ multiEscapeCodes) ∧ (d.esc = none ↔ d.pre = .none)
    ∧ ((∃ f ∈ shapeFields d.shape, f.secondary = true) ↔ mode = 100 ∨ mode ∈ exposureModeCodes)

theorem classesOf_row : ∀ r ∈ modeTable, ClassesOf r.code { shape := r.shape, pre := r.pre, esc := r.esc } := by
  unfold ClassesOf
  decide

theorem classesOf_descriptor {mode : Word} {d : Descriptor} (hd : descriptor mode = some d) : ClassesOf mode d := by
  obtain ⟨r, hrow, rfl⟩ := Option.map_eq_some_iff.mp hd
  obtain ⟨hmem, rfl⟩ := modeRow_eq_some hrow
  exact classesOf_row r hmem

/-- A class predicate reads the descriptor; without one it is false. -/
theorem class_iff {mode : Word} {codes : List Word} {P : Descriptor → Bool} (hsub : codes ⊆ modeCodes)
    (hclass : ∀ d, descriptor mode = some d → (P d = true ↔ mode ∈ codes)) :
    (match descriptor mode with | some d => P d | none => false) = true ↔ mode ∈ codes := by
  cases hd : descriptor mode with
  | some d => exact hclass d hd
  | none => exact iff_of_false Bool.noConfusion fun hmem => (descriptor_eq_none_iff mode).mp hd (hsub hmem)

theorem isRaw_iff (mode : Word) : isRaw mode = true ↔ mode ∈ rawModeCodes :=
  class_iff (by decide) fun _ hd => beq_iff_eq.trans (classesOf_descriptor hd).1

theorem isDiff_iff (mode : Word) : isDiff mode = true ↔ mode ∈ diffModeCodes :=
  class_iff (by decide) fun _ hd => beq_iff_eq.trans (classesOf_descriptor hd).2.1

theorem isModel_iff (mode : Word) : isModel mode = true ↔ mode ∈ modelModeCodes :=
  class_iff (by decide) fun _ hd => beq_iff_eq.trans (classesOf_descriptor hd).2.2.1

theorem zeroEscape_iff (mode : Word) : zeroEscape mode = true ↔ mode ∈ zeroEscapeCodes :=
  class_iff (by decide) fun _ hd => beq_iff_eq.trans (classesOf_descriptor hd).2.2.2.1

theorem multiEscape_iff (mode : Word) : multiEscape mode = true ↔ mode ∈ multiEscapeCodes :=
  class_iff (by decide) fun _ hd => beq_iff_eq.trans (classesOf_descriptor hd).2.2.2.2.1

/-- Settles O5: the descriptor of each of the 30 codes is compared with the lists; every other word has none. -/
theorem modeClasses : Obligations.ModeClasses := by
  intro mode
  refine ⟨isRaw_iff mode, isDiff_iff mode, isModel_iff mode, zeroEscape_iff mode, multiEscape_iff mode, fun d hd => ?_⟩
  obtain ⟨-, -, -, -, -, hesc, hflags⟩ := classesOf_descriptor hd
  exact ⟨hesc, hflags⟩

theorem isRaw_of_descriptor {mode : Word} {d : Descriptor} (hd : descriptor mode = some d) :
    isRaw mode = true ↔ d.pre = .none := by
  simp [isRaw, hd]

theorem isModel_of_descriptor {mode : Word} {d : Descriptor} (hd : descriptor mode = some d) :
    isModel mode = true ↔ d.pre = .model := by
  simp [isModel, hd]

end Sys2Proof.Proofs.Encoding
end

section
/-! The register block and the moves of the host (10_state.md R21 to R36, 20_memory.md R50 and R62). -/

namespace Sys2Proof.Proofs.HostPort

open Sys2Proof.Machine Sys2Proof.Proofs.Encoding

/-! ### The host's next move -/

theorem step_of_queue {s : State} {a : HostAction} {rest : List HostAction} (hq : s.hostQueue = a :: rest) :
    step s = hostMove a { s with hostQueue := rest } := by
  rw [step, hq]

theorem step_of_empty_queue {s : State} (hq : s.hostQueue = []) : step s = coreMove s := by
  rw [step, hq]

theorem startCommand_of_busy {s : State} (hb : s.status.busy = true) : startCommand s = .next s :=
  if_pos hb

theorem startCommand_of_wholeJob {s : State} (hb : s.status.busy = false) (hp : s.pace = .wholeJob) :
    startCommand s = runFetched s := by
  simp [startCommand, hb, hp]

theorem startCommand_of_byPhase {s : State} (hb : s.status.busy = false) (hp : s.pace = .byPhase) :
    startCommand s = .next (latchJob s.cfg s) := by
  simp [startCommand, hb, hp]

/-- A write to `CTRL` with bit 0 set is the start command (10_state.md R31). -/
theorem step_of_start {s : State} {v : Word} {rest : List HostAction} (hq : s.hostQueue = .writeReg 0 v :: rest)
    (hv : v.getLsbD 0 = true) : step s = startCommand { s with hostQueue := rest } := by
  rw [step_of_queue hq, hostMove, hostWrite, if_pos (show 0 = ctrlOffset from rfl), if_pos hv]

/-- Settles O6: the start command fetches the words of CFG, and those decode to `i`. -/
theorem stepRunsDecodedJob : Obligations.StepRunsDecodedJob := by
  intro s v rest i hq hv hb hp hdec
  rw [step_of_start hq hv, startCommand_of_wholeJob (s := { s with hostQueue := rest }) hb hp, runFetched, hdec]

/-- Settles O9: a busy core and a clear bit 0 each end the move without a change. -/
theorem startIgnored : Obligations.StartIgnored := by
  intro s v rest hq hcase
  cases hv : v.getLsbD 0 with
  | true =>
    have hb : s.status.busy = true := hcase.resolve_right (by simp only [hv, Bool.true_eq_false, not_false_iff])
    rw [step_of_start hq hv, startCommand_of_busy (s := { s with hostQueue := rest }) hb]
  | false =>
    rw [step_of_queue hq, hostMove, hostWrite, if_pos (show 0 = ctrlOffset from rfl),
      if_neg (by simp only [hv, Bool.false_eq_true, not_false_iff])]

/-! ### The word `CFG_PRESENT` -/

/-- The word that shows four `present` bits (10_state.md R23). -/
def bitsWord (a b c d : Bool) : Word := BitVec.ofNat 32 (a.toNat + 2 * b.toNat + 4 * c.toNat + 8 * d.toNat)

theorem presentWord_eq (j : JobRecord) :
    presentWord j = bitsWord j.input.present j.model.present j.updatedModel.present j.output.present := rfl

theorem presentBits_bitsWord : ∀ a b c d, presentBits (bitsWord a b c d) = bitsWord a b c d := by decide

theorem getLsbD_bitsWord : ∀ a b c d, (bitsWord a b c d).getLsbD 0 = a ∧ (bitsWord a b c d).getLsbD 1 = b
    ∧ (bitsWord a b c d).getLsbD 2 = c ∧ (bitsWord a b c d).getLsbD 3 = d := by decide

/-- The four bits of a word, shown again, are its low bits. -/
theorem bitsWord_getLsbD (v : Word) :
    bitsWord (v.getLsbD 0) (v.getLsbD 1) (v.getLsbD 2) (v.getLsbD 3) = v &&& 0xF#32 := by
  have hall : ∀ a b c d, ∀ k < 32,
      (bitsWord a b c d).getLsbD k = (if k = 0 then a else if k = 1 then b else if k = 2 then c else k = 3 && d) := by
    decide
  have hmask : ∀ k < 32, (0xF#32).getLsbD k = decide (k < 4) := by decide
  refine BitVec.eq_of_getLsbD_eq fun k hk => ?_
  rw [hall _ _ _ _ k hk, BitVec.getLsbD_and, hmask k hk]
  split_ifs with h0 h1 h2
  · simp [h0]
  · simp [h1]
  · simp [h2]
  · by_cases h3 : k = 3
    · simp [h3]
    · simp [h3, show ¬ k < 4 by omega]

/-- The record of the decoded words of CFG is CFG (10_state.md R24). -/
theorem jobOf_of_decode {c : JobRecord} {i : Instr} (hdec : decode (fetchWords c) = .ok i) : jobOf i = c := by
  obtain ⟨mode, _, _, _, _, _, _, g, _, _, _, _, r, hwords, hrow, rfl⟩ := decode_eq_ok hdec
  simp only [fetchWords, List.cons.injEq, and_true] at hwords
  obtain ⟨rfl, rfl, rfl, rfl, rfl, rfl, rfl, rfl, rfl, rfl, rfl, rfl⟩ := hwords
  obtain ⟨hmem, hcode⟩ := modeRow_eq_some hrow
  obtain ⟨hmode, hops⟩ := build_of_mem_modeTable hmem (operandsOf c.golombPar c.spill c.modelValue c.round c.samples
    c.bufferLength (presentWord c) c.input.base c.model.base c.updatedModel.base c.output.base)
  obtain ⟨h0, h1, h2, h3⟩ :=
    getLsbD_bitsWord c.input.present c.model.present c.updatedModel.present c.output.present
  simp only [jobOf, hmode, hops, hcode]
  simp only [operandsOf, handleOf, presentWord_eq, presentBits_bitsWord, h0, h1, h2, h3]

/-- Settles O7: the decoded record is CFG, and at the grain of phases the start command is the latch. -/
theorem startCommandLatchesCfg : Obligations.StartCommandLatchesCfg := by
  refine ⟨fun c i => jobOf_of_decode, fun s v rest hq hv hb hp => ?_⟩
  refine ⟨latchJob s.cfg { s with hostQueue := rest }, ?_, ?_⟩
  · rw [step_of_start hq hv, startCommand_of_byPhase (s := { s with hostQueue := rest }) hb hp]
  · exact ⟨rfl, rfl, rfl, rfl, rfl, rfl, rfl, rfl⟩

/-! ### Writing registers -/

/-- The offsets of the configuration registers (10_state.md R23). -/
def cfgOffsets : List Nat := [0x10, 0x14, 0x18, 0x1C, 0x20, 0x24, 0x28, 0x2C, 0x30, 0x34, 0x38, 0x3C]

theorem writeCfg_of_not_mem {offset : Nat} (h : offset ∉ cfgOffsets) (v : Word) (c : JobRecord) :
    writeCfg offset v c = c := by
  unfold writeCfg
  split
  case h_13 => rfl
  all_goals exact absurd (by decide) h

/-- A register other than the configuration registers does not show CFG. -/
theorem readReg_of_not_mem {o : Nat} (h : o ∉ cfgOffsets) (s : State) (c : JobRecord) :
    readReg { s with cfg := c } o = readReg s o := by
  unfold readReg
  split
  case h_3 | h_4 | h_5 | h_6 | h_7 | h_8 | h_9 | h_10 | h_11 | h_12 | h_13 | h_14 => exact absurd (by decide) h
  all_goals rfl

theorem presentWord_writeCfg (v : Word) (c : JobRecord) : presentWord (writeCfg 0x2C v c) = v &&& 0xF#32 :=
  bitsWord_getLsbD v

/-- A configuration register after a write of a configuration register. -/
theorem readReg_writeCfg {offset o : Nat} (ho : o ∈ cfgOffsets) (hoffset : offset ∈ cfgOffsets) (s : State) (v : Word) :
    readReg { s with cfg := writeCfg offset v s.cfg } o
      = if o = offset then (if o = 0x2C then v &&& 0xF#32 else v) else readReg s o := by
  simp only [cfgOffsets, List.mem_cons, List.not_mem_nil, or_false] at ho hoffset
  rcases ho with rfl | rfl | rfl | rfl | rfl | rfl | rfl | rfl | rfl | rfl | rfl | rfl
  case inr.inr.inr.inr.inr.inr.inr.inl =>
    rcases hoffset with rfl | rfl | rfl | rfl | rfl | rfl | rfl | rfl | rfl | rfl | rfl | rfl
    case inr.inr.inr.inr.inr.inr.inr.inl => exact presentWord_writeCfg v s.cfg
    all_goals rfl
  all_goals
    rcases hoffset with rfl | rfl | rfl | rfl | rfl | rfl | rfl | rfl | rfl | rfl | rfl | rfl <;> rfl

/-- Settles O10: only a configuration register takes the word, and only that register shows it. -/
theorem cfgWriteReadsBack : Obligations.CfgWriteReadsBack := by
  intro s offset v rest hq hne
  refine ⟨hostWriteReg offset v { s with hostQueue := rest }, ?_, rfl, fun o => ?_⟩
  · rw [step_of_queue hq]
    exact if_neg hne
  have hread : readReg (hostWriteReg offset v { s with hostQueue := rest }) o
      = readReg { s with cfg := writeCfg offset v s.cfg } o := rfl
  have hlist : o ∈ cfgOffsets
      ↔ o ∈ [0x10, 0x14, 0x18, 0x1C, 0x20, 0x24, 0x28, 0x30, 0x34, 0x38, 0x3C] ∨ o = 0x2C := by
    simp only [cfgOffsets, List.mem_cons, List.not_mem_nil, or_false]
    omega
  have h2C : 0x2C ∉ [0x10, 0x14, 0x18, 0x1C, 0x20, 0x24, 0x28, 0x30, 0x34, 0x38, 0x3C] := by decide
  rw [hread]
  by_cases ho : o ∈ cfgOffsets
  · by_cases hoffset : offset ∈ cfgOffsets
    · rw [readReg_writeCfg ho hoffset]
      by_cases heq : o = offset
      · by_cases hp : o = 0x2C
        · subst hp
          rw [if_pos heq, if_pos rfl, if_neg (fun h => h2C h.2), if_pos ⟨heq, rfl⟩]
        · rw [if_pos heq, if_neg hp, if_pos ⟨heq, (hlist.mp ho).resolve_right hp⟩]
      · rw [if_neg heq, if_neg (fun h => heq h.1), if_neg (fun h => heq h.1)]
    · have heq : o ≠ offset := fun h => hoffset (h ▸ ho)
      rw [writeCfg_of_not_mem hoffset, if_neg (fun h => heq h.1), if_neg (fun h => heq h.1)]
  · have hout := not_or.mp (hlist.not.mp ho)
    rw [readReg_of_not_mem ho, if_neg (fun h => hout.1 h.2), if_neg (fun h => hout.2 h.2)]

/-! ### Reading registers -/

theorem readReg_unlisted {o : Nat} (ho : o < 0x04 ∨ o % 4 ≠ 0 ∨ o = 0x0C ∨ 0x60 ≤ o) (s : State) : readReg s o = 0 := by
  unfold readReg
  split
  case h_23 => rfl
  all_goals omega

/-- The bits of the mask that keeps `STATUS.kind` in its place. -/
theorem getLsbD_kindMask {b : Nat} (hb : b < 2 ∨ 4 ≤ b) : (0xC#32).getLsbD b = false := by
  have hall : ∀ b < 32, b < 2 ∨ 4 ≤ b → (0xC#32).getLsbD b = false := by decide
  rcases Nat.lt_or_ge b 32 with h32 | h32
  · exact hall b h32 hb
  · exact BitVec.getLsbD_of_ge _ _ h32

theorem getLsbD_errBitsMask {b : Nat} (hb : 6 ≤ b) : errBitsMask.getLsbD b = false := by
  have hall : ∀ b < 32, 6 ≤ b → errBitsMask.getLsbD b = false := by decide
  rcases Nat.lt_or_ge b 32 with h32 | h32
  · exact hall b h32 hb
  · exact BitVec.getLsbD_of_ge _ _ h32

/-- Bits outside the kind show busy and done only, whatever a read in flight answers. -/
theorem getLsbD_statusWord (s : State) {b : Nat} (hb : b < 2 ∨ 4 ≤ b) :
    (statusWord s).getLsbD b
      = (BitVec.ofNat 32 (s.status.busy.toNat + 2 * s.status.done.toNat)).getLsbD b := by
  rw [statusWord, BitVec.getLsbD_or, BitVec.getLsbD_and, getLsbD_kindMask hb, Bool.and_false, Bool.or_false]

theorem getLsbD_busyDone : ∀ busy done : Bool,
    (BitVec.ofNat 32 (busy.toNat + 2 * done.toNat)).getLsbD 0 = busy
      ∧ (BitVec.ofNat 32 (busy.toNat + 2 * done.toNat)).getLsbD 1 = done := by decide

theorem getLsbD_busyDone_high (busy done : Bool) {b : Nat} (hb : 4 ≤ b) :
    (BitVec.ofNat 32 (busy.toNat + 2 * done.toNat)).getLsbD b = false := by
  have hsmall : busy.toNat + 2 * done.toNat < 2 ^ b :=
    calc busy.toNat + 2 * done.toNat < 2 ^ 4 := by cases busy <;> cases done <;> decide
      _ ≤ 2 ^ b := Nat.pow_le_pow_right two_pos hb
  rw [BitVec.getLsbD_ofNat, Nat.testBit_lt_two_pow hsmall, Bool.and_false]

/-- An idle core shows what its registers hold. -/
theorem inFlight_of_idle {s : State} (hb : s.status.busy = false) (offset : Nat) (w : Word) : inFlight s offset w = w := by
  rw [inFlight, hb]
  rfl

/-- The kind as an idle core shows it. -/
theorem kind_of_statusWord {s : State} (hb : s.status.busy = false) :
    (statusWord s).extractLsb' 2 2 = BitVec.ofNat 2 s.status.kind.code := by
  rw [statusWord, inFlight_of_idle hb, hb]
  cases s.status.done <;> cases s.status.kind <;> decide

/-- Settles O11: the masks keep the always-zero bits, and nothing is in flight while no job runs. -/
theorem registerReads : Obligations.RegisterReads := by
  intro s
  obtain ⟨hbusy, hdone⟩ := getLsbD_busyDone s.status.busy s.status.done
  refine ⟨(getLsbD_statusWord s (by omega)).trans hbusy, (getLsbD_statusWord s (by omega)).trans hdone,
    fun b hb => (getLsbD_statusWord s (by omega)).trans (getLsbD_busyDone_high _ _ hb), fun b hb => ?_, fun hidle => ?_,
    fun o ho => readReg_unlisted ho s⟩
  · rw [readReg, BitVec.getLsbD_and, getLsbD_errBitsMask hb, Bool.and_false]
  · simp only [readReg, inFlight_of_idle hidle, errBitsMask, and_self, and_true]
    exact kind_of_statusWord hidle

/-- What an idle core shows depends on CFG, STATUS and INFO only. -/
theorem readReg_congr {s t : State} (hidle : t.status.busy = false) (hcfg : s.cfg = t.cfg) (hstatus : s.status = t.status)
    (hinfo : s.info = t.info) (o : Nat) : readReg s o = readReg t o := by
  have hidle' : s.status.busy = false := by rw [hstatus, hidle]
  simp only [readReg, statusWord, inFlight_of_idle hidle, inFlight_of_idle hidle', hcfg, hstatus, hinfo]

theorem readReg_reset (o : Nat) : readReg State.reset o = 0 := by
  unfold readReg
  split <;> rfl

/-- Settles O13: the state after reset is evaluated, offset by offset. -/
theorem resetState : Obligations.ResetState :=
  ⟨readReg_reset, rfl, rfl, rfl, rfl, rfl, rfl, rfl⟩

/-! ### The host and MEM -/

theorem not_borrowed {s : State} {a : Nat}
    (h : s.status.busy = false ∨ ∀ d, descriptor s.j.mode = some d → ¬ InBuffers s.j d a) : borrowed s a = false := by
  rw [← Bool.not_eq_true, borrowed_iff]
  rintro ⟨hbusy, d, hd, hin⟩
  rcases h with hidle | hout
  · simp [hidle] at hbusy
  · exact hout d hd hin

/-- Settles O12: the three answers of a host write exclude each other, by the address and by `borrowed`. -/
theorem hostMemoryWrite : Obligations.HostMemoryWrite := by
  intro s a b rest hq
  have hstep : step s = hostWriteMem a b { s with hostQueue := rest } := step_of_queue hq
  refine ⟨fun ha => ?_, fun ha hin => ?_, fun ha hout => ?_⟩
  · rw [hstep]
    exact if_pos ha
  · have hb : borrowed { s with hostQueue := rest } a = true := (borrowed_iff s a).mpr hin
    rw [hstep]
    exact (if_neg (Nat.not_le_of_lt ha)).trans (if_pos hb)
  · have hb : borrowed { s with hostQueue := rest } a = false := not_borrowed hout
    refine ⟨{ s with mem := s.mem.writeByte a b, hostQueue := rest }, ?_, rfl, Memory.readByte_writeByte_self _ _ _,
      fun x hx => Memory.readByte_writeByte_of_ne _ _ (Ne.symm hx)⟩
    rw [hstep]
    exact (if_neg (Nat.not_le_of_lt ha)).trans (if_neg (by simp [hb]))

/-- What the host reads, by whether it has business reading the byte. -/
theorem hostReadMem_eq (s : State) (a : Nat) :
    hostReadMem s a = if 2 ^ 32 ≤ a ∨ borrowed s a = true then none else some (s.mem.readByte a) := by
  exact if_congr (by rw [Bool.or_eq_true, decide_eq_true_eq, Config.addrW]) rfl rfl

/-- Settles O60: reads by the address and by `borrowed`, which a landed write does not change. -/
theorem hostMemoryRead : Obligations.HostMemoryRead := by
  refine ⟨fun s a ha => ?_, fun s a d hb hd hin => ?_, fun s a ha hout => ?_, fun s t a x b rest hq hstep => ?_⟩
  · rw [hostReadMem_eq, if_pos (.inl ha)]
  · rw [hostReadMem_eq, if_pos (.inr ((borrowed_iff s a).mpr ⟨hb, d, hd, hin⟩))]
  · rw [hostReadMem_eq, if_neg (not_or.mpr ⟨Nat.not_le_of_lt ha, by simp [not_borrowed hout]⟩)]
  rw [step_of_queue hq] at hstep
  change hostWriteMem a b { s with hostQueue := rest } = .next t at hstep
  rcases hostWriteMem_cases a b { s with hostQueue := rest } with ⟨_, h⟩ | ⟨_, _, h⟩ | ⟨ha, hb, h⟩
  · exact nomatch h.symm.trans hstep
  · exact nomatch h.symm.trans hstep
  · cases h.symm.trans hstep
    have ha : a < 2 ^ 32 := ha
    have hb : borrowed s a = false := hb
    simp only [hostReadMem_eq, borrowed_mem, Memory.readByte_writeByte, eq_comm (a := a)]
    by_cases hx : x = a
    · rw [hx, if_pos rfl, if_pos rfl, if_neg (not_or.mpr ⟨Nat.not_le_of_lt ha, by simp [hb]⟩)]
    · rw [if_neg hx, if_neg hx]

end Sys2Proof.Proofs.HostPort
end

section
/-! The validator (40_validator.md), the launch premises (70_reset_and_hazards.md R335 to R337) and what a job answers before
any of its phases has run. -/

namespace Sys2Proof.Proofs.Validator

open Sys2Proof.Machine Sys2Proof.Proofs.Encoding

/-! ### The checks, as conditions -/

theorem decide_mem_rawModeCodes (mode : Word) : decide (mode ∈ rawModeCodes) = isRaw mode :=
  Bool.eq_iff_iff.mpr (decide_eq_true_iff.trans (isRaw_iff mode).symm)

theorem decide_mem_modelModeCodes (mode : Word) : decide (mode ∈ modelModeCodes) = isModel mode :=
  Bool.eq_iff_iff.mpr (decide_eq_true_iff.trans (isModel_iff mode).symm)

theorem decide_not_mem_modeCodes (mode : Word) : decide (mode ∉ modeCodes) = (descriptor mode).isNone :=
  Bool.eq_iff_iff.mpr (by rw [decide_eq_true_iff, Option.isNone_iff_eq_none, descriptor_eq_none_iff])

theorem not_isRaw_of_isModel {mode : Word} (h : isModel mode = true) : isRaw mode = false := by
  cases hd : descriptor mode with
  | none => simp [isModel, hd] at h
  | some d =>
    have hpre := (isModel_of_descriptor hd).mp h
    simp [isRaw, hd, hpre]

/-- Two present handles are the same buffer when their bases agree (10_state.md R22). -/
theorem same_eq_false_iff (a b : Handle) :
    a.same b = false ↔ (a.present = true → b.present = true → a.base ≠ b.base) := by
  cases ha : a.present <;> cases hb : b.present <;> simp [Handle.same, ha, hb]

/-! ### The count -/

theorem length_filter_fst (l : List (Bool × Option Nat)) :
    (l.filter (fun c => c.1)).length = (l.map (fun c => c.1)).count true := by
  rw [List.count, List.countP_map, ← List.countP_eq_length_filter]
  exact List.countP_congr fun c _ => by simp

theorem validateCount_eq (j : JobRecord) :
    validateCount j = ((checksAlways j).map (fun c => c.1)).count true
      + if isRaw j.mode then 0 else ((checksParameters j).map (fun c => c.1)).count true := by
  rw [validateCount, length_filter_fst, checksOf]
  split_ifs
  · rfl
  · rw [List.map_append, List.count_append]

/-- There are fifteen checks. -/
theorem validateCount_le (j : JobRecord) : validateCount j ≤ 15 := by
  refine (List.length_filter_le _ _).trans ?_
  rw [checksOf]
  split_ifs
  · exact (by decide : 11 ≤ 15)
  · exact le_refl 15

theorem validateCount_eq_zero_iff (j : JobRecord) :
    validateCount j = 0 ↔ (∀ c ∈ checksAlways j, c.1 = false)
      ∧ (isRaw j.mode = false → ∀ c ∈ checksParameters j, c.1 = false) := by
  rw [validateCount, List.length_eq_zero_iff, List.filter_eq_nil_iff, checksOf]
  cases isRaw j.mode <;> simp [or_imp, forall_and]

/-- Settles O17: each check is the negation of one clause of the legal configuration. -/
theorem noCheckFiresIffValid : Obligations.NoCheckFiresIffValid := by
  intro j
  rw [validateCount_eq_zero_iff]
  simp only [checksAlways, checksParameters, List.forall_mem_cons, List.not_mem_nil, false_imp_iff, implies_true, and_true,
    checkV1, checkV2, checkV3, checkV4, checkV5, checkV6, checkV7, checkV8, checkV9, checkV10, checkV11, checkV12,
    checkV13, checkV14, checkV15, Bool.not_eq_false', Bool.and_eq_false_imp, Bool.or_eq_false_iff, same_eq_false_iff,
    decide_eq_true_eq, decide_eq_false_iff_not, Option.isNone_eq_false_iff, Nat.not_lt]
  constructor
  · rintro ⟨⟨v1, v2, v3, v4, v5, v6, v7, v8, v9, v10, v11⟩, hparams⟩
    exact {
      inputPresent := v1
      outputPresent := v2
      outputDistinct := v3 v1 v2
      someCapacity := fun hs => by
        by_contra hb
        exact absurd (v4 (by omega)) (by omega)
      modelPresent := v5
      modelDistinct := fun hm => ⟨v6 hm (v5 hm) v1, v7 hm (v5 hm) v2⟩
      updatedDistinct := fun hm hu => ⟨v8 hm hu v1, v9 hm hu v2⟩
      rawFits := v10
      modeRecognised := v11
      modelValueLegal := fun hm => (hparams (not_isRaw_of_isModel hm)).1 hm
      golombParLegal := fun hr => (hparams hr).2.1
      spillLegal := fun hr => (hparams hr).2.2.1
      roundLegal := fun hr => (hparams hr).2.2.2 }
  · intro h
    exact ⟨⟨h.inputPresent, h.outputPresent, fun _ _ => h.outputDistinct,
      fun hb => by
        by_contra hs
        exact absurd (h.someCapacity (by omega)) (by omega), h.modelPresent, fun hm _ _ => (h.modelDistinct hm).1,
      fun hm _ _ => (h.modelDistinct hm).2, fun hm hu _ => (h.updatedDistinct hm hu).1,
      fun hm hu _ => (h.updatedDistinct hm hu).2, h.rawFits, h.modeRecognised⟩,
      fun hr => ⟨h.modelValueLegal, h.golombParLegal hr, h.spillLegal hr, h.roundLegal hr⟩⟩

/-! ### The error bits -/

theorem getLsbD_setErrBit (err : BitVec 16) (bit b : Nat) :
    (setErrBit err bit).getLsbD b = (err.getLsbD b || decide (b < 16 ∧ bit = b)) := by
  rw [setErrBit, BitVec.getLsbD_or, BitVec.getLsbD_ofNat, Nat.testBit_two_pow, Bool.decide_and]

/-- The bits of the firing checks, set one after the other. -/
def raisedBits (l : List (Bool × Option Nat)) (err : BitVec 16) : BitVec 16 :=
  (l.filter (fun c => c.1)).foldl
    (fun err c => match c.2 with
      | some b => setErrBit err b
      | none => err) err

theorem validateBits_eq (j : JobRecord) : validateBits j = raisedBits (checksOf j) 0 := rfl

theorem getLsbD_raisedBits (l : List (Bool × Option Nat)) (err : BitVec 16) {b : Nat} (hb : b < 16) :
    (raisedBits l err).getLsbD b = (err.getLsbD b || l.any (fun c => c.1 && c.2 == some b)) := by
  induction l generalizing err with
  | nil => simp [raisedBits]
  | cons c rest ih =>
    obtain ⟨fires, bit⟩ := c
    cases fires with
    | false => exact (ih err).trans (by simp)
    | true =>
      cases bit with
      | none => exact (ih err).trans (by simp)
      | some k =>
        refine (ih (setErrBit err k)).trans ?_
        rw [getLsbD_setErrBit, Bool.eq_iff_iff]
        simp [hb, or_assoc]

/-- The validator sets bits 0 to 3 only (40_validator.md R120). -/
theorem getLsbD_validateBits_high (j : JobRecord) {b : Nat} (hb : 4 ≤ b) : (validateBits j).getLsbD b = false := by
  rcases Nat.lt_or_ge b 16 with h16 | h16
  · have h0 : ¬ 0 = b := by omega
    have h1 : ¬ 1 = b := by omega
    have h2 : ¬ 2 = b := by omega
    have h3 : ¬ 3 = b := by omega
    rw [validateBits_eq, getLsbD_raisedBits _ _ h16, checksOf]
    split_ifs <;>
      simp [checksAlways, checksParameters, smallBufferErrBit, cmpModeErrBit, modelValueErrBit, cmpParErrBit, h0, h1, h2, h3]
  · exact BitVec.getLsbD_of_ge _ _ h16

/-- No check, no bit. -/
theorem validateBits_eq_zero {j : JobRecord} (h : (checksOf j).all (fun c => !c.1 || c.2.isNone) = true) :
    validateBits j = 0 := by
  refine BitVec.eq_of_getLsbD_eq fun b hb => ?_
  rw [validateBits_eq, getLsbD_raisedBits _ _ hb]
  have hnone : (checksOf j).any (fun c => c.1 && c.2 == some b) = false := by
    rw [List.any_eq_false]
    intro c hc
    have hclear := List.all_eq_true.mp h c hc
    obtain ⟨fires, bit⟩ := c
    cases fires <;> cases bit <;> simp_all
  rw [hnone, Bool.or_false]

theorem validateBits_of_valid {j : JobRecord} (h : validateCount j = 0) : validateBits j = 0 := by
  rw [validateCount, List.length_eq_zero_iff, List.filter_eq_nil_iff] at h
  exact validateBits_eq_zero (List.all_eq_true.mpr fun c hc => by simp [h c hc])

theorem validateBits_lt (j : JobRecord) : (validateBits j).toNat < 16 := by
  refine Nat.lt_pow_two_of_testBit (n := 4) _ fun b hb => ?_
  exact getLsbD_validateBits_high j hb

theorem checkV12_eq (j : JobRecord) : checkV12 j = (isModel j.mode && decide (16 < j.modelValue.toNat)) := rfl

theorem checkV13_eq (j : JobRecord) :
    checkV13 j = (decide (j.golombPar.toNat < 1) || decide (65535 < j.golombPar.toNat)) := rfl

theorem checkV15_eq (j : JobRecord) : checkV15 j = decide (3 < j.round.toNat) := rfl

/-- Settles O16: the checks are the written-out conditions, and each bit is set by the checks that name it. -/
theorem validatorReport : Obligations.ValidatorReport := by
  intro j
  simp only [decide_mem_rawModeCodes, decide_mem_modelModeCodes]
  rw [show decide (j.mode ∉ rawModeCodes ++ diffModeCodes ++ modelModeCodes) = (descriptor j.mode).isNone from
    decide_not_mem_modeCodes j.mode]
  simp only [Bool.decide_and, Bool.decide_or]
  refine ⟨validateCount_eq j, fun b => ?_⟩
  match b with
  | 0 | 1 | 2 | 3 =>
    rw [validateBits_eq, getLsbD_raisedBits _ _ (by decide), checksOf, Bool.eq_iff_iff]
    cases hraw : isRaw j.mode <;>
      simp [checksAlways, checksParameters, smallBufferErrBit, cmpModeErrBit, modelValueErrBit, cmpParErrBit, checkV4, checkV10,
        checkV11, checkV12_eq, checkV13_eq, checkV14, checkV15_eq, hraw, minIcuSpill, or_assoc]
  | b + 4 => exact getLsbD_validateBits_high j (by omega)

end Sys2Proof.Proofs.Validator
end

section
/-! The launch premises (70_reset_and_hazards.md R335 to R337), what `exec` answers before any phase of a job has run, and
what a reset leaves of MEM (10_state.md R40). -/

namespace Sys2Proof.Proofs.Launch

open Sys2Proof.Machine Sys2Proof.Proofs.Encoding Sys2Proof.Proofs.Validator Sys2Proof.Proofs.HostPort
  Sys2Proof.Proofs.Fields

/-! ### The launch premises -/

theorem pairwiseDisjoint_iff (es : List Extent) :
    pairwiseDisjoint es = true ↔ es.Pairwise (fun a b => a.disjoint b = true) := by
  induction es with
  | nil => simp [pairwiseDisjoint]
  | cons e rest ih => simp [pairwiseDisjoint, ih]

/-- A launch is not refused exactly when it keeps the premises. -/
theorem launchRefusal_eq_none_iff (j : JobRecord) (d : Descriptor) :
    launchRefusal j d = none ↔ LaunchPremises j d := by
  have hwrap : ((usedExtents j d).any (fun e => decide (2 ^ Config.addrW < e.base + e.len)) = true)
      ↔ ¬ ∀ e ∈ usedExtents j d, e.base + e.len ≤ 2 ^ Config.addrW := by
    simp only [List.any_eq_true, decide_eq_true_eq, not_forall, exists_prop, Nat.not_le]
  constructor
  · intro h
    unfold launchRefusal at h
    split_ifs at h with hcap hraw hspan hnowrap halign hdisj
    exact {
      capacityFits := fun hp => Nat.lt_of_not_le fun hc => hcap ⟨hp, hc⟩
      rawSizeFits := fun hp => Nat.lt_of_not_le fun hc => hraw ⟨hp, hc⟩
      samplesFit := Nat.le_of_not_lt hspan
      noWrap := not_not.mp (hwrap.not.mp hnowrap)
      outputAligned := not_not.mp halign
      disjoint := (pairwiseDisjoint_iff _).mp hdisj }
  · intro h
    rw [launchRefusal, if_neg (fun hc => Nat.not_le_of_lt (h.capacityFits hc.1) hc.2),
      if_neg (fun hc => Nat.not_le_of_lt (h.rawSizeFits hc.1) hc.2), if_neg (Nat.not_lt_of_le h.samplesFit),
      if_neg (hwrap.not.mpr (not_not_intro h.noWrap)), if_neg (not_not_intro h.outputAligned),
      if_pos ((pairwiseDisjoint_iff _).mpr h.disjoint)]

/-! ### The job scheme behind `exec` -/

/-- What a job runs after VALIDATE (45_dispatcher.md R230): the raw copy, or PRE, MAP, ENCODE and PAD. -/
def jobBody (d : Descriptor) (s : State) : StepResult :=
  match d.esc with
  | none => .next (rawPhase d.shape s)
  | some e =>
    afterEncode (encodePhase d.shape e (mapPhase d.shape e (prePhase d.shape d.pre s)))
      (fun s => .next (completeCompressed s))

/-- What runs after VALIDATE always answers a next state. -/
theorem jobBody_next (d : Descriptor) (s : State) : ∃ t, jobBody d s = .next t := by
  unfold jobBody
  split
  · exact ⟨_, rfl⟩
  · cases encodePhase d.shape _ (mapPhase d.shape _ (prePhase d.shape d.pre s)) <;> exact ⟨_, rfl⟩

theorem exec_eq_of_descriptor {i : Instr} {d : Descriptor} (hd : descriptor (jobOf i).mode = some d) (s : State) :
    exec i s = validateThen d (jobBody d) (latchJob (jobOf i) s) := by
  obtain ⟨d', hd', hcase⟩ := exec_eq i s
  obtain rfl : d = d' := Option.some.inj (hd.symm.trans hd')
  obtain ⟨sh, pre, esc⟩ := d
  rcases hcase with ⟨rfl, rfl, h⟩ | ⟨e, _, rfl, h⟩ <;> exact h

theorem exists_descriptor (i : Instr) : ∃ d, descriptor (jobOf i).mode = some d := by
  obtain ⟨d, hd, -⟩ := exec_eq i State.reset
  exact ⟨d, hd⟩

/-- All that `exec` can answer: the configuration error, the empty job, a refusal, or what the phases answer. -/
theorem exec_cases {i : Instr} {d : Descriptor} (hd : descriptor (jobOf i).mode = some d) (s : State) :
    (0 < validateCount (jobOf i)
      ∧ exec i s = .next (raiseError (.config (validateCount (jobOf i))) (depositBits (latchJob (jobOf i) s)))) ∨
    (ValidConfig (jobOf i) ∧ (jobOf i).samples.toNat = 0
      ∧ exec i s = .next (finishJob (depositBits (latchJob (jobOf i) s)))) ∨
    (ValidConfig (jobOf i) ∧ 0 < (jobOf i).samples.toNat ∧ ¬ LaunchPremises (jobOf i) d ∧ ∃ r, exec i s = .refused r) ∨
    (Launchable (jobOf i) d ∧ exec i s = jobBody d (depositBits (latchJob (jobOf i) s))) := by
  have hvalid : validateCount (jobOf i) = 0 → ValidConfig (jobOf i) := (noCheckFiresIffValid _).mp
  rw [exec_eq_of_descriptor hd]
  rcases validateThen_cases d (jobBody d) (latchJob (jobOf i) s) with ⟨hn, h⟩ | ⟨hn, hs, h⟩ | ⟨r, hn, hs, hr, h⟩
    | ⟨hn, hs, hr, h⟩
  · exact .inl ⟨hn, h⟩
  · exact .inr (.inl ⟨hvalid hn, hs, h⟩)
  · refine .inr (.inr (.inl ⟨hvalid hn, hs, fun hp => ?_, r, h⟩))
    exact nomatch hr.symm.trans ((launchRefusal_eq_none_iff _ _).mpr hp)
  · exact .inr (.inr (.inr ⟨⟨hvalid hn, hs, (launchRefusal_eq_none_iff _ _).mp hr⟩, h⟩))

theorem not_validConfig_of_pos {j : JobRecord} (hn : 0 < validateCount j) : ¬ ValidConfig j :=
  fun h => Nat.ne_of_gt hn ((noCheckFiresIffValid j).mpr h)

/-- Settles O21: by the four answers of `exec`, of which the last is always a next state. -/
theorem launchRefusedExactly : Obligations.LaunchRefusedExactly := by
  intro i s d hd
  obtain ⟨t, ht⟩ := jobBody_next d (depositBits (latchJob (jobOf i) s))
  rcases exec_cases hd s with ⟨hn, h⟩ | ⟨_, hs, h⟩ | ⟨hv, hs, hp, r, h⟩ | ⟨hl, h⟩
  · refine ⟨iff_of_false ?_ fun hr => not_validConfig_of_pos hn hr.1, ?_⟩ <;> simp [h]
  · refine ⟨iff_of_false ?_ fun hr => Nat.ne_of_gt hr.2.1 hs, ?_⟩ <;> simp [h]
  · refine ⟨iff_of_true ⟨r, h⟩ ⟨hv, hs, hp⟩, ?_⟩
    simp [h]
  · refine ⟨iff_of_false ?_ fun hr => hr.2.2 hl.premises, ?_⟩ <;> simp [h, ht]

/-! ### The registers at the end of a job -/

/-- The job `j`, started in `s`, has got to `r` with the error bits `err`: the record is latched and mirrored, nothing is
reported, and CFG, the queue and the pace are as they were. -/
structure InProgress (j : JobRecord) (s r : State) (err : BitVec 16) : Prop where
  cfg : r.cfg = s.cfg
  latched : r.j = j
  status : r.status = { busy := true, done := false, kind := .ok, retval := 0 }
  info : r.info = resultInfo j err 0
  queue : r.hostQueue = s.hostQueue
  pace : r.pace = s.pace

theorem inProgress_depositBits (j : JobRecord) (s : State) :
    InProgress j s (depositBits (latchJob j s)) (validateBits j) :=
  ⟨rfl, rfl, rfl, rfl, rfl, rfl⟩

/-- A launch starts its phases with clear error bits. -/
theorem inProgress_of_launchable {j : JobRecord} {d : Descriptor} (hl : Launchable j d) (s : State) :
    InProgress j s (depositBits (latchJob j s)) 0 := by
  have hbits : validateBits j = 0 := validateBits_of_valid ((noCheckFiresIffValid j).mpr hl.valid)
  exact hbits ▸ inProgress_depositBits j s

/-- The number that an error leaves in RETVAL (60_exceptions.md R303 to R305). -/
def errorResult : JobError → Int
  | .config n => -(n : Int)
  | .smallBuffer => -2
  | .internal => -1

theorem retval_eq (e : JobError) : e.retval = BitVec.ofInt 32 (errorResult e) := by
  cases e <;> rfl

section
variable {j : JobRecord} {s r : State} {err : BitVec 16}

theorem InProgress.raise (h : InProgress j s r err) (e : JobError) :
    Finished j s (raiseError e r) e.kind (errorResult e) (e.errBits err) 0 := by
  refine ⟨h.cfg, h.latched, rfl, ?_, ?_, h.queue, h.pace⟩
  · rw [raiseError_status, retval_eq]
  · rw [raiseError_info, h.info]
    rfl

theorem InProgress.succeed (h : InProgress j s r err) (n : Nat) : Finished j s (succeedJob n r) .ok 0 err n := by
  refine ⟨h.cfg, h.latched, rfl, rfl, ?_, h.queue, h.pace⟩
  rw [succeedJob_info, h.info]
  rfl

theorem InProgress.finish (h : InProgress j s r err) : Finished j s (finishJob r) .ok 0 err 0 := by
  refine ⟨h.cfg, h.latched, rfl, ?_, h.info, h.queue, h.pace⟩
  rw [finishJob_status, h.status]
  rfl

end

/-! ### Jobs that end in VALIDATE -/

/-- Settles O19: the validator reads the job record only, and the error leaves everything but the result registers. -/
theorem configErrorOutcome : Obligations.ConfigErrorOutcome := by
  intro i s hn
  obtain ⟨d, hd⟩ := exists_descriptor i
  have hexec : ∀ s, exec i s
      = .next (raiseError (.config (validateCount (jobOf i))) (depositBits (latchJob (jobOf i) s))) := by
    intro s
    rw [exec_eq_of_descriptor hd]
    exact if_pos hn
  exact ⟨validateCount_le _, validateBits_eq_zero, _, hexec s, (inProgress_depositBits _ s).raise _, rfl, rfl,
    fun m => hexec _⟩

/-- Settles O20: no check fires, so the job ends with clear bits right after VALIDATE. -/
theorem emptyJobOutcome : Obligations.EmptyJobOutcome := by
  intro i s hv hs
  obtain ⟨d, hd⟩ := exists_descriptor i
  have hn : validateCount (jobOf i) = 0 := (noCheckFiresIffValid _).mpr hv
  have hexec : ∀ s, exec i s = .next (finishJob (depositBits (latchJob (jobOf i) s))) := by
    intro s
    rw [exec_eq_of_descriptor hd]
    exact (if_neg (by simp [hn])).trans (if_pos (by simp [hs]))
  have hfinished := (inProgress_depositBits (jobOf i) s).finish
  rw [validateBits_of_valid hn] at hfinished
  exact ⟨_, hexec s, hfinished, rfl, rfl, fun m => hexec _⟩

/-- Words whose mode is unrecognised are no instruction. -/
theorem runFetched_of_unrecognised {s : State} (hmode : s.cfg.mode ∉ modeCodes) :
    runFetched s = unrecognisedJob s.cfg s := by
  rw [runFetched, fetchWords, decode_of_no_row ((modeRow_eq_none_iff _).mpr hmode)]

/-- Check V11 fires for an unrecognised mode. -/
theorem checkV11_mem {j : JobRecord} (hmode : j.mode ∉ modeCodes) : (true, some cmpModeErrBit) ∈ checksOf j := by
  have hV11 : checkV11 j = true := by rw [checkV11, ← decide_not_mem_modeCodes, decide_eq_true hmode]
  rw [checksOf]
  split_ifs <;> simp [checksAlways, hV11]

/-- Settles O8: V11 fires, so the job of such a word ends in VALIDATE. -/
theorem unrecognisedModeJob : Obligations.UnrecognisedModeJob := by
  intro s v rest hq hv hb hp hmode
  have hfires := checkV11_mem hmode
  have hn : 0 < validateCount s.cfg :=
    List.length_pos_of_mem (List.mem_filter.mpr ⟨hfires, rfl⟩)
  refine ⟨hn, ?_, raiseError (.config (validateCount s.cfg)) (depositBits (latchJob s.cfg { s with hostQueue := rest })),
    ?_, (inProgress_depositBits s.cfg { s with hostQueue := rest }).raise _, rfl⟩
  · rw [validateBits_eq, getLsbD_raisedBits _ _ (by decide)]
    exact Bool.or_eq_true_iff.mpr (.inr (List.any_eq_true.mpr ⟨_, hfires, by decide⟩))
  · rw [step_of_start hq hv, startCommand_of_wholeJob (s := { s with hostQueue := rest }) hb hp,
      runFetched_of_unrecognised (s := { s with hostQueue := rest }) hmode, unrecognisedJob, unrecognisedPhase]
    exact congrArg Host.Outcome.next (if_pos hn)

/-! ### The extents that a job may write -/

/-- A launch that keeps the premises writes no extent over the top of MEM: every extent it writes is one it uses. -/
theorem writableExtents_noWrap {j : JobRecord} {d : Descriptor} (hp : LaunchPremises j d) :
    ∀ e ∈ writableExtents j d, e.base + e.len ≤ 2 ^ 32 := by
  have hused : ∀ e ∈ usedExtents j d, e.base + e.len ≤ 2 ^ 32 := hp.noWrap
  simp only [usedExtents, modelExtents, List.mem_append, or_imp, forall_and] at hused
  obtain ⟨⟨hin, hout⟩, hmodel⟩ := hused
  simp only [writableExtents, List.mem_append, or_imp, forall_and]
  refine ⟨hout, ?_⟩
  cases hpre : d.pre with
  | none => simp
  | diff => exact hin
  | model =>
    simp only [hpre, if_true, List.mem_append, or_imp, forall_and] at hmodel
    obtain ⟨hmdl, hupd⟩ := hmodel
    simp only [List.mem_append, or_imp, forall_and]
    refine ⟨hin, fun e he => ?_⟩
    obtain ⟨hpresent, rfl⟩ := mem_ifPresent.mp he
    unfold modelTarget at hpresent ⊢
    by_cases hu : j.updatedModel.present = true
    · rw [if_pos hu] at hpresent ⊢
      by_cases hs : j.updatedModel.same j.model = true
      · obtain ⟨⟨-, hm⟩, hb⟩ : (j.updatedModel.present = true ∧ j.model.present = true)
            ∧ j.updatedModel.base = j.model.base := by
          simpa [Handle.same] using hs
        have := hmdl _ (mem_ifPresent.mpr ⟨hm, rfl⟩)
        rwa [sampleExtent, hb]
      · rw [if_neg hs] at hupd
        exact hupd _ (mem_ifPresent.mpr ⟨hu, rfl⟩)
    · rw [if_neg hu] at hpresent ⊢
      exact hmdl _ (mem_ifPresent.mpr ⟨hpresent, rfl⟩)

/-! ### Reset -/

theorem readByte_fillFree_of_ne (m : Memory) (draw base n x : Nat) (h : ∀ k, k < n → wrapAddress (base + k) ≠ x) :
    (m.fillFree draw base n).readByte x = m.readByte x := by
  induction n with
  | zero => rfl
  | succ n ih =>
    rw [Memory.fillFree, Memory.readByte_writeByte_of_ne _ _ (h n (Nat.lt_succ_self n))]
    exact ih (fun k hk => h k (Nat.lt_succ_of_lt hk))

/-- Free values stay inside an extent that does not run over the top of MEM. -/
theorem fillFree_keptOutside (m : Memory) (draw : Nat) {base len : Nat} (h : base + len ≤ 2 ^ 32) :
    KeptOutside [{ base := base, len := len }] m (m.fillFree draw base len) := by
  intro a ha
  have hout := ha _ List.mem_cons_self
  simp only [← Bool.not_eq_true, Extent.covers_iff] at hout
  refine readByte_fillFree_of_ne _ _ _ _ _ fun k hk => ?_
  rw [wrapAddress_of_lt (by omega)]
  omega

/-- What is kept outside some extents is kept outside more of them. -/
theorem keptOutside_mono {es es' : List Extent} {m m' : Memory} (hsub : es ⊆ es') (h : KeptOutside es m m') :
    KeptOutside es' m m' :=
  fun a ha => h a fun e he => ha e (hsub he)

theorem resetCore_mem (s : State) :
    (resetCore s).mem = (interruptedExtents s).foldl (fun m e => m.fillFree s.freeDraws e.base e.len) s.mem := rfl

theorem writesMem_eq_true_iff (j : JobRecord) (d : Descriptor) :
    writesMem j d = true ↔ validateCount j = 0 ∧ j.samples ≠ 0 ∧ LaunchPremises j d
      ∧ ¬ (d.pre = .none ∧ capacity j / 8 < sampleSpan j d.shape) := by
  simp only [writesMem, Bool.and_eq_true, beq_iff_eq, bne_iff_ne, Option.isNone_iff_eq_none, launchRefusal_eq_none_iff,
    Bool.not_eq_true', ← Bool.not_eq_true, decide_eq_true_eq, and_assoc]

theorem resetCore_keptOutside {s : State} {d : Descriptor} (hd : descriptor s.j.mode = some d) :
    KeptOutside (writableExtents s.j d) s.mem (resetCore s).mem := by
  rw [resetCore_mem]
  refine keptOutside_foldl (fun m e he => ?_) _
  have hw : e ∈ writableExtents s.j d := interruptedExtents_subset hd he
  have hfree : writesMem s.j d = true := by
    by_contra hno
    rw [interruptedExtents_eq_nil (fun d' hd' => .inr ?_)] at he
    · exact absurd he List.not_mem_nil
    · obtain rfl := Option.some.inj (hd.symm.trans hd')
      exact Bool.not_eq_true _ ▸ hno
  obtain ⟨-, -, hp, -⟩ := (writesMem_eq_true_iff _ _).mp hfree
  exact keptOutside_mono (List.cons_subset.mpr ⟨hw, List.nil_subset _⟩)
    (fillFree_keptOutside m s.freeDraws (writableExtents_noWrap hp e hw))

/-- Settles O14: the registers by evaluation, MEM by what the interrupted job could write. -/
theorem resetMove : Obligations.ResetMove := by
  intro s rest hq
  refine ⟨resetCore { s with hostQueue := rest }, step_of_queue hq, fun o => ?_, rfl, rfl, rfl, rfl, rfl, rfl, rfl,
    fun hquiet => ?_, fun d hd => resetCore_keptOutside (s := { s with hostQueue := rest }) hd⟩
  · exact (readReg_congr (t := State.reset) rfl rfl rfl rfl o).trans (readReg_reset o)
  · rw [resetCore_mem, interruptedExtents_eq_nil (s := { s with hostQueue := rest }) (fun d hd => ?_)]
    · rfl
    change s.status.busy = false ∨ writesMem s.j d = false
    change descriptor s.j.mode = some d at hd
    rw [← Bool.not_eq_true (writesMem s.j d), writesMem_eq_true_iff]
    rcases hquiet with hidle | hnone | hn | hs | ⟨d', hd', hcase⟩
    · exact .inl hidle
    · exact nomatch hd.symm.trans hnone
    · exact .inr fun h => Nat.ne_of_gt hn h.1
    · exact .inr fun h => h.2.1 hs
    · obtain rfl := Option.some.inj (hd.symm.trans hd')
      exact .inr fun h => hcase.elim (fun hp => hp h.2.2.1) h.2.2.2

end Sys2Proof.Proofs.Launch
end

section
/-! The two grains of the machine (10_state.md R27, R28; log 1): five moves of the core, one phase each, against the whole
job in one step. -/

namespace Sys2Proof.Proofs.Grains

open Sys2Proof.Machine Sys2Proof.Proofs.Encoding Sys2Proof.Proofs.Launch

/-! ### The move of the core, phase by phase -/

theorem coreMove_of_idle {s : State} (hb : s.status.busy = false) : coreMove s = .next s := by
  rw [coreMove, hb]
  rfl

theorem coreMoves_of_idle (k : Nat) {s : State} (hb : s.status.busy = false) : coreMoves k s = .next s := by
  induction k with
  | zero => rfl
  | succ k ih => rw [coreMoves, coreMove_of_idle hb, andThen_next, ih]

section
variable {s : State} (hb : s.status.busy = true)
include hb

theorem coreMove_of_validate (hp : s.seq.phase = .validate) : coreMove s = validateStep s := by
  simp [coreMove, hb, hp]

theorem coreMove_of_pre (hp : s.seq.phase = .pre) : coreMove s = preStep s := by
  simp [coreMove, hb, hp]

theorem coreMove_of_map (hp : s.seq.phase = .map) : coreMove s = mapStep s := by
  simp [coreMove, hb, hp]

theorem coreMove_of_encode (hp : s.seq.phase = .encode) : coreMove s = encodeStep s := by
  simp [coreMove, hb, hp]

theorem coreMove_of_pad (hp : s.seq.phase = .pad) : coreMove s = .next (completeCompressed s) := by
  simp [coreMove, hb, hp]

end

/-! ### The phases of a job with a recognised mode -/

/-- The phase after VALIDATE (10_state.md R27). -/
def firstPhase (d : Descriptor) : Phase := if d.pre = .none then .encode else .pre

theorem validateStep_of_descriptor {s : State} {d : Descriptor} (hd : descriptor s.j.mode = some d) :
    validateStep s = validateThen d (fun t => .next (enterPhase (firstPhase d) t)) s := by
  simp only [validateStep, hd, firstPhase]

theorem preStep_of_descriptor {s : State} {d : Descriptor} (hd : descriptor s.j.mode = some d) :
    preStep s = .next (enterPhase .map (prePhase d.shape d.pre s)) := by
  simp only [preStep, hd]

theorem mapStep_of_descriptor {s : State} {d : Descriptor} {e : Escape} (hd : descriptor s.j.mode = some d)
    (he : d.esc = some e) : mapStep s = .next (enterPhase .encode (mapPhase d.shape e s)) := by
  obtain ⟨sh, pre, esc⟩ := d
  subst he
  simp only [mapStep, hd]

theorem encodeStep_of_descriptor {s : State} {d : Descriptor} {e : Escape} (hd : descriptor s.j.mode = some d)
    (he : d.esc = some e) :
    encodeStep s = afterEncode (encodePhase d.shape e s) (fun t => .next (enterPhase .pad t)) := by
  obtain ⟨sh, pre, esc⟩ := d
  subst he
  simp only [encodeStep, hd]

theorem encodeStep_of_raw {s : State} {d : Descriptor} (hd : descriptor s.j.mode = some d) (he : d.esc = none) :
    encodeStep s = .next (rawPhase d.shape s) := by
  obtain ⟨sh, pre, esc⟩ := d
  subst he
  simp only [encodeStep, hd]

/-- A mode has an escape mechanism exactly when it pre-processes (30_encoding.md R83). -/
theorem esc_eq_none_iff {mode : Word} {d : Descriptor} (hd : descriptor mode = some d) :
    d.esc = none ↔ d.pre = .none := by
  obtain ⟨-, -, -, -, -, hesc, -⟩ := classesOf_descriptor hd
  exact hesc

theorem jobBody_of_raw {d : Descriptor} (he : d.esc = none) (s : State) : jobBody d s = .next (rawPhase d.shape s) := by
  simp only [jobBody, he]

theorem jobBody_of_esc {d : Descriptor} {e : Escape} (he : d.esc = some e) (s : State) :
    jobBody d s
      = afterEncode (encodePhase d.shape e (mapPhase d.shape e (prePhase d.shape d.pre s)))
          (fun s => .next (completeCompressed s)) := by
  simp only [jobBody, he]

theorem rawPhase_status_busy (sh : Shape) (s : State) : (rawPhase sh s).status.busy = false := by
  unfold rawPhase
  split <;> rfl

/-! ### The moves after VALIDATE -/

/-- The moves that follow ENCODE: the padding, unless an error has ended the job. -/
theorem coreMoves_afterEncode {s₀ : State} {r : Run} (hr : r.Ends (EncodeFrame s₀)) (hb : s₀.status.busy = true) :
    andThen (afterEncode r (fun t => .next (enterPhase .pad t))) (coreMoves 1)
      = afterEncode r (fun t => .next (completeCompressed t)) := by
  cases r with
  | go t =>
    have hframe : EncodeFrame s₀ t := hr
    have hbt : (enterPhase .pad t).status.busy = true := by rw [enterPhase_status, hframe.status, hb]
    rw [afterEncode_go, andThen_next, coreMoves, coreMove_of_pad hbt rfl]
    rfl
  | stop e t => rfl

/-- The moves after VALIDATE run what the whole job runs after VALIDATE. -/
theorem coreMoves_firstPhase {s : State} {d : Descriptor} (hd : descriptor s.j.mode = some d)
    (hb : s.status.busy = true) : coreMoves 4 (enterPhase (firstPhase d) s) = jobBody d s := by
  cases he : d.esc with
  | none =>
    have hfirst : firstPhase d = .encode := if_pos ((esc_eq_none_iff hd).mp he)
    rw [hfirst, coreMoves, coreMove_of_encode (s := enterPhase .encode s) hb rfl,
      encodeStep_of_raw (s := enterPhase .encode s) hd he, andThen_next,
      coreMoves_of_idle 3 (rawPhase_status_busy _ _), jobBody_of_raw he]
    rfl
  | some e =>
    have hfirst : firstPhase d = .pre := if_neg fun hp => nomatch he.symm.trans ((esc_eq_none_iff hd).mpr hp)
    have hpre : coreMove (enterPhase .pre s) = .next (enterPhase .map (prePhase d.shape d.pre s)) := by
      rw [coreMove_of_pre (s := enterPhase .pre s) hb rfl, preStep_of_descriptor (s := enterPhase .pre s) hd]
      rfl
    have hmap : coreMove (enterPhase .map (prePhase d.shape d.pre s))
        = .next (enterPhase .encode (mapPhase d.shape e (prePhase d.shape d.pre s))) := by
      rw [coreMove_of_map (s := enterPhase .map (prePhase d.shape d.pre s)) hb rfl,
        mapStep_of_descriptor (s := enterPhase .map (prePhase d.shape d.pre s)) hd he]
      rfl
    have hencode : coreMove (enterPhase .encode (mapPhase d.shape e (prePhase d.shape d.pre s)))
        = afterEncode (encodePhase d.shape e (mapPhase d.shape e (prePhase d.shape d.pre s)))
            (fun t => .next (enterPhase .pad t)) := by
      rw [coreMove_of_encode (s := enterPhase .encode (mapPhase d.shape e (prePhase d.shape d.pre s))) hb rfl,
        encodeStep_of_descriptor (s := enterPhase .encode (mapPhase d.shape e (prePhase d.shape d.pre s))) hd he]
      rfl
    rw [hfirst, coreMoves, hpre, andThen_next, coreMoves, hmap, andThen_next, coreMoves, hencode, jobBody_of_esc he]
    exact coreMoves_afterEncode (encodePhase_frame _ _ _) hb

/-! ### The whole job -/

/-- What follows VALIDATE may be sequenced inside it, if it leaves ended jobs alone. -/
theorem andThen_validateThen (d : Descriptor) (k l : State → StepResult) (s : State)
    (hl : ∀ t, t.status.busy = false → l t = .next t) :
    andThen (validateThen d k s) l = validateThen d (fun t => andThen (k t) l) s := by
  unfold validateThen
  split_ifs
  · exact hl _ rfl
  · exact hl _ rfl
  · cases launchRefusal s.j d <;> rfl

/-- VALIDATE goes on from one state only. -/
theorem validateThen_congr {d : Descriptor} {k l : State → StepResult} {s : State}
    (h : k (depositBits s) = l (depositBits s)) : validateThen d k s = validateThen d l s := by
  unfold validateThen
  split_ifs
  · rfl
  · rfl
  · cases launchRefusal s.j d with
    | none => exact h
    | some r => rfl

/-- Settles O56: VALIDATE is the same at both grains, and the moves after it run the rest of the job. -/
theorem phaseMovesEqualWholeJob : Obligations.PhaseMovesEqualWholeJob := by
  intro i s
  obtain ⟨d, hd⟩ := exists_descriptor i
  calc coreMoves 5 (latchJob (jobOf i) s)
      = andThen (validateStep (latchJob (jobOf i) s)) (coreMoves 4) := by
        rw [coreMoves, coreMove_of_validate (s := latchJob (jobOf i) s) rfl rfl]
    _ = validateThen d (fun t => coreMoves 4 (enterPhase (firstPhase d) t)) (latchJob (jobOf i) s) := by
        rw [validateStep_of_descriptor (s := latchJob (jobOf i) s) hd,
          andThen_validateThen _ _ _ _ (fun t => coreMoves_of_idle 4)]
        rfl
    _ = validateThen d (jobBody d) (latchJob (jobOf i) s) :=
        validateThen_congr (coreMoves_firstPhase (s := depositBits (latchJob (jobOf i) s)) hd rfl)
    _ = exec i s := (exec_eq_of_descriptor hd s).symm

end Sys2Proof.Proofs.Grains
end

section
/-! The invariant of the machine: what an ended job and a running job have to show, which phases keep it, and how a running
job advances (10_state.md R27 to R36). -/

namespace Sys2Proof.Proofs.Invariant

open Sys2Proof.Machine Sys2Proof.Proofs.Encoding Sys2Proof.Proofs.Validator Sys2Proof.Proofs.HostPort
  Sys2Proof.Proofs.Launch Sys2Proof.Proofs.Grains

/-! ### What stops a phase -/

/-- A run that stops, if it does, with an error of the ENCODE phase (43_entropy_encoder.md R190). -/
def StopsInEncode : Run → Prop
  | .go _ => True
  | .stop e _ => e = .smallBuffer ∨ e = .internal

theorem StopsInEncode.andThen {r : Run} {k : State → Run} (hr : StopsInEncode r) (hk : ∀ s, StopsInEncode (k s)) :
    StopsInEncode (r.andThen k) := by
  cases r with
  | go s => exact hk s
  | stop e s => exact hr

theorem stopsInEncode_runEach {α : Type} {body : α → State → Run} (hbody : ∀ x s, StopsInEncode (body x s)) (xs : List α)
    (s : State) : StopsInEncode (runEach body xs s) := by
  induction xs generalizing s with
  | nil => trivial
  | cons x rest ih => exact (hbody x s).andThen ih

theorem stopsInEncode_put (v n : Nat) (s : State) : StopsInEncode (put v n s) := by
  rw [put_eq]
  split_ifs
  · trivial
  · exact .inl rfl
  · trivial

theorem stopsInEncode_emitNormal (u : Nat) (e : EncSetup) (s : State) : StopsInEncode (emitNormal u e s) := by
  unfold emitNormal
  split_ifs
  · exact .inr rfl
  · exact stopsInEncode_put _ _ _

theorem stopsInEncode_encodeValue (u w : Nat) (e : EncSetup) (s : State) : StopsInEncode (encodeValue u w e s) := by
  unfold encodeValue
  split_ifs
  · cases e.esc with
    | zero => exact (stopsInEncode_emitNormal _ _ _).andThen (stopsInEncode_put _ _)
    | multi => exact (stopsInEncode_emitNormal _ _ _).andThen (stopsInEncode_put _ _)
  · exact stopsInEncode_emitNormal _ _ _

theorem stopsInEncode_encodePhase (sh : Shape) (esc : Escape) (s : State) : StopsInEncode (encodePhase sh esc s) :=
  stopsInEncode_runEach (fun _ => stopsInEncode_runEach (fun _ _ => stopsInEncode_encodeValue _ _ _ _) _) _ _

/-! ### What every state of a started job carries -/

/-- The clauses of the invariant that do not speak of the phase or the result. -/
structure Carries (s : State) : Prop where
  memory : s.mem.wf = true
  cursor : s.enc.streamLen ≤ capacity s.j
  primary : s.enc.pri.coherent
  secondary : s.enc.sec.coherent
  mirrors : s.info = resultInfo s.j s.info.cmpErr s.info.cmpSize.toNat

/-- INFO with its bits and its size replaced still shows the latched job. -/
theorem mirrors_update {j : JobRecord} {info : Info} (h : info = resultInfo j info.cmpErr info.cmpSize.toNat)
    (err : BitVec 16) (size : Word) :
    { info with cmpErr := err, cmpSize := size } = resultInfo j err size.toNat := by
  rw [h]
  simp [resultInfo]

/-- The result of an ended job by its kind (60_exceptions.md R308). -/
def ResultFits (status : Status) (info : Info) : Prop :=
  match status.kind with
  | .ok => status.retval = 0 ∧ info.cmpErr = 0
  | .cfgErr =>
    (∃ n : Nat, 1 ≤ n ∧ n ≤ 15 ∧ status.retval = BitVec.ofInt 32 (-(n : Int))) ∧ info.cmpErr.toNat < 16
      ∧ info.cmpSize = 0
  | .smallBuf => status.retval = BitVec.ofInt 32 (-2) ∧ info.cmpErr = 1 ∧ info.cmpSize = 0
  | .internal => status.retval = BitVec.ofInt 32 (-1) ∧ info.cmpErr = 0 ∧ info.cmpSize = 0

/-- An ended job meets the invariant when its result fits its kind. -/
theorem Carries.ended {s : State} (h : Carries s) (hphase : s.seq.phase = .done) (hbusy : s.status.busy = false)
    (hdone : s.status.done = true) (hresult : ResultFits s.status s.info) : s.Inv where
  memory := h.memory
  busyPhase := by rw [hbusy, hphase]; rfl
  donePhase := by rw [hdone, hphase]; rfl
  cursor := h.cursor
  primary := h.primary
  secondary := h.secondary
  mirrors := fun _ => h.mirrors
  running := fun hb => by simp [hbusy] at hb
  okResult := fun hk => by simpa [ResultFits, hk] using hresult
  configResult := fun hk => by simpa only [ResultFits, hk] using hresult
  capacityResult := fun hk => by simpa only [ResultFits, hk] using hresult
  internalResult := fun hk => by simpa only [ResultFits, hk] using hresult
  beyondValidate := fun hp => by simp [hphase] at hp

/-- A job that runs has reported nothing. -/
structure Quiet (s : State) : Prop where
  status : s.status = { busy := true, done := false, kind := .ok, retval := 0 }
  cmpErr : s.info.cmpErr = 0
  cmpSize : s.info.cmpSize = 0

/-- A running job meets the invariant when it is still in VALIDATE or has been let past it. -/
theorem Carries.running {s : State} (h : Carries s) (hq : Quiet s) (hphase : s.seq.phase.running = true)
    (hbeyond : s.seq.phase ≠ .validate →
      ∃ d, descriptor s.j.mode = some d ∧ Launchable s.j d ∧ (d.pre = .none → s.seq.phase = .encode)) : s.Inv where
  memory := h.memory
  busyPhase := by rw [hq.status, hphase]
  donePhase := by
    rw [hq.status, eq_comm, decide_eq_false_iff_not]
    exact fun hd => by simp [hd, Phase.running] at hphase
  cursor := h.cursor
  primary := h.primary
  secondary := h.secondary
  mirrors := fun _ => h.mirrors
  running := fun _ => ⟨by rw [hq.status], by rw [hq.status], hq.cmpErr, hq.cmpSize⟩
  okResult := fun _ => ⟨by rw [hq.status], hq.cmpErr⟩
  configResult := fun hk => by simp [hq.status] at hk
  capacityResult := fun hk => by simp [hq.status] at hk
  internalResult := fun hk => by simp [hq.status] at hk
  beyondValidate := fun hp => hbeyond fun hv => by simp [hv] at hp

/-- What the invariant says of a running job. -/
theorem carries_of_busy {s : State} (h : s.Inv) (hb : s.status.busy = true) : Carries s ∧ Quiet s := by
  have hrunning : s.seq.phase.running = true := by rw [← h.busyPhase, hb]
  have hidle : s.seq.phase ≠ .idle := fun hp => by simp [hp, Phase.running] at hrunning
  have hdone : s.status.done = false := by
    rw [h.donePhase, decide_eq_false_iff_not]
    exact fun hp => by simp [hp, Phase.running] at hrunning
  obtain ⟨hkind, hretval, herr, hsize⟩ := h.running hb
  refine ⟨⟨h.memory, h.cursor, h.primary, h.secondary, h.mirrors hidle⟩, ⟨?_, herr, hsize⟩⟩
  rw [← hb, ← hdone, ← hkind, ← hretval]

/-! ### The ends of a job -/

theorem Carries.finish {s : State} (h : Carries s) (hq : Quiet s) : (finishJob s).Inv := by
  refine Carries.ended { h with } rfl rfl rfl ?_
  rw [ResultFits, finishJob_status, hq.status]
  exact ⟨rfl, hq.cmpErr⟩

theorem Carries.succeed {s : State} (h : Carries s) (hq : Quiet s) (n : Nat) : (succeedJob n s).Inv :=
  Carries.ended { h with mirrors := mirrors_update h.mirrors _ _ } rfl rfl rfl ⟨rfl, hq.cmpErr⟩

/-- An error whose result fits its kind, given the bits that stand. -/
theorem Carries.raise {s : State} (h : Carries s) (e : JobError)
    (hresult : ResultFits (raiseError e s).status (raiseError e s).info) : (raiseError e s).Inv :=
  Carries.ended { h with mirrors := mirrors_update h.mirrors _ _ } rfl rfl rfl hresult

theorem Carries.raise_of_encode {s : State} (h : Carries s) (hq : Quiet s) {e : JobError}
    (he : e = .smallBuffer ∨ e = .internal) : (raiseError e s).Inv := by
  refine h.raise e ?_
  rcases he with rfl | rfl
  · refine ⟨rfl, ?_, rfl⟩
    show setErrBit s.info.cmpErr smallBufferErrBit = 1
    rw [hq.cmpErr]
    decide
  · exact ⟨rfl, hq.cmpErr, rfl⟩

theorem Carries.depositBits {s : State} (h : Carries s) : Carries (depositBits s) :=
  { h with mirrors := mirrors_update h.mirrors _ _ }

theorem Carries.raise_config {s : State} (h : Carries s) (hn : 0 < validateCount s.j) :
    (raiseError (.config (validateCount s.j)) (Machine.depositBits s)).Inv :=
  h.depositBits.raise _ ⟨⟨_, hn, validateCount_le _, rfl⟩, validateBits_lt _, rfl⟩

/-- No check fires: the deposit is empty. -/
theorem Quiet.depositBits {s : State} (hq : Quiet s) (hn : validateCount s.j = 0) : Quiet (depositBits s) :=
  { hq with cmpErr := validateBits_of_valid hn }

/-! ### What the phases keep -/

theorem Carries.prePhase {s : State} (h : Carries s) (sh : Shape) (pre : Pre) : Carries (prePhase sh pre s) :=
  { h with memory := preMemory_wf _ _ _ h.memory }

theorem Carries.mapPhase {s : State} (h : Carries s) (sh : Shape) (esc : Escape) : Carries (mapPhase sh esc s) :=
  { h with memory := mapMemory_wf _ _ _ h.memory }

theorem coherent_encoderSetup {m : Nat} (hm : 1 ≤ m) (spill : Nat) (esc : Escape) :
    (encoderSetup m spill esc).coherent := ⟨hm, rfl⟩

/-- The ENCODE phase starts with setups that `Setup` makes. -/
theorem Carries.setupEncoders {s : State} (h : Carries s) (esc : Escape) (hm : 1 ≤ s.j.golombPar.toNat) :
    Carries (setupEncoders esc (enterPhase .encode s)) :=
  { h with
    cursor := Nat.zero_le _
    primary := coherent_encoderSetup hm _ _
    secondary := coherent_encoderSetup (by decide) _ _ }

theorem Carries.of_frame {s t : State} (h : Carries s) (hf : EncodeFrame s t) : Carries t where
  memory := hf.memory h.memory
  cursor := hf.cursor
  primary := hf.primary ▸ h.primary
  secondary := hf.secondary ▸ h.secondary
  mirrors := by rw [hf.info, hf.j]; exact h.mirrors

theorem Quiet.of_frame {s t : State} (h : Quiet s) (hf : EncodeFrame s t) : Quiet t :=
  ⟨hf.status.trans h.status, hf.info ▸ h.cmpErr, hf.info ▸ h.cmpSize⟩

theorem Carries.abandonOutput {s : State} (h : Carries s) : Carries (abandonOutput s) :=
  { h with memory := Memory.wf_fillFree _ _ _ h.memory }

theorem Carries.padPhase {s : State} (h : Carries s) : Carries (padPhase s) :=
  { h with memory := padMemory_wf _ _ h.memory }

theorem Carries.rawPhase {s : State} (h : Carries s) (hq : Quiet s) (sh : Shape) : (rawPhase sh s).Inv := by
  unfold Machine.rawPhase
  split
  · exact Carries.raise_of_encode (s := enterPhase .encode s) { h with } { hq with } (.inl rfl)
  · exact Carries.succeed (s := { enterPhase .encode s with mem := _ }) { h with memory := Memory.wf_copy _ _ _ h.memory }
      { hq with } _

/-! ### The moves of a running job -/

/-- The transitions of R27. -/
def Advances (p q : Phase) : Prop :=
  (p, q) ∈ [(Phase.validate, Phase.pre), (.validate, .encode), (.validate, .done), (.pre, .map), (.map, .encode),
    (.encode, .pad), (.encode, .done), (.pad, .done)]

/-- A move answers a state that meets the invariant, in a phase that may follow `p`. -/
def MovesOn (p : Phase) (r : StepResult) : Prop := ∃ t, r = .next t ∧ t.Inv ∧ Advances p t.seq.phase

/-- A launch that has been let past VALIDATE in a mode with descriptor `d`. -/
structure Past (s : State) (d : Descriptor) : Prop where
  carries : Carries s
  quiet : Quiet s
  mode : descriptor s.j.mode = some d
  launch : Launchable s.j d

theorem Past.enter {s : State} {d : Descriptor} (h : Past s d) {p : Phase} (hp : p.running = true)
    (hraw : d.pre = .none → p = .encode) : (enterPhase p s).Inv :=
  Carries.running (s := enterPhase p s) { h.carries with } { h.quiet with } hp fun _ => ⟨d, h.mode, h.launch, hraw⟩

theorem validateStep_movesOn {s : State} (hc : Carries s) (hq : Quiet s) :
    MovesOn .validate (validateStep s) ∨ ∃ r, validateStep s = .refused r := by
  cases hd : descriptor s.j.mode with
  | none =>
    have hmode : s.j.mode ∉ modeCodes := (descriptor_eq_none_iff _).mp hd
    have hn : 0 < validateCount s.j := List.length_pos_of_mem (List.mem_filter.mpr ⟨checkV11_mem hmode, rfl⟩)
    refine .inl ⟨_, ?_, hc.raise_config hn, by simp [Advances]⟩
    simp only [validateStep, hd, unrecognisedPhase, if_pos hn]
  | some d =>
    rw [validateStep_of_descriptor hd]
    rcases validateThen_cases d (fun t => .next (enterPhase (firstPhase d) t)) s with ⟨hn, h⟩ | ⟨hn, hs, h⟩
      | ⟨r, _, _, _, h⟩ | ⟨hn, hs, hr, h⟩
    · exact .inl ⟨_, h, hc.raise_config hn, by simp [Advances]⟩
    · exact .inl ⟨_, h, hc.depositBits.finish (hq.depositBits hn), by simp [Advances]⟩
    · exact .inr ⟨r, h⟩
    · have hpast : Past (depositBits s) d :=
        ⟨hc.depositBits, hq.depositBits hn, hd, (noCheckFiresIffValid _).mp hn, hs, (launchRefusal_eq_none_iff _ _).mp hr⟩
      refine .inl ⟨_, h, ?_⟩
      unfold firstPhase
      split_ifs with hpre
      · exact ⟨hpast.enter rfl fun _ => rfl, by simp [Advances]⟩
      · exact ⟨hpast.enter rfl fun hp => absurd hp hpre, by simp [Advances]⟩

section
variable {s : State} {d : Descriptor} (h : Past s d)
include h

theorem Past.exists_esc (hpre : d.pre ≠ .none) : ∃ e, d.esc = some e :=
  Option.ne_none_iff_exists'.mp fun he => hpre ((esc_eq_none_iff h.mode).mp he)

theorem preStep_movesOn (hpre : d.pre ≠ .none) : MovesOn .pre (preStep s) := by
  have hpast : Past (prePhase d.shape d.pre s) d := ⟨h.carries.prePhase _ _, { h.quiet with }, h.mode, h.launch⟩
  exact ⟨_, preStep_of_descriptor h.mode, hpast.enter rfl fun hp => absurd hp hpre, by simp [Advances]⟩

theorem mapStep_movesOn (hpre : d.pre ≠ .none) : MovesOn .map (mapStep s) := by
  obtain ⟨e, he⟩ := h.exists_esc hpre
  have hpast : Past (mapPhase d.shape e s) d := ⟨h.carries.mapPhase _ _, { h.quiet with }, h.mode, h.launch⟩
  exact ⟨_, mapStep_of_descriptor h.mode he, hpast.enter rfl fun hp => absurd hp hpre, by simp [Advances]⟩

/-- A legal compressing configuration has a parameter to set the encoder up with. -/
theorem Past.golombPar_pos (hpre : d.pre ≠ .none) : 1 ≤ s.j.golombPar.toNat := by
  have hraw : isRaw s.j.mode = false := by
    rw [← Bool.not_eq_true, isRaw_of_descriptor h.mode]
    exact hpre
  exact (h.launch.valid.golombParLegal hraw).1

theorem encodeStep_movesOn : MovesOn .encode (encodeStep s) := by
  cases he : d.esc with
  | none =>
    refine ⟨_, encodeStep_of_raw h.mode he, h.carries.rawPhase h.quiet _, ?_⟩
    unfold Machine.rawPhase
    split <;> simp [Advances]
  | some e =>
    have hpre : d.pre ≠ .none := fun hp => nomatch he.symm.trans ((esc_eq_none_iff h.mode).mpr hp)
    have hframe := encodePhase_frame d.shape e s
    have hstops := stopsInEncode_encodePhase d.shape e s
    have hsetup : Carries (setupEncoders e (enterPhase .encode s)) := h.carries.setupEncoders e (h.golombPar_pos hpre)
    have hquiet : Quiet (setupEncoders e (enterPhase .encode s)) := { h.quiet with }
    rw [encodeStep_of_descriptor h.mode he]
    cases hr : encodePhase d.shape e s with
    | go t =>
      rw [hr] at hframe
      have hf : EncodeFrame (setupEncoders e (enterPhase .encode s)) t := hframe
      have hpast : Past t d := by
        refine ⟨hsetup.of_frame hf, hquiet.of_frame hf, ?_, ?_⟩
        · rw [hf.j]; exact h.mode
        · rw [hf.j]; exact h.launch
      exact ⟨_, rfl, hpast.enter rfl fun hp => absurd hp hpre, by simp [Advances]⟩
    | stop err t =>
      rw [hr] at hframe hstops
      have hf : EncodeFrame (setupEncoders e (enterPhase .encode s)) t := hframe
      exact ⟨_, rfl, (hsetup.of_frame hf).abandonOutput.raise_of_encode { hquiet.of_frame hf with } hstops,
        by simp [Advances]⟩

end

/-- All that a move of a running job can answer (10_state.md R27). -/
theorem coreMove_cases {s : State} (h : s.Inv) (hb : s.status.busy = true) :
    MovesOn s.seq.phase (coreMove s) ∨ (s.seq.phase = .validate ∧ ∃ r, coreMove s = .refused r) := by
  obtain ⟨hc, hq⟩ := carries_of_busy h hb
  have hrunning : s.seq.phase.running = true := by rw [← h.busyPhase, hb]
  have hbeyond := h.beyondValidate
  cases hp : s.seq.phase with
  | idle => simp [hp, Phase.running] at hrunning
  | done => simp [hp, Phase.running] at hrunning
  | validate =>
    rw [coreMove_of_validate hb hp]
    exact (validateStep_movesOn hc hq).imp_right fun hr => ⟨rfl, hr⟩
  | pre =>
    obtain ⟨d, hd, hl, hraw⟩ := hbeyond (by simp [hp])
    rw [coreMove_of_pre hb hp]
    exact .inl (preStep_movesOn ⟨hc, hq, hd, hl⟩ fun hn => nomatch hp.symm.trans (hraw hn))
  | map =>
    obtain ⟨d, hd, hl, hraw⟩ := hbeyond (by simp [hp])
    rw [coreMove_of_map hb hp]
    exact .inl (mapStep_movesOn ⟨hc, hq, hd, hl⟩ fun hn => nomatch hp.symm.trans (hraw hn))
  | encode =>
    obtain ⟨d, hd, hl, -⟩ := hbeyond (by simp [hp])
    rw [coreMove_of_encode hb hp]
    exact .inl (encodeStep_movesOn ⟨hc, hq, hd, hl⟩)
  | pad =>
    rw [coreMove_of_pad hb hp]
    exact .inl ⟨_, rfl, hc.padPhase.succeed { hq with } _, by simp [Advances]⟩

/-- How many moves a job has left at most (10_state.md R27). -/
def movesLeft : Phase → Nat
  | .validate => 5
  | .pre => 4
  | .map => 3
  | .encode => 2
  | .pad => 1
  | .idle => 0
  | .done => 0

theorem movesLeft_lt_of_advances {p q : Phase} (h : Advances p q) : movesLeft q < movesLeft p := by
  simp only [Advances, List.mem_cons, List.not_mem_nil, or_false, Prod.mk.injEq] at h
  rcases h with ⟨rfl, rfl⟩ | ⟨rfl, rfl⟩ | ⟨rfl, rfl⟩ | ⟨rfl, rfl⟩ | ⟨rfl, rfl⟩ | ⟨rfl, rfl⟩ | ⟨rfl, rfl⟩ | ⟨rfl, rfl⟩
    <;> decide

/-- No phase leads back to IDLE or VALIDATE. -/
theorem not_start_of_advances {p q : Phase} (h : Advances p q) : q ≠ .idle ∧ q ≠ .validate := by
  simp only [Advances, List.mem_cons, List.not_mem_nil, or_false, Prod.mk.injEq] at h
  rcases h with ⟨-, rfl⟩ | ⟨-, rfl⟩ | ⟨-, rfl⟩ | ⟨-, rfl⟩ | ⟨-, rfl⟩ | ⟨-, rfl⟩ | ⟨-, rfl⟩ | ⟨-, rfl⟩ <;> decide

theorem busy_eq_false_iff {s : State} (h : s.Inv) (hidle : s.seq.phase ≠ .idle) :
    s.status.busy = false ↔ s.seq.phase = .done := by
  rw [h.busyPhase]
  cases hp : s.seq.phase <;> simp_all [Phase.running]

/-- A job with at most `k` moves left has ended after `k` moves, unless VALIDATE refuses its launch. -/
theorem coreMoves_ends {k : Nat} {s : State} (h : s.Inv) (hidle : s.seq.phase ≠ .idle)
    (hk : movesLeft s.seq.phase ≤ k) :
    (∃ t, coreMoves k s = .next t ∧ t.status.busy = false ∧ t.status.done = true)
      ∨ ∃ r, coreMoves k s = .refused r ∧ s.seq.phase = .validate := by
  induction k generalizing s with
  | zero =>
    have hdone : s.seq.phase = .done := by
      cases hp : s.seq.phase <;> simp_all [movesLeft]
    exact .inl ⟨s, rfl, (busy_eq_false_iff h hidle).mpr hdone, h.donePhase.trans (decide_eq_true hdone)⟩
  | succ k ih =>
    cases hb : s.status.busy with
    | false =>
      refine .inl ⟨s, coreMoves_of_idle _ hb, hb, ?_⟩
      rw [h.donePhase, decide_eq_true ((busy_eq_false_iff h hidle).mp hb)]
    | true =>
      rw [coreMoves]
      rcases coreMove_cases h hb with ⟨t, ht, hinv, hadv⟩ | ⟨hp, r, hr⟩
      · obtain ⟨hti, htv⟩ := not_start_of_advances hadv
        have hfewer := movesLeft_lt_of_advances hadv
        rw [ht, andThen_next]
        exact .inl ((ih hinv hti (by omega)).resolve_right fun ⟨_, _, hv⟩ => htv hv)
      · rw [hr]
        exact .inr ⟨r, rfl, hp⟩

/-- Settles O57: a move goes forward, and the moves left are at most five. -/
theorem phasesAdvance : Obligations.PhasesAdvance := by
  intro s h hb
  have hidle : s.seq.phase ≠ .idle := by
    have hphase := h.busyPhase
    intro hp
    rw [hb, hp] at hphase
    exact Bool.noConfusion hphase
  refine ⟨fun t ht => ?_, coreMoves_ends h hidle (by cases s.seq.phase <;> decide)⟩
  rcases coreMove_cases h hb with ⟨t', ht', -, hadv⟩ | ⟨-, r, hr⟩
  · cases ht'.symm.trans ht
    exact hadv
  · exact nomatch hr.symm.trans ht

/-! ### The invariant -/

/-- Settles O58: the state after reset, clause by clause. -/
theorem invariantAtReset : Obligations.InvariantAtReset where
  memory := rfl
  busyPhase := rfl
  donePhase := rfl
  cursor := Nat.zero_le _
  primary := ⟨le_refl 1, by decide⟩
  secondary := ⟨le_refl 1, by decide⟩
  mirrors := fun h => absurd rfl h
  running := fun h => Bool.noConfusion h
  okResult := fun _ => ⟨rfl, rfl⟩
  configResult := fun h => nomatch h
  capacityResult := fun h => nomatch h
  internalResult := fun h => nomatch h
  beyondValidate := fun h => absurd h (by decide)

/-- A core that is not running keeps the invariant by doing nothing, a running one by its phases. -/
theorem coreMove_inv {s t : State} (h : s.Inv) (ht : coreMove s = .next t) : t.Inv := by
  cases hb : s.status.busy with
  | false =>
    cases (coreMove_of_idle hb).symm.trans ht
    exact h
  | true =>
    rcases coreMove_cases h hb with ⟨t', ht', hinv, -⟩ | ⟨-, r, hr⟩
    · cases ht'.symm.trans ht
      exact hinv
    · exact nomatch hr.symm.trans ht

theorem coreMoves_inv {k : Nat} {s t : State} (h : s.Inv) (ht : coreMoves k s = .next t) : t.Inv := by
  induction k generalizing s with
  | zero =>
    cases ht
    exact h
  | succ k ih =>
    rw [coreMoves] at ht
    cases hm : coreMove s with
    | next s' =>
      rw [hm] at ht
      exact ih (coreMove_inv h hm) ht
    | fault f => rw [hm] at ht; exact nomatch ht
    | refused r => rw [hm] at ht; exact nomatch ht

/-- The latch starts a job that meets the invariant. -/
theorem latchJob_inv {s : State} (h : s.Inv) (j : JobRecord) : (latchJob j s).Inv := by
  have hc : Carries (latchJob j s) := ⟨h.memory, Nat.zero_le _, h.primary, h.secondary, rfl⟩
  exact hc.running ⟨rfl, rfl, rfl⟩ rfl fun hv => absurd rfl hv

/-- The whole job keeps the invariant because its phases do. -/
theorem exec_inv {i : Instr} {s t : State} (h : s.Inv) (ht : exec i s = .next t) : t.Inv := by
  rw [← phaseMovesEqualWholeJob] at ht
  exact coreMoves_inv (latchJob_inv h _) ht

theorem runFetched_inv {s t : State} (h : s.Inv) (ht : runFetched s = .next t) : t.Inv := by
  by_cases hmode : s.cfg.mode ∈ modeCodes
  · unfold runFetched at ht
    cases hdec : decode (fetchWords s.cfg) with
    | ok i =>
      rw [hdec] at ht
      exact exec_inv h ht
    | error e =>
      obtain ⟨r, hrow⟩ := Option.ne_none_iff_exists'.mp fun hn => (modeRow_eq_none_iff _).mp hn hmode
      rw [fetchWords, decode_of_row hrow] at hdec
      exact nomatch hdec
  · have hnone : descriptor (latchJob s.cfg s).j.mode = none := (descriptor_eq_none_iff _).mpr hmode
    have hmove : coreMove (latchJob s.cfg s) = .next (unrecognisedPhase (latchJob s.cfg s)) := by
      rw [coreMove_of_validate (s := latchJob s.cfg s) rfl rfl]
      simp only [validateStep, hnone]
    rw [runFetched_of_unrecognised hmode, unrecognisedJob, ← hmove] at ht
    exact coreMove_inv (latchJob_inv h _) ht

theorem startCommand_inv {s t : State} (h : s.Inv) (ht : startCommand s = .next t) : t.Inv := by
  cases hb : s.status.busy with
  | true =>
    cases (startCommand_of_busy hb).symm.trans ht
    exact h
  | false =>
    cases hp : s.pace with
    | wholeJob => exact runFetched_inv h ((startCommand_of_wholeJob hb hp).symm.trans ht)
    | byPhase =>
      cases (startCommand_of_byPhase hb hp).symm.trans ht
      exact latchJob_inv h _

theorem foldl_fillFree_wf (es : List Extent) (draw : Nat) {m : Memory} (hm : m.wf = true) :
    (es.foldl (fun m e => m.fillFree draw e.base e.len) m).wf = true :=
  foldl_wf _ (fun _ _ h => Memory.wf_fillFree _ _ _ h) _ hm

theorem resetCore_inv {s : State} (h : s.Inv) : (resetCore s).Inv :=
  { invariantAtReset with memory := foldl_fillFree_wf _ _ h.memory }

theorem hostMove_inv {a : HostAction} {s t : State} (h : s.Inv) (ht : hostMove a s = .next t) : t.Inv := by
  cases a with
  | writeReg offset value =>
    rw [hostMove, hostWrite] at ht
    split_ifs at ht
    · exact startCommand_inv h ht
    · cases ht
      exact h
    · cases ht
      exact { h with }
  | writeMem address value =>
    rw [hostMove] at ht
    rcases hostWriteMem_cases address value s with ⟨_, he⟩ | ⟨_, _, he⟩ | ⟨ha, _, he⟩
    · exact nomatch he.symm.trans ht
    · exact nomatch he.symm.trans ht
    · cases he.symm.trans ht
      exact { h with memory := Memory.wf_writeByte _ h.memory ha }
  | reset =>
    cases ht
    exact resetCore_inv h
  | yieldTurn => exact coreMove_inv h ht

/-- Settles O59: the queue is none of the invariant's business, and each move of the host and of the core keeps it. -/
theorem stepKeepsInvariant : Obligations.StepKeepsInvariant := by
  intro s t h ht
  cases hq : s.hostQueue with
  | nil => exact coreMove_inv h ((step_of_empty_queue hq).symm.trans ht)
  | cons a rest =>
    rw [step_of_queue hq] at ht
    exact hostMove_inv (s := { s with hostQueue := rest }) { h with } ht

end Sys2Proof.Proofs.Invariant
end

section
/-! What a job depends on. The ENCODE phase reads MEM, SEQ, ENC and four words of the record, so from two states that agree on
these it takes the same way; everything before it reads the record and MEM only (10_state.md R24, 30_encoding.md R80,
70_reset_and_hazards.md R331). -/

namespace Sys2Proof.Proofs.Dependence

open Sys2Proof.Machine Sys2Proof.Proofs.Encoding Sys2Proof.Proofs.Validator Sys2Proof.Proofs.Launch
  Sys2Proof.Proofs.Grains Sys2Proof.Proofs.Invariant

/-! ### Runs that go the same way -/

/-- The state `s` with what the ENCODE phase writes taken from `t`. -/
def overlay (s t : State) : State := { s with mem := t.mem, enc := t.enc, seq := t.seq }

/-- The run `r` carried over to the state `s`. -/
def onto (s : State) : Run → Run
  | .go t => .go (overlay s t)
  | .stop e t => .stop e (overlay s t)

/-- The two states agree on all that the ENCODE phase reads. -/
structure SeesSame (s s' : State) : Prop where
  mem : s.mem = s'.mem
  enc : s.enc = s'.enc
  seq : s.seq = s'.seq
  input : s.j.input = s'.j.input
  output : s.j.output = s'.j.output
  samples : s.j.samples = s'.j.samples
  bufferLength : s.j.bufferLength = s'.j.bufferLength

/-- A run `r` from `s` and a run `r'` from `s'` that write the same, and nothing outside MEM, ENC and SEQ. -/
structure Parallel (s s' : State) (r r' : Run) : Prop where
  frame : onto s r = r
  same : onto s' r = r'

theorem SeesSame.capacity {s s' : State} (h : SeesSame s s') : capacity s.j = capacity s'.j := by
  unfold Machine.capacity outputWords
  rw [h.bufferLength]

theorem SeesSame.overlay_self {s s' : State} (h : SeesSame s s') : overlay s' s = s' := by
  rw [overlay, h.mem, h.enc, h.seq]

/-- Doing nothing is parallel. -/
theorem parallel_go {s s' : State} (h : SeesSame s s') : Parallel s s' (.go s) (.go s') :=
  ⟨rfl, congrArg Run.go h.overlay_self⟩

theorem parallel_stop {s s' : State} (h : SeesSame s s') (e : JobError) : Parallel s s' (.stop e s) (.stop e s') :=
  ⟨rfl, congrArg (Run.stop e) h.overlay_self⟩

/-- A run carried over takes only MEM, ENC and SEQ from where it was. -/
theorem onto_overlay (s t : State) (r : Run) : onto (overlay s t) r = onto s r := by
  cases r <;> rfl

/-- After a parallel move the states still agree. -/
theorem SeesSame.overlay {s s' : State} (h : SeesSame s s') (t : State) :
    SeesSame (overlay s t) (Dependence.overlay s' t) :=
  ⟨rfl, rfl, rfl, h.input, h.output, h.samples, h.bufferLength⟩

theorem parallel_andThen {s s' : State} {r r' : Run} {k k' : State → Run} (h : SeesSame s s') (hr : Parallel s s' r r')
    (hk : ∀ t t', SeesSame t t' → Parallel t t' (k t) (k' t')) : Parallel s s' (r.andThen k) (r'.andThen k') := by
  obtain ⟨hframe, rfl⟩ := hr
  cases r with
  | go t =>
    obtain ⟨hfrom, hto⟩ := hk _ _ (h.overlay t)
    have hself : overlay s t = t := Run.go.inj hframe
    rw [onto_overlay] at hfrom hto
    rw [hself] at hfrom hto
    exact ⟨hfrom, hto⟩
  | stop e t => exact ⟨hframe, rfl⟩

theorem parallel_runEach {α : Type} {body : α → State → Run}
    (hbody : ∀ x s s', SeesSame s s' → Parallel s s' (body x s) (body x s')) (xs : List α) {s s' : State}
    (h : SeesSame s s') : Parallel s s' (runEach body xs s) (runEach body xs s') := by
  induction xs generalizing s s' with
  | nil => exact parallel_go h
  | cons x rest ih => exact parallel_andThen h (hbody x s s' h) fun t t' ht => ih ht

theorem parallel_put (v n : Nat) {s s' : State} (h : SeesSame s s') : Parallel s s' (put v n s) (put v n s') := by
  simp only [put_eq, h.capacity.symm, h.enc.symm, h.output.symm, h.mem.symm]
  split_ifs
  · exact parallel_go h
  · exact parallel_stop h _
  · exact ⟨rfl, by simp only [onto, overlay, h.seq]⟩

theorem parallel_emitNormal (u : Nat) (e : EncSetup) {s s' : State} (h : SeesSame s s') :
    Parallel s s' (emitNormal u e s) (emitNormal u e s') := by
  unfold emitNormal
  split_ifs
  · exact parallel_stop h _
  · exact parallel_put _ _ h

theorem parallel_encodeValue (u w : Nat) (e : EncSetup) {s s' : State} (h : SeesSame s s') :
    Parallel s s' (encodeValue u w e s) (encodeValue u w e s') := by
  unfold encodeValue
  split_ifs
  · cases e.esc with
    | zero => exact parallel_andThen h (parallel_emitNormal _ _ h) fun _ _ ht => parallel_put _ _ ht
    | multi => exact parallel_andThen h (parallel_emitNormal _ _ h) fun _ _ ht => parallel_put _ _ ht
  · exact parallel_emitNormal _ _ h

theorem onto_setCursor (i f : Nat) (s : State) (r : Run) : onto (setCursor i f s) r = onto s r := by
  cases r <;> rfl

theorem parallel_encodeField (sh : Shape) (i fi : Nat) (f : Field) {s s' : State} (h : SeesSame s s') :
    Parallel s s' (encodeField sh i fi f s) (encodeField sh i fi f s') := by
  have hcursor : SeesSame (setCursor i fi s) (setCursor i fi s') := { h with seq := by simp only [setCursor_seq, h.seq] }
  unfold encodeField
  rw [← h.mem, ← h.input, ← h.enc]
  obtain ⟨hframe, hsame⟩ := parallel_encodeValue (fieldRead s.mem s.j.input sh i f).toNat f.width.bits
    (if f.secondary then s.enc.sec else s.enc.pri) hcursor
  rw [onto_setCursor] at hframe hsame
  exact ⟨hframe, hsame⟩

theorem parallel_encodeAll (sh : Shape) {s s' : State} (h : SeesSame s s') :
    Parallel s s' (encodeAll sh s) (encodeAll sh s') := by
  unfold encodeAll
  rw [← h.samples]
  exact parallel_runEach (body := encodeSample sh) (fun i _ _ hs => parallel_runEach
    (body := fun p : Field × Nat => encodeField sh i p.2 p.1) (fun p _ _ ht => parallel_encodeField sh i p.2 p.1 ht) _ hs) _ h

/-- The ENCODE phase from two states that agree on what it reads. -/
theorem parallel_encodePhase (sh : Shape) (esc : Escape) {s s' : State} (h : SeesSame (setupEncoders esc (enterPhase .encode s))
    (setupEncoders esc (enterPhase .encode s'))) :
    Parallel (setupEncoders esc (enterPhase .encode s)) (setupEncoders esc (enterPhase .encode s'))
      (encodePhase sh esc s) (encodePhase sh esc s') :=
  parallel_encodeAll sh h

/-! ### CFG -/

/-- The state with CFG replaced. -/
def withCfg (c : JobRecord) (s : State) : State := { s with cfg := c }

theorem answerWithCfg_next (c : JobRecord) (s : State) : answerWithCfg c (.next s) = .next (withCfg c s) := rfl

/-- ENCODE does not look at CFG, and what it answers differs in CFG only. -/
theorem encodePhase_withCfg (sh : Shape) (esc : Escape) (s : State) (c : JobRecord) (k : State → StepResult)
    (hk : ∀ t, k (withCfg c t) = answerWithCfg c (k t)) :
    afterEncode (encodePhase sh esc (withCfg c s)) k = answerWithCfg c (afterEncode (encodePhase sh esc s) k) := by
  have hsees : SeesSame (setupEncoders esc (enterPhase .encode s)) (setupEncoders esc (enterPhase .encode (withCfg c s))) :=
    ⟨rfl, rfl, rfl, rfl, rfl, rfl, rfl⟩
  obtain ⟨hframe, hsame⟩ := parallel_encodePhase sh esc hsees
  have hcfg : ∀ t, overlay (setupEncoders esc (enterPhase .encode (withCfg c s))) t
      = withCfg c (overlay (setupEncoders esc (enterPhase .encode s)) t) := fun _ => rfl
  rw [← hsame]
  cases hr : encodePhase sh esc s with
  | go t =>
    rw [hr] at hframe
    rw [onto, hcfg, Run.go.inj hframe]
    exact hk t
  | stop e t =>
    rw [hr] at hframe
    obtain ⟨-, hself⟩ := Run.stop.inj hframe
    rw [onto, hcfg, hself]
    rfl

theorem validateThen_withCfg (d : Descriptor) (k : State → StepResult) (s : State) (c : JobRecord)
    (hk : ∀ t, k (withCfg c t) = answerWithCfg c (k t)) :
    validateThen d k (withCfg c s) = answerWithCfg c (validateThen d k s) := by
  have hj : (withCfg c s).j = s.j := rfl
  unfold validateThen
  rw [hj]
  split_ifs
  · rfl
  · rfl
  · cases launchRefusal s.j d with
    | none => exact hk (depositBits s)
    | some r => rfl

theorem rawPhase_withCfg (sh : Shape) (s : State) (c : JobRecord) :
    rawPhase sh (withCfg c s) = withCfg c (rawPhase sh s) := by
  have hj : (withCfg c s).j = s.j := rfl
  rw [rawPhase, rawPhase, hj]
  split_ifs <;> rfl

theorem unrecognisedPhase_withCfg (s : State) (c : JobRecord) :
    unrecognisedPhase (withCfg c s) = withCfg c (unrecognisedPhase s) := by
  have hj : (withCfg c s).j = s.j := rfl
  simp only [unrecognisedPhase, hj]
  split_ifs <;> rfl

/-- A move of the core with another CFG is the same move. -/
theorem coreMove_withCfg (s : State) (c : JobRecord) : coreMove (withCfg c s) = answerWithCfg c (coreMove s) := by
  cases hb : s.status.busy with
  | false => rw [coreMove_of_idle hb, coreMove_of_idle (s := withCfg c s) hb, answerWithCfg_next]
  | true =>
    have hb' : (withCfg c s).status.busy = true := hb
    have hj : (withCfg c s).j = s.j := rfl
    cases hp : s.seq.phase with
    | validate =>
      rw [coreMove_of_validate hb hp, coreMove_of_validate hb' hp]
      cases hd : descriptor s.j.mode with
      | none => simp only [validateStep, hj, hd, unrecognisedPhase_withCfg, answerWithCfg_next]
      | some d =>
        rw [validateStep_of_descriptor hd, validateStep_of_descriptor (s := withCfg c s) hd]
        exact validateThen_withCfg _ _ _ _ fun _ => rfl
    | pre =>
      rw [coreMove_of_pre hb hp, coreMove_of_pre hb' hp, preStep, preStep, hj]
      cases descriptor s.j.mode <;> rfl
    | map =>
      rw [coreMove_of_map hb hp, coreMove_of_map hb' hp, mapStep, mapStep, hj]
      rcases descriptor s.j.mode with _ | ⟨sh, pre, _ | e⟩ <;> rfl
    | encode =>
      rw [coreMove_of_encode hb hp, coreMove_of_encode hb' hp, encodeStep, encodeStep, hj]
      rcases descriptor s.j.mode with _ | ⟨sh, pre, _ | e⟩
      · rfl
      · exact congrArg Host.Outcome.next (rawPhase_withCfg sh s c)
      · exact encodePhase_withCfg sh e s c _ fun _ => rfl
    | pad => rw [coreMove_of_pad hb hp, coreMove_of_pad hb' hp]; rfl
    | idle => simp only [coreMove, hb, hb', hp, show (withCfg c s).seq.phase = .idle from hp, if_true, answerWithCfg_next]
    | done => simp only [coreMove, hb, hb', hp, show (withCfg c s).seq.phase = .done from hp, if_true, answerWithCfg_next]

theorem coreMoves_withCfg (k : Nat) (s : State) (c : JobRecord) :
    coreMoves k (withCfg c s) = answerWithCfg c (coreMoves k s) := by
  induction k generalizing s with
  | zero => rfl
  | succ k ih =>
    rw [coreMoves, coreMoves, coreMove_withCfg]
    cases coreMove s with
    | next t => exact ih t
    | fault f => rfl
    | refused r => rfl

/-- Settles O15: moves by their phases, and a job by its moves. -/
theorem runningJobIgnoresCfg : Obligations.RunningJobIgnoresCfg := by
  refine ⟨coreMove_withCfg, fun s t ht => ?_, fun i s c => ?_⟩
  · have hsame : coreMove s = answerWithCfg s.cfg (coreMove s) := coreMove_withCfg s s.cfg
    rw [ht, answerWithCfg_next] at hsame
    exact (congrArg State.cfg (Host.Outcome.next.inj hsame)).trans rfl
  · rw [← phaseMovesEqualWholeJob i s, ← phaseMovesEqualWholeJob i { s with cfg := c }]
    exact coreMoves_withCfg 5 (latchJob (jobOf i) s) c

/-! ### The words that a mode uses -/

/-- The records agree on the words that a mode with descriptor `d` uses (30_encoding.md R80, 93 U17). -/
structure SameUse (d : Descriptor) (j j' : JobRecord) : Prop where
  mode : j.mode = j'.mode
  samples : j.samples = j'.samples
  bufferLength : j.bufferLength = j'.bufferLength
  input : j.input = j'.input
  output : j.output = j'.output
  compressing : d.pre ≠ .none → j.golombPar = j'.golombPar ∧ j.spill = j'.spill ∧ j.round = j'.round
  modelling : d.pre = .model → j.modelValue = j'.modelValue ∧ j.model = j'.model ∧ j.updatedModel = j'.updatedModel

theorem SameUse.refl (d : Descriptor) (j : JobRecord) : SameUse d j j :=
  ⟨rfl, rfl, rfl, rfl, rfl, fun _ => ⟨rfl, rfl, rfl⟩, fun _ => ⟨rfl, rfl, rfl⟩⟩

section
variable {d : Descriptor} {j j' : JobRecord} (hu : SameUse d j j')
include hu

theorem SameUse.capacity : capacity j = capacity j' := by
  unfold Machine.capacity outputWords
  rw [hu.bufferLength]

theorem SameUse.sampleSpan (sh : Shape) : sampleSpan j sh = sampleSpan j' sh := by
  rw [Machine.sampleSpan, Machine.sampleSpan, hu.samples]

theorem SameUse.usedExtents : usedExtents j d = usedExtents j' d := by
  have houtput : outputExtent j d = outputExtent j' d := by
    simp only [outputExtent, outputWords, hu.sampleSpan, hu.output, hu.bufferLength]
  have hmodel : modelExtents j d = modelExtents j' d := by
    by_cases hpre : d.pre = .model
    · obtain ⟨-, hm, hupd⟩ := hu.modelling hpre
      simp only [modelExtents, hm, hupd, sampleExtent, hu.sampleSpan]
    · rw [modelExtents, modelExtents, if_neg hpre, if_neg hpre]
  simp only [Machine.usedExtents, houtput, hmodel, hu.input, hu.output, sampleExtent, hu.sampleSpan]

theorem SameUse.launchRefusal : launchRefusal j d = launchRefusal j' d := by
  simp only [Machine.launchRefusal, hu.capacity, hu.samples, hu.sampleSpan, hu.usedExtents, hu.output]

/-- The checks read the used words only (40_validator.md R101 to R116). -/
theorem SameUse.checksOf (hd : descriptor j.mode = some d) : checksOf j = checksOf j' := by
  have hmodel : isModel j.mode = true → j.modelValue = j'.modelValue ∧ j.model = j'.model ∧ j.updatedModel = j'.updatedModel :=
    fun hm => hu.modelling ((isModel_of_descriptor hd).mp hm)
  have hguard : ∀ P : JobRecord → Bool, (isModel j.mode = true → P j = P j') →
      (isModel j.mode && P j) = (isModel j'.mode && P j') := by
    intro P hP
    rw [← hu.mode]
    cases hm : isModel j.mode with
    | false => rfl
    | true => rw [hP hm]
  have halways : checksAlways j = checksAlways j' := by
    have h5 : checkV5 j = checkV5 j' := hguard (fun x => !x.model.present) fun hm => by rw [(hmodel hm).2.1]
    have h6 : checkV6 j = checkV6 j' := hguard (fun x => x.model.same x.input) fun hm => by rw [(hmodel hm).2.1, hu.input]
    have h7 : checkV7 j = checkV7 j' :=
      hguard (fun x => x.model.same x.output) fun hm => by rw [(hmodel hm).2.1, hu.output]
    have h8 : checkV8 j = checkV8 j' :=
      hguard (fun x => x.updatedModel.same x.input) fun hm => by rw [(hmodel hm).2.2, hu.input]
    have h9 : checkV9 j = checkV9 j' :=
      hguard (fun x => x.updatedModel.same x.output) fun hm => by rw [(hmodel hm).2.2, hu.output]
    simp only [checksAlways, h5, h6, h7, h8, h9, checkV1, checkV2, checkV3, checkV4, checkV10, checkV11, hu.input, hu.output,
      hu.bufferLength, hu.samples, hu.mode]
  have hparams : isRaw j.mode = false → checksParameters j = checksParameters j' := by
    intro hr
    have hpre : d.pre ≠ .none := fun hp => by simp [(isRaw_of_descriptor hd).mpr hp] at hr
    obtain ⟨hg, hs, hk⟩ := hu.compressing hpre
    have h12 : checkV12 j = checkV12 j' :=
      hguard (fun x => decide (Config.maxModelValue < x.modelValue.toNat)) fun hm => by rw [(hmodel hm).1]
    simp only [checksParameters, h12, checkV13, checkV14, checkV15, hg, hs, hk, hu.mode]
  unfold Machine.checksOf
  rw [← hu.mode, ← halways]
  split_ifs with hr
  · rfl
  · rw [hparams (by simpa using hr)]

/-- PRE reads the used words only (41_preprocessor.md R133 to R136). -/
theorem SameUse.preMemory (m : Memory) : preMemory j d.shape d.pre m = preMemory j' d.shape d.pre m := by
  cases hpre : d.pre with
  | none => rfl
  | diff =>
    obtain ⟨-, -, hk⟩ := hu.compressing (by simp [hpre])
    simp only [Machine.preMemory, diffMemory, hu.input, hu.samples, hk]
  | model =>
    obtain ⟨-, -, hk⟩ := hu.compressing (by simp [hpre])
    obtain ⟨hv, hm, hupd⟩ := hu.modelling hpre
    simp only [Machine.preMemory, modelMemory, modelField, modelTarget, hu.input, hu.samples, hk, hv, hm, hupd]

end

/-! ### Two jobs that agree on the words they use -/

/-- The states show the host the same result, hold the same MEM and have their bit cursor at the same place. -/
structure Alike (t t' : State) : Prop where
  status : t.status = t'.status
  cmpErr : t.info.cmpErr = t'.info.cmpErr
  cmpSize : t.info.cmpSize = t'.info.cmpSize
  phase : t.seq.phase = t'.seq.phase
  mem : t.mem = t'.mem
  streamLen : t.enc.streamLen = t'.enc.streamLen
  freeDraws : t.freeDraws = t'.freeDraws

/-- Both answers are next states that are alike, or both are the same refusal. -/
def SameAnswer (a b : StepResult) : Prop :=
  (∃ t t', a = .next t ∧ b = .next t' ∧ Alike t t') ∨ ∃ r, a = .refused r ∧ b = .refused r

theorem SameAnswer.sameEffect {a b : StepResult} (h : SameAnswer a b) : SameEffect a b := by
  rcases h with ⟨t, t', rfl, rfl, h⟩ | ⟨r, rfl, rfl⟩
  · exact ⟨h.status, h.cmpErr, h.cmpSize, h.phase, h.mem⟩
  · rfl

/-- Alike states of two jobs in one phase after the latch. -/
structure InStep (d : Descriptor) (s s' : State) : Prop where
  use : SameUse d s.j s'.j
  alike : Alike s s'

theorem latchJob_inStep {d : Descriptor} {j j' : JobRecord} (hu : SameUse d j j') {s s' : State} (hmem : s.mem = s'.mem)
    (hdraws : s.freeDraws = s'.freeDraws) : InStep d (latchJob j s) (latchJob j' s') :=
  ⟨hu, rfl, rfl, rfl, rfl, hmem, rfl, congrArg Nat.succ hdraws⟩

section
variable {d : Descriptor} {s s' : State} (h : InStep d s s')
include h

theorem InStep.raise (e : JobError) : Alike (raiseError e s) (raiseError e s') :=
  { h.alike with
    status := rfl
    cmpErr := congrArg e.errBits h.alike.cmpErr
    cmpSize := rfl
    phase := rfl }

theorem InStep.succeed (n : Nat) : Alike (succeedJob n s) (succeedJob n s') :=
  { h.alike with status := rfl, cmpErr := h.alike.cmpErr, cmpSize := rfl, phase := rfl }

theorem InStep.finish : Alike (finishJob s) (finishJob s') :=
  { h.alike with
    status := by rw [finishJob_status, finishJob_status, h.alike.status]
    phase := rfl }

theorem InStep.rawPhase (sh : Shape) : Alike (rawPhase sh s) (rawPhase sh s') := by
  unfold Machine.rawPhase
  rw [← h.use.capacity, ← h.use.sampleSpan, ← h.use.samples, ← h.use.input, ← h.use.output, ← h.alike.mem]
  split_ifs
  · exact InStep.raise (s := enterPhase .encode s) (s' := enterPhase .encode s') ⟨h.use, { h.alike with phase := rfl }⟩ _
  · exact InStep.succeed (d := d) (s := { enterPhase .encode s with mem := _ }) (s' := { enterPhase .encode s' with mem := _ })
      ⟨h.use, { h.alike with phase := rfl, mem := rfl }⟩ _

/-- PRE, MAP and the encoder's setup bring the two jobs to states on which ENCODE goes the same way. -/
theorem InStep.seesSame (hpre : d.pre ≠ .none) (e : Escape) :
    SeesSame (setupEncoders e (enterPhase .encode (mapPhase d.shape e (prePhase d.shape d.pre s))))
      (setupEncoders e (enterPhase .encode (mapPhase d.shape e (prePhase d.shape d.pre s')))) := by
  obtain ⟨hg, hs, -⟩ := h.use.compressing hpre
  have hmap : ∀ m, mapMemory s.j d.shape e m = mapMemory s'.j d.shape e m := fun m => by
    rw [mapMemory, mapMemory, h.use.samples, h.use.input]
  refine ⟨?_, ?_, ?_, h.use.input, h.use.output, h.use.samples, h.use.bufferLength⟩
  · show mapMemory s.j d.shape e (preMemory s.j d.shape d.pre s.mem)
      = mapMemory s'.j d.shape e (preMemory s'.j d.shape d.pre s'.mem)
    rw [hmap, h.use.preMemory, h.alike.mem]
  · simp only [setupEncoders_enc, enterPhase_j, mapPhase_j, prePhase_j, hg, hs]
  · simp only [setupEncoders_seq, enterPhase_seq, mapPhase_seq, prePhase_j, h.use.samples]

theorem InStep.completeCompressed : Alike (completeCompressed s) (completeCompressed s') := by
  have hpad : padMemory s.j s.enc.streamLen s.mem = padMemory s'.j s'.enc.streamLen s'.mem := by
    rw [padMemory, padMemory, h.use.capacity, h.use.output, h.alike.streamLen, h.alike.mem]
  exact {
    status := rfl
    cmpErr := h.alike.cmpErr
    cmpSize := congrArg (BitVec.ofNat 32) h.alike.streamLen
    phase := rfl
    mem := hpad
    streamLen := h.alike.streamLen
    freeDraws := h.alike.freeDraws }

theorem InStep.abandonOutput : InStep d (abandonOutput s) (abandonOutput s') where
  use := h.use
  alike :=
    { h.alike with
      mem := by
        rw [abandonOutput_mem, abandonOutput_mem, outputWords, outputWords, h.use.bufferLength, h.use.output,
          h.alike.mem, h.alike.freeDraws]
      freeDraws := congrArg Nat.succ h.alike.freeDraws }

theorem InStep.jobBody (hd : descriptor s.j.mode = some d) : SameAnswer (jobBody d s) (jobBody d s') := by
  cases he : d.esc with
  | none =>
    rw [jobBody_of_raw he, jobBody_of_raw he]
    exact .inl ⟨_, _, rfl, rfl, h.rawPhase _⟩
  | some e =>
    have hpre : d.pre ≠ .none := fun hp => nomatch he.symm.trans ((esc_eq_none_iff hd).mpr hp)
    obtain ⟨hframe, hsame⟩ := parallel_encodePhase d.shape e (h.seesSame hpre e)
    rw [jobBody_of_esc he, jobBody_of_esc he, ← hsame]
    generalize encodePhase d.shape e (mapPhase d.shape e (prePhase d.shape d.pre s)) = r at hframe ⊢
    have hstep : ∀ t, InStep d (overlay (setupEncoders e (enterPhase .encode (mapPhase d.shape e (prePhase d.shape d.pre s)))) t)
        (overlay (setupEncoders e (enterPhase .encode (mapPhase d.shape e (prePhase d.shape d.pre s')))) t) := fun t =>
      ⟨h.use, h.alike.status, h.alike.cmpErr, h.alike.cmpSize, rfl, rfl, rfl, h.alike.freeDraws⟩
    rw [← hframe]
    cases r with
    | go t => exact .inl ⟨_, _, rfl, rfl, (hstep t).completeCompressed⟩
    | stop err t => exact .inl ⟨_, _, rfl, rfl, (hstep t).abandonOutput.raise _⟩

theorem InStep.validateThen (hd : descriptor s.j.mode = some d) :
    SameAnswer (validateThen d (Launch.jobBody d) s) (validateThen d (Launch.jobBody d) s') := by
  have hchecks := h.use.checksOf hd
  have hcount : validateCount s.j = validateCount s'.j := by rw [validateCount, validateCount, hchecks]
  have hbits : validateBits s.j = validateBits s'.j := by rw [validateBits, validateBits, hchecks]
  have hdeposit : InStep d (depositBits s) (depositBits s') := ⟨h.use, { h.alike with cmpErr := hbits }⟩
  unfold Machine.validateThen
  rw [← hcount, ← h.use.samples, ← h.use.launchRefusal]
  split_ifs
  · exact .inl ⟨_, _, rfl, rfl, hdeposit.raise _⟩
  · exact .inl ⟨_, _, rfl, rfl, hdeposit.finish⟩
  · cases launchRefusal s.j d with
    | none => exact hdeposit.jobBody hd
    | some r => exact .inr ⟨r, rfl, rfl⟩

end

/-- Two jobs of one mode that agree on the words it uses, from states with the same MEM and draws, answer the same. -/
theorem exec_sameAnswer {i i' : Instr} {d : Descriptor} (hd : descriptor (jobOf i).mode = some d)
    (hu : SameUse d (jobOf i) (jobOf i')) {s s' : State} (hmem : s.mem = s'.mem) (hdraws : s.freeDraws = s'.freeDraws) :
    SameAnswer (exec i s) (exec i' s') := by
  rw [exec_eq_of_descriptor hd, exec_eq_of_descriptor (hu.mode ▸ hd)]
  exact (latchJob_inStep hu hmem hdraws).validateThen hd

/-! ### The registers of an ended job -/

/-- What ENCODE keeps of a job in progress. -/
theorem inProgress_of_frame {j : JobRecord} {s r t : State} {err : BitVec 16} (h : InProgress j s r err)
    (hf : EncodeFrame r t) : InProgress j s t err :=
  ⟨hf.cfg.trans h.cfg, hf.j.trans h.latched, hf.status.trans h.status, hf.info.trans h.info,
    hf.hostQueue.trans h.queue, hf.pace.trans h.pace⟩

/-- The ways in which a job ends after VALIDATE (45_dispatcher.md R232). -/
theorem jobBody_finished {j : JobRecord} {s r t : State} {d : Descriptor} (h : InProgress j s r 0)
    (ht : jobBody d r = .next t) :
    (∃ n, Finished j s t .ok 0 0 n) ∨ Finished j s t .smallBuf (-2) 1 0 ∨ Finished j s t .internal (-1) 0 0 := by
  have hraise : ∀ x e, InProgress j s x 0 → (e = .smallBuffer ∨ e = .internal) →
      Finished j s (raiseError e x) .smallBuf (-2) 1 0 ∨ Finished j s (raiseError e x) .internal (-1) 0 0 := by
    rintro x e hx (rfl | rfl)
    · exact .inl (hx.raise _)
    · exact .inr (hx.raise _)
  cases he : d.esc with
  | none =>
    rw [jobBody_of_raw he] at ht
    cases ht
    unfold rawPhase
    split_ifs
    · exact .inr (hraise (enterPhase .encode r) _ { h with } (.inl rfl))
    · exact .inl ⟨_, InProgress.succeed (r := { enterPhase .encode r with mem := _ }) { h with } _⟩
  | some e =>
    rw [jobBody_of_esc he] at ht
    have hframe := encodePhase_frame d.shape e (mapPhase d.shape e (prePhase d.shape d.pre r))
    have hstops := stopsInEncode_encodePhase d.shape e (mapPhase d.shape e (prePhase d.shape d.pre r))
    have hsetup : InProgress j s
        (setupEncoders e (enterPhase .encode (mapPhase d.shape e (prePhase d.shape d.pre r)))) 0 := by
      obtain ⟨hcfg, rfl, hstatus, hinfo, hqueue, hpace⟩ := h
      exact ⟨hcfg, rfl, hstatus, hinfo, hqueue, hpace⟩
    cases hr : encodePhase d.shape e (mapPhase d.shape e (prePhase d.shape d.pre r)) with
    | go x =>
      rw [hr] at hframe ht
      cases ht
      have hx := inProgress_of_frame hsetup hframe
      exact .inl ⟨_, InProgress.succeed (r := padPhase x) { hx with } _⟩
    | stop err x =>
      rw [hr] at hframe hstops ht
      cases ht
      have hx := inProgress_of_frame hsetup hframe
      exact .inr (hraise (abandonOutput x) err { hx with } hstops)

theorem exec_finished {i : Instr} {s t : State} (ht : exec i s = .next t) :
    ∃ kind retval err size, Finished (jobOf i) s t kind retval err size := by
  obtain ⟨d, hd⟩ := exists_descriptor i
  rcases exec_cases hd s with ⟨_, h⟩ | ⟨_, _, h⟩ | ⟨_, _, _, r, h⟩ | ⟨hl, h⟩
  · cases h.symm.trans ht
    exact ⟨_, _, _, _, (inProgress_depositBits _ _).raise _⟩
  · cases h.symm.trans ht
    exact ⟨_, _, _, _, (inProgress_depositBits _ _).finish⟩
  · exact nomatch h.symm.trans ht
  · rcases jobBody_finished (inProgress_of_launchable hl s) (h.symm.trans ht) with ⟨n, hf⟩ | hf | hf
    · exact ⟨_, _, _, _, hf⟩
    · exact ⟨_, _, _, _, hf⟩
    · exact ⟨_, _, _, _, hf⟩

/-- Settles O54: the same job uses the same words, and an ended job mirrors its record. -/
theorem jobForgetsHistory : Obligations.JobForgetsHistory := by
  intro i s s' hmem hdraws
  obtain ⟨d, hd⟩ := exists_descriptor i
  have hsame := exec_sameAnswer hd (SameUse.refl d (jobOf i)) hmem hdraws
  refine ⟨hsame.sameEffect, fun t t' ht ht' => ?_⟩
  rcases hsame with ⟨x, x', hx, hx', hax⟩ | ⟨r, hr, -⟩
  · cases hx.symm.trans ht
    cases hx'.symm.trans ht'
    obtain ⟨_, _, err, size, hf⟩ := exec_finished ht
    obtain ⟨_, _, err', size', hf'⟩ := exec_finished ht'
    have herr := hax.cmpErr
    have hsize := hax.cmpSize
    rw [hf.info, hf'.info] at herr hsize ⊢
    refine ⟨?_, hf.latched.trans hf'.latched.symm, hax.streamLen⟩
    change BitVec.ofNat 32 size = BitVec.ofNat 32 size' at hsize
    change err = err' at herr
    rw [resultInfo, resultInfo, herr, hsize]
  · exact nomatch hr.symm.trans ht

/-- Settles O55: two records of one raw or difference mode that differ in unused words only. -/
theorem unusedWordsIgnored : Obligations.UnusedWordsIgnored := by
  intro o o' s hsamples hlength hinput houtput hpin hpout
  have hhandle : ∀ bit base base', base = base' → o.cfgPresent.getLsbD bit = o'.cfgPresent.getLsbD bit →
      handleOf o.cfgPresent bit base = handleOf o'.cfgPresent bit base' := by
    intro bit base base' hbase hbit
    rw [handleOf, handleOf, hbase, hbit]
  have hraw : ∀ sh esc, ∀ mode : JobOperands → Instr, (∀ o, (mode o).operands = o) →
      (mode o).modeCode = (mode o').modeCode → SameUse ⟨sh, .none, esc⟩ (jobOf (mode o)) (jobOf (mode o')) := by
    intro sh esc mode hops hcode
    simp only [jobOf, hops]
    exact ⟨hcode, hsamples, hlength, hhandle _ _ _ hinput hpin, hhandle _ _ _ houtput hpout, fun hp => absurd rfl hp,
      fun hp => nomatch hp⟩
  refine ⟨?_, fun hg hspill hround => ?_⟩
  · simp only [List.forall_mem_cons, List.not_mem_nil, false_imp_iff, implies_true, and_true]
    exact ⟨(exec_sameAnswer rfl (hraw _ _ Instr.raw (fun _ => rfl) rfl) rfl rfl).sameEffect,
      (exec_sameAnswer rfl (hraw _ _ Instr.rawSFx (fun _ => rfl) rfl) rfl rfl).sameEffect⟩
  · have hdiff : ∀ sh esc, ∀ mode : JobOperands → Instr, (∀ o, (mode o).operands = o) →
        (mode o).modeCode = (mode o').modeCode → SameUse ⟨sh, .diff, esc⟩ (jobOf (mode o)) (jobOf (mode o')) := by
      intro sh esc mode hops hcode
      simp only [jobOf, hops]
      exact ⟨hcode, hsamples, hlength, hhandle _ _ _ hinput hpin, hhandle _ _ _ houtput hpout,
        fun _ => ⟨hg, hspill, hround⟩, fun hp => nomatch hp⟩
    simp only [List.forall_mem_cons, List.not_mem_nil, false_imp_iff, implies_true, and_true]
    refine ⟨?_, ?_, ?_, ?_, ?_, ?_, ?_, ?_, ?_, ?_, ?_, ?_, ?_, ?_⟩ <;>
      exact (exec_sameAnswer rfl (hdiff _ _ _ (fun _ => rfl) rfl) rfl rfl).sameEffect

end Sys2Proof.Proofs.Dependence
end

section
/-! MEM and the output buffer: the big-endian primitives (20_memory.md R51), the fields of a buffer (R53, R54), the order of
the stream bits (R55) and the padding of the last word (44_bitpacker.md R221). -/

namespace Sys2Proof.Proofs.ByteOrder

open Sys2Proof.Machine Sys2Proof.Proofs.Fields Sys2Proof.Proofs.Bitpacker

/-! ### Big-endian accesses -/

/-- The weight of byte `k` of `n`, the byte at the lowest address the most significant. -/
def byteWeight (n k : Nat) : Nat := 256 ^ (n - 1 - k)

theorem byteWeight_succ {n k : Nat} (hk : k < n) : byteWeight (n + 1) k = byteWeight n k * 256 := by
  rw [byteWeight, byteWeight, ← Nat.pow_succ]
  congr 1
  omega

theorem byteWeight_last (n : Nat) : byteWeight (n + 1) n = 1 := by simp [byteWeight]

/-- A read is the sum of its weighted bytes. -/
theorem read_eq_sum (m : Memory) (addr n : Nat) :
    m.read addr n
      = ((List.range n).map (fun k => (m.readByte (wrapAddress (addr + k))).toNat * byteWeight n k)).sum := by
  induction n with
  | zero => rfl
  | succ n ih =>
    have hshift : (List.range n).map (fun k => (m.readByte (wrapAddress (addr + k))).toNat * byteWeight (n + 1) k)
        = (List.range n).map (fun k => (m.readByte (wrapAddress (addr + k))).toNat * byteWeight n k * 256) := by
      refine List.map_congr_left fun k hk => ?_
      rw [byteWeight_succ (List.mem_range.mp hk), Nat.mul_assoc]
    rw [Memory.read, ih, List.range_succ, List.map_append, List.sum_append, hshift, List.sum_map_mul_right, List.map_singleton,
      List.sum_singleton, byteWeight_last, Nat.mul_one]

theorem wrapAddress_ne {addr k n : Nat} (hk : k < n) (hn : n < 2 ^ 32) :
    wrapAddress (addr + n) ≠ wrapAddress (addr + k) := by
  unfold wrapAddress Config.addrW
  omega

/-- The bytes of a written number. -/
theorem readByte_write (m : Memory) (addr : Nat) {n k : Nat} (v : Nat) (hn : n ≤ 2 ^ 32) (hk : k < n) :
    (m.write addr n v).readByte (wrapAddress (addr + k)) = BitVec.ofNat 8 (v / byteWeight n k) := by
  induction n generalizing v with
  | zero => exact absurd hk (Nat.not_lt_zero k)
  | succ n ih =>
    rcases Nat.lt_succ_iff_lt_or_eq.mp hk with hlt | rfl
    · rw [Memory.write, Memory.readByte_writeByte_of_ne _ _ (wrapAddress_ne hlt (by omega)), ih _ (by omega) hlt,
        byteWeight_succ hlt, Nat.mul_comm, Nat.div_div_eq_div_mul]
    · rw [Memory.write, Memory.readByte_writeByte_self, byteWeight_last, Nat.div_one]

/-- Settles O22: any access of up to `2^32` bytes is big-endian, not only those of 1, 2 and 4. -/
theorem bigEndianPrimitives : Obligations.BigEndianPrimitives := by
  intro m addr n v hn
  have hsmall : n ≤ 4 := by
    simp only [List.mem_cons, List.not_mem_nil, or_false] at hn
    omega
  exact ⟨read_eq_sum m addr n, fun k hk => readByte_write m addr v (by omega) hk,
    fun a ha => Memory.readByte_write_of_ne m addr n v a fun k hk => Ne.symm (ha k hk)⟩

/-- Settles O23: by the layout of the samples. -/
theorem fieldAccess : Obligations.FieldAccess := by
  intro m h sh i k f g v hf hg hi hk
  have hfit : FieldFits h sh i f := ⟨hf, hi⟩
  exact ⟨fieldRead_fieldWrite_same m v hfit, fieldRead_fieldWrite_of_ne m v hfit ⟨hg, hk⟩,
    fieldWrite_keptOutside m v hfit⟩

/-- Settles O24: bit `7 − (o mod 8)` of byte `o / 8` is a bit of the big-endian word. -/
theorem streamBitOrder : Obligations.StreamBitOrder := streamBit_eq_getLsbD_outRead

/-! ### The padding of the last word -/

/-- The padded end of a stream of `n` bits (44_bitpacker.md R221). -/
def paddedLen (n : Nat) : Nat := 32 * ceilDiv n 32

theorem paddedLen_bounds (n : Nat) : n ≤ paddedLen n ∧ paddedLen n < n + 32 ∧ paddedLen n % 32 = 0 := by
  unfold paddedLen ceilDiv
  omega

theorem paddedLen_le {n cap : Nat} (hn : n ≤ cap) (hcap : cap % 32 = 0) : paddedLen n ≤ cap := by
  unfold paddedLen ceilDiv
  omega

/-- A write that fits does not depend on how much more would fit. -/
theorem putNBits32_cap (out : Handle) {cap cap' : Nat} (v : Word) {o n : Nat} (m : Memory) (hpos : 1 ≤ n) (hle : n ≤ 32)
    (hend : o + n ≤ cap) (hend' : o + n ≤ cap') : putNBits32 out cap v o n m = putNBits32 out cap' v o n m := by
  rw [putNBits32_wrote out v m hpos hle hend, putNBits32_wrote out v m hpos hle hend']

/-- PAD writes nothing, or zero bits up to the next multiple of 32. -/
theorem padMemory_cases (j : JobRecord) (len : Nat) (m : Memory) :
    (paddedLen len = len ∧ padMemory j len m = m)
      ∨ (len < paddedLen len ∧ padMemory j len m = (putNBits32 j.output (capacity j) 0 len (paddedLen len - len) m).2) := by
  have hend : 0 < len ∧ len % 32 ≠ 0 → 32 - len % 32 = paddedLen len - len := by
    unfold paddedLen ceilDiv
    omega
  unfold padMemory
  split_ifs with h
  · exact .inr ⟨by unfold paddedLen ceilDiv; omega, by rw [hend h]⟩
  · exact .inl ⟨by unfold paddedLen ceilDiv; omega, rfl⟩

section
variable {j : JobRecord} {len : Nat} (hlen : len ≤ capacity j) (hwrap : j.output.base.toNat + capacity j / 8 ≤ 2 ^ 32)
include hlen hwrap

theorem streamBit_padMemory (m : Memory) {p : Nat} (hp : p < capacity j) :
    streamBit (padMemory j len m) j.output p
      = if len ≤ p ∧ p < paddedLen len then false else streamBit m j.output p := by
  have hcap := paddedLen_le hlen (capacity_mod j)
  obtain ⟨_, hless, _⟩ := paddedLen_bounds len
  rcases padMemory_cases j len m with ⟨hnone, hmem⟩ | ⟨hlt, hmem⟩
  · rw [hmem, if_neg (by omega)]
  · rw [hmem, streamBit_putNBits32 ⟨capacity_mod j, hwrap⟩ 0 m (by omega) (by omega) (by omega) hp,
      show len + (paddedLen len - len) = paddedLen len by omega]
    exact if_congr Iff.rfl BitVec.getLsbD_zero rfl

theorem padMemory_keptOutside (m : Memory) : KeptOutside [streamExtent j len] m (padMemory j len m) := by
  have hcap := paddedLen_le hlen (capacity_mod j)
  obtain ⟨_, hless, hwhole⟩ := paddedLen_bounds len
  rcases padMemory_cases j len m with ⟨_, hmem⟩ | ⟨hlt, hmem⟩
  · rw [hmem]
    exact keptOutside_refl _ _
  · rw [hmem, putNBits32_cap (cap' := paddedLen len) _ _ _ (by omega) (by omega) (by omega) (by omega)]
    refine keptOutside_widen (putNBits32_keptOutside (cap := paddedLen len) ⟨hwhole, by omega⟩ 0 m (by omega) (by omega)
      (by omega)) (le_refl _) ?_
    show j.output.base.toNat + paddedLen len / 8 ≤ j.output.base.toNat + 4 * ceilDiv len 32
    unfold paddedLen
    omega

end

/-- Settles O29: by the two cases of PAD. -/
theorem tailPadding : Obligations.TailPadding := by
  intro s hlen hwrap
  refine ⟨rfl, fun p hp => streamBit_padMemory hlen hwrap s.mem hp, padMemory_keptOutside hlen hwrap s.mem, fun hzero => ?_⟩
  rw [padPhase_mem, hzero]
  rfl

end Sys2Proof.Proofs.ByteOrder
end

section
/-! The pre-processor (41_preprocessor.md) and the inverse of the mapper (42_mapper.md R164): rounding, the blend, and what the
two transforms leave in every field and outside the sample buffers. -/

namespace Sys2Proof.Proofs.Preprocessor

open Sys2Proof.Machine Sys2Proof.Proofs.Fields

/-! ### Rounding and the blend -/

theorem toNat_roundFwd {w : Nat} (x : BitVec w) (k : Nat) : (roundFwd x k).toNat = x.toNat / 2 ^ k := by
  rw [roundFwd, BitVec.toNat_ushiftRight, Nat.shiftRight_eq_div_pow]

theorem toNat_roundInv {w : Nat} (x : BitVec w) (k : Nat) : (roundInv x k).toNat = x.toNat * 2 ^ k % 2 ^ w := by
  rw [roundInv, BitVec.toNat_shiftLeft, Nat.shiftLeft_eq]

/-- Settles O30: what rounding back restores is not above the value, so it does not wrap. -/
theorem roundingClearsLowBits : Obligations.RoundingClearsLowBits := by
  intro w k x
  refine ⟨toNat_roundFwd x k, toNat_roundInv x k, ?_⟩
  have hcut : x.toNat / 2 ^ k * 2 ^ k = x.toNat - x.toNat % 2 ^ k := by
    have hsplit := Nat.div_add_mod' x.toNat (2 ^ k)
    omega
  rw [toNat_roundInv, toNat_roundFwd, hcut, Nat.mod_eq_of_lt (Nat.lt_of_le_of_lt (Nat.sub_le _ _) x.isLt)]

/-- Settles O33: both weights together are 16, so the weighted sum lies between 16 times the operands. -/
theorem blendBetweenOperands : Obligations.BlendBetweenOperands := by
  intro a b w hw
  obtain ⟨c, hc⟩ := Nat.exists_eq_add_of_le hw
  have hblend : calUpModel a b w = (w * b + c * a) / 16 := by
    rw [calUpModel, Config.maxModelValue, show 16 - w = c by omega]
  have hsum : ∀ x, w * x + c * x = x * 16 := fun x => by rw [← Nat.add_mul, ← hc, Nat.mul_comm]
  refine ⟨?_, ?_, ?_, ?_⟩
  · rw [hblend, Nat.le_div_iff_mul_le (by decide), ← hsum]
    exact Nat.add_le_add (Nat.mul_le_mul_left _ (Nat.min_le_right _ _)) (Nat.mul_le_mul_left _ (Nat.min_le_left _ _))
  · rw [hblend]
    refine Nat.div_le_of_le_mul ?_
    rw [Nat.mul_comm 16, ← hsum]
    exact Nat.add_le_add (Nat.mul_le_mul_left _ (Nat.le_max_right _ _)) (Nat.mul_le_mul_left _ (Nat.le_max_left _ _))
  · simp [calUpModel, Config.maxModelValue]
  · simp [calUpModel, Config.maxModelValue]

/-! ### The inverse of the fold -/

/-- The residual that a folded number stands for (42_mapper.md R164). -/
def unfoldedInt (n : Nat) : Int := if n % 2 = 1 then -(((n + 1) / 2 : Nat) : Int) else ((n / 2 : Nat) : Int)

theorem unfoldedInt_foldedInt (t : Int) {n : Nat} (hn : (n : Int) = Mapper.foldedInt t) : unfoldedInt n = t := by
  unfold Mapper.foldedInt at hn
  unfold unfoldedInt
  split at hn <;> split <;> omega

theorem mapToPosInv_eq_ofInt {w : Nat} (u : BitVec w) : mapToPosInv u = BitVec.ofInt w (unfoldedInt u.toNat) := by
  have hbit : u.getLsbD 0 = true ↔ u.toNat % 2 = 1 := by
    rw [BitVec.getLsbD, Nat.testBit_zero, decide_eq_true_eq]
  unfold mapToPosInv unfoldedInt
  by_cases hodd : u.toNat % 2 = 1
  · rw [if_pos (hbit.mpr hodd), if_pos hodd, BitVec.ofInt_neg, BitVec.ofInt_natCast]
  · rw [if_neg (hbit.not.mpr hodd), if_neg hodd, BitVec.ofInt_natCast]
    refine BitVec.eq_of_toNat_eq ?_
    rw [BitVec.toNat_ushiftRight, BitVec.toNat_ofNat, Nat.shiftRight_eq_div_pow, pow_one,
      Nat.mod_eq_of_lt (Nat.lt_of_le_of_lt (Nat.div_le_self _ _) u.isLt)]

theorem mapToPosInv_mapToPos {w : Nat} (x : BitVec w) : mapToPosInv (mapToPos x) = x := by
  rw [mapToPosInv_eq_ofInt, unfoldedInt_foldedInt x.toInt (Mapper.toNat_mapToPos x), BitVec.ofInt_toInt]

/-- The fold is injective on a finite type, so its inverse undoes it from both sides. -/
theorem mapToPos_mapToPosInv {w : Nat} (u : BitVec w) : mapToPos (mapToPosInv u) = u := by
  have hleft : Function.LeftInverse (mapToPosInv (w := w)) mapToPos := mapToPosInv_mapToPos
  obtain ⟨x, rfl⟩ := Finite.surjective_of_injective hleft.injective u
  rw [mapToPosInv_mapToPos]

theorem unmapValue_mapValue {w : Nat} (esc : Escape) (biased : Bool) (x : BitVec w) :
    unmapValue esc biased (mapValue esc biased x) = x := by
  unfold unmapValue mapValue
  split_ifs
  · rw [BitVec.add_sub_cancel, mapToPosInv_mapToPos]
  · exact mapToPosInv_mapToPos x

theorem mapValue_unmapValue {w : Nat} (esc : Escape) (biased : Bool) (x : BitVec w) :
    mapValue esc biased (unmapValue esc biased x) = x := by
  unfold unmapValue mapValue
  split_ifs
  · rw [mapToPos_mapToPosInv, BitVec.sub_add_cancel]
  · exact mapToPos_mapToPosInv x

/-- Settles O35: the inverse of the fold from both sides, and the bias taken off and put back. -/
theorem mappingBijective : Obligations.MappingBijective := by
  intro w x esc biased
  exact ⟨mapToPosInv_mapToPos x, mapToPos_mapToPosInv x, unmapValue_mapValue esc biased x,
    mapValue_unmapValue esc biased x⟩

/-! ### Loops that touch each place once -/

/-- What the loop makes of a view that one item of the list changes and no other touches. -/
theorem foldl_touches_once {α β : Type} {step : Memory → α → Memory} {view : Memory → β} {F : β → β} {l : List α} {x : α}
    (hnodup : l.Nodup) (hx : x ∈ l) (hdo : ∀ m, view (step m x) = F (view m))
    (hkeep : ∀ m, ∀ y ∈ l, y ≠ x → view (step m y) = view m) (m : Memory) : view (l.foldl step m) = F (view m) := by
  have hrest : ∀ (l' : List α) (m : Memory), l' ⊆ l → x ∉ l' → view (l'.foldl step m) = view m := by
    intro l' m hsub hout
    refine List.foldlRecOn (motive := fun m' => view m' = view m) l' step rfl fun m' hm' y hy => ?_
    rw [hkeep m' y (hsub hy) fun he => hout (he ▸ hy), hm']
  obtain ⟨before, after, rfl⟩ := List.append_of_mem hx
  obtain ⟨hbefore, hafter⟩ : x ∉ before ∧ x ∉ after := by
    obtain ⟨-, hcons, hdisj⟩ := List.nodup_append.mp hnodup
    exact ⟨fun hb => hdisj x hb x List.mem_cons_self rfl, (List.nodup_cons.mp hcons).1⟩
  rw [List.foldl_append, List.foldl_cons, hrest after _ (by simp) hafter, hdo, hrest before m (by simp) hbefore]

/-! ### Field writes and the samples of a buffer -/

/-- The bytes of `n` samples of the buffer at `h`. -/
def samplesExtent (h : Handle) (sh : Shape) (n : Nat) : Extent := { base := h.base.toNat, len := n * sampleBytes sh }

/-- A field write stays inside the samples. -/
theorem fieldWrite_keptOutside_samples (m : Memory) {h : Handle} {sh : Shape} {i n : Nat} {f : Field}
    (v : BitVec f.width.bits) (hn : h.base.toNat + n * sampleBytes sh ≤ 2 ^ 32) (hi : i < n) (hf : f ∈ shapeFields sh) :
    KeptOutside [samplesExtent h sh n] m (fieldWrite m h sh i f v) := by
  have hend := fieldAddress_end_le (h := h) (i := i) hf
  have hsamples := sample_end_le sh hi
  refine keptOutside_widen (fieldWrite_keptOutside m _ (fieldFits_of_lt hn hi hf)) ?_ ?_
  · show h.base.toNat ≤ fieldAddress h sh i f
    unfold fieldAddress
    omega
  · show fieldAddress h sh i f + f.width.bytes ≤ h.base.toNat + n * sampleBytes sh
    omega

theorem disjoint_iff (a b : Extent) : a.disjoint b = true ↔ a.base + a.len ≤ b.base ∨ b.base + b.len ≤ a.base := by
  rw [Extent.disjoint, Bool.or_eq_true, decide_eq_true_eq, decide_eq_true_eq]

/-- The fields of a buffer are read from its samples. -/
theorem fieldRead_of_samples_apart {m m' : Memory} {h : Handle} {sh : Shape} {k n : Nat} {g : Field} {e : Extent}
    (hkept : KeptOutside [e] m m') (hn : h.base.toNat + n * sampleBytes sh ≤ 2 ^ 32) (hk : k < n)
    (hg : g ∈ shapeFields sh) (hdisj : (samplesExtent h sh n).disjoint e = true) :
    fieldRead m' h sh k g = fieldRead m h sh k g := by
  have hend := fieldAddress_end_le (h := h) (i := k) hg
  have hsamples := sample_end_le sh hk
  refine fieldRead_of_keptOutside hkept (fieldFits_of_lt hn hk hg) ?_
  rw [disjoint_iff] at hdisj
  change h.base.toNat + n * sampleBytes sh ≤ e.base ∨ e.base + e.len ≤ h.base.toNat at hdisj
  unfold fieldAddress at hend ⊢
  omega

/-! ### The difference transform -/

/-- What the difference transform makes of the `n + 1` values of a field. -/
def differences {w : Nat} (k n : Nat) (v : Nat → BitVec w) (i : Nat) : BitVec w :=
  if n < i then v i else if i = 0 then roundFwd (v 0) k else roundFwd (v i) k - roundFwd (v (i - 1)) k

section
variable {h : Handle} {sh : Shape} {N : Nat} (hN : h.base.toNat + N * sampleBytes sh ≤ 2 ^ 32)
include hN

theorem fieldRead_fieldWrite_other_sample {f : Field} (hf : f ∈ shapeFields sh) (m : Memory) {i n : Nat}
    (v : BitVec f.width.bits) (hi : i < N) (hn : n < N) (hne : i ≠ n) :
    fieldRead (fieldWrite m h sh n f v) h sh i f = fieldRead m h sh i f :=
  fieldRead_fieldWrite_of_ne m v (fieldFits_of_lt hN hn hf) (fieldFits_of_lt hN hi hf)
    fun he => hne (congrArg Prod.fst he)

/-- One field: tail to head, every sample before is still as it was. -/
theorem fieldRead_diffField_same (k : Nat) {f : Field} (hf : f ∈ shapeFields sh) {n : Nat} (hn : n < N) (m : Memory)
    {i : Nat} (hi : i < N) :
    fieldRead (diffField h sh k f n m) h sh i f = differences k n (fun i => fieldRead m h sh i f) i := by
  induction n generalizing m with
  | zero =>
    rw [diffField]
    rcases Nat.eq_zero_or_pos i with rfl | hpos
    · rw [fieldRead_fieldWrite_same m _ (fieldFits_of_lt hN hi hf)]
      rfl
    · rw [fieldRead_fieldWrite_other_sample hN hf m _ hi hn (by omega), differences, if_pos hpos]
  | succ n ih =>
    rw [diffField, ih (by omega)]
    simp only [differences]
    by_cases hbeyond : n + 1 < i
    · rw [if_pos (by omega), if_pos hbeyond, fieldRead_fieldWrite_other_sample hN hf m _ hi hn (by omega)]
    · rw [if_neg hbeyond]
      by_cases htop : i = n + 1
      · subst htop
        rw [if_pos (by omega), if_neg (by omega), fieldRead_fieldWrite_same m _ (fieldFits_of_lt hN hn hf),
          Nat.add_sub_cancel]
      · rw [if_neg (by omega), fieldRead_fieldWrite_other_sample hN hf m _ hi hn htop,
          fieldRead_fieldWrite_other_sample hN hf m _ (by omega : 0 < N) hn (by omega),
          fieldRead_fieldWrite_other_sample hN hf m _ (by omega : i - 1 < N) hn (by omega)]

theorem diffField_keptOutside (k : Nat) {f : Field} (hf : f ∈ shapeFields sh) {n : Nat} (hn : n < N) (m : Memory) :
    KeptOutside [samplesExtent h sh N] m (diffField h sh k f n m) := by
  induction n generalizing m with
  | zero => exact fieldWrite_keptOutside_samples m _ hN hn hf
  | succ n ih => exact keptOutside_trans (fieldWrite_keptOutside_samples m _ hN hn hf) (ih (by omega) _)

theorem fieldRead_diffField_of_ne (k : Nat) {f g : Field} (hf : f ∈ shapeFields sh) (hg : g ∈ shapeFields sh) (hne : f ≠ g)
    {n : Nat} (hn : n < N) (m : Memory) {i : Nat} (hi : i < N) :
    fieldRead (diffField h sh k f n m) h sh i g = fieldRead m h sh i g := by
  have hkeep : ∀ {n} (m : Memory) (v : BitVec f.width.bits), n < N →
      fieldRead (fieldWrite m h sh n f v) h sh i g = fieldRead m h sh i g := fun m v hn =>
    fieldRead_fieldWrite_of_ne m v (fieldFits_of_lt hN hn hf) (fieldFits_of_lt hN hi hg)
      fun he => hne (congrArg Prod.snd he).symm
  induction n generalizing m with
  | zero => exact hkeep m _ hn
  | succ n ih => exact (ih (by omega) _).trans (hkeep m _ hn)

end

section
variable {j : JobRecord} {sh : Shape} (hin : j.input.base.toNat + j.samples.toNat * sampleBytes sh ≤ 2 ^ 32)
include hin

theorem fieldRead_diffMemory (m : Memory) {i : Nat} (hi : i < j.samples.toNat) {f : Field} (hf : f ∈ shapeFields sh) :
    fieldRead (diffMemory j sh m) j.input sh i f
      = if i = 0 then roundFwd (fieldRead m j.input sh 0 f) j.round.toNat
        else roundFwd (fieldRead m j.input sh i f) j.round.toNat
          - roundFwd (fieldRead m j.input sh (i - 1) f) j.round.toNat := by
  have hn : j.samples.toNat - 1 < j.samples.toNat := by omega
  have hfold := foldl_touches_once (l := shapeFields sh) (x := f)
    (step := fun m f => diffField j.input sh j.round.toNat f (j.samples.toNat - 1) m)
    (view := fun m (i : Fin j.samples.toNat) => fieldRead m j.input sh i f)
    (F := fun v i => differences j.round.toNat (j.samples.toNat - 1)
      (fun i => if hi : i < j.samples.toNat then v ⟨i, hi⟩ else 0) i)
    (shapeFields_nodup sh) hf
    (fun m => funext fun i => by
      rw [fieldRead_diffField_same hin _ hf hn m i.isLt]
      have := i.isLt
      simp only [differences, dif_pos i.isLt, dif_pos (show 0 < j.samples.toNat by omega),
        dif_pos (show i.1 - 1 < j.samples.toNat by omega)])
    (fun m g hg hne => funext fun i => fieldRead_diffField_of_ne hin _ hg hf hne hn m i.isLt) m
  have hat := congrFun hfold ⟨i, hi⟩
  simp only [differences, dif_pos hi, dif_pos (show 0 < j.samples.toNat by omega),
    dif_pos (show i - 1 < j.samples.toNat by omega), if_neg (show ¬ j.samples.toNat - 1 < i by omega)] at hat
  exact hat

theorem diffMemory_keptOutside (hpos : 0 < j.samples.toNat) (m : Memory) :
    KeptOutside [samplesExtent j.input sh j.samples.toNat] m (diffMemory j sh m) :=
  keptOutside_foldl (fun m _ hf => diffField_keptOutside hin _ hf (by omega) m) m

end

/-- Settles O31: by the transform of one field; the fields do not touch each other. -/
theorem differencePhase : Obligations.DifferencePhase := by
  intro s sh hin hpos
  refine ⟨fun f hf => ?_, fun i hi hlt f hf => ?_, diffMemory_keptOutside hin hpos s.mem⟩
  · exact (fieldRead_diffMemory hin s.mem hpos hf).trans (if_pos rfl)
  · exact (fieldRead_diffMemory hin s.mem hlt hf).trans (if_neg (by omega))

/-! ### The model transform -/

/-- The premises of the model transform on the sample buffers (70_reset_and_hazards.md R335, R336): they do not run over
the top of MEM, the input is apart from the model and the target, and the target is the model or apart from it. -/
structure ModelBuffers (j : JobRecord) (sh : Shape) : Prop where
  input : j.input.base.toNat + j.samples.toNat * sampleBytes sh ≤ 2 ^ 32
  model : j.model.base.toNat + j.samples.toNat * sampleBytes sh ≤ 2 ^ 32
  target : (modelTarget j).base.toNat + j.samples.toNat * sampleBytes sh ≤ 2 ^ 32
  inputModel : (samplesExtent j.input sh j.samples.toNat).disjoint (samplesExtent j.model sh j.samples.toNat) = true
  inputTarget :
    (samplesExtent j.input sh j.samples.toNat).disjoint (samplesExtent (modelTarget j) sh j.samples.toNat) = true
  targetModel : (modelTarget j).base = j.model.base
    ∨ (samplesExtent (modelTarget j) sh j.samples.toNat).disjoint (samplesExtent j.model sh j.samples.toNat) = true

theorem Extent.disjoint_comm (a b : Extent) : a.disjoint b = b.disjoint a := Bool.or_comm _ _

/-- Fields are found by the base of their buffer. -/
theorem fieldRead_of_base_eq {h h' : Handle} (hb : h.base = h'.base) (m : Memory) (sh : Shape) (i : Nat) (f : Field) :
    fieldRead m h sh i f = fieldRead m h' sh i f := by
  rw [fieldRead, fieldRead, fieldAddress, fieldAddress, hb]

theorem fieldWrite_of_base_eq {h h' : Handle} (hb : h.base = h'.base) (m : Memory) (sh : Shape) (i : Nat) (f : Field)
    (v : BitVec f.width.bits) : fieldWrite m h sh i f v = fieldWrite m h' sh i f v := by
  rw [fieldWrite, fieldWrite, fieldAddress, fieldAddress, hb]

/-- The values of one field of one sample in the input, the model and the target. -/
structure ModelView (w : Nat) where
  input : BitVec w
  model : BitVec w
  target : BitVec w

/-- A place of MEM, seen in the three buffers. -/
def modelView (j : JobRecord) (sh : Shape) (p : Nat × Field) (m : Memory) : ModelView p.2.width.bits where
  input := fieldRead m j.input sh p.1 p.2
  model := fieldRead m j.model sh p.1 p.2
  target := fieldRead m (modelTarget j) sh p.1 p.2

/-- The residual of a value against its model (41_preprocessor.md R135). -/
def modelResidual {w : Nat} (k : Nat) (x y : BitVec w) : BitVec w := roundFwd x k - roundFwd y k

/-- The blend of a rounded value and its model (41_preprocessor.md R136). -/
def blended {w : Nat} (k weight : Nat) (x y : BitVec w) : BitVec w :=
  BitVec.ofNat w (calUpModel (roundInv (roundFwd x k) k).toNat y.toNat weight)

/-- What the model transform makes of one place: the model keeps its value unless it is the target. -/
def modelStep (j : JobRecord) {w : Nat} (v : ModelView w) : ModelView w where
  input := modelResidual j.round.toNat v.input v.model
  model :=
    if (modelTarget j).base = j.model.base then blended j.round.toNat j.modelValue.toNat v.input v.model else v.model
  target := blended j.round.toNat j.modelValue.toNat v.input v.model

theorem modelField_eq (j : JobRecord) (sh : Shape) (i : Nat) (f : Field) (m : Memory) :
    modelField j sh i f m
      = fieldWrite
          (fieldWrite m j.input sh i f
            (modelResidual j.round.toNat (fieldRead m j.input sh i f) (fieldRead m j.model sh i f)))
          (modelTarget j) sh i f
          (blended j.round.toNat j.modelValue.toNat (fieldRead m j.input sh i f) (fieldRead m j.model sh i f)) := rfl

/-- The two loops of the model transform are one loop over all the fields of all the samples. -/
theorem modelMemory_eq_foldl (j : JobRecord) (sh : Shape) (m : Memory) :
    modelMemory j sh m
      = (List.range j.samples.toNat ×ˢ shapeFields sh).foldl (fun m p => modelField j sh p.1 p.2 m) m := by
  unfold modelMemory
  simp only [SProd.sprod, List.product, List.foldl_flatMap, List.foldl_map]

section
variable {j : JobRecord} {sh : Shape} (hbuf : ModelBuffers j sh)
include hbuf

/-- A write to the input is not seen in the model or the target. -/
theorem read_of_write_input (m : Memory) {i k : Nat} {f g : Field} (v : BitVec f.width.bits) (hi : i < j.samples.toNat)
    (hk : k < j.samples.toNat) (hf : f ∈ shapeFields sh) (hg : g ∈ shapeFields sh) :
    fieldRead (fieldWrite m j.input sh i f v) j.model sh k g = fieldRead m j.model sh k g
      ∧ fieldRead (fieldWrite m j.input sh i f v) (modelTarget j) sh k g = fieldRead m (modelTarget j) sh k g := by
  have hkept := fieldWrite_keptOutside_samples m v hbuf.input hi hf
  exact ⟨fieldRead_of_samples_apart hkept hbuf.model hk hg (by rw [Extent.disjoint_comm]; exact hbuf.inputModel),
    fieldRead_of_samples_apart hkept hbuf.target hk hg (by rw [Extent.disjoint_comm]; exact hbuf.inputTarget)⟩

/-- A write to the target is not seen in the input, and in the model only if that is the target. -/
theorem read_of_write_target (m : Memory) {i k : Nat} {f g : Field} (v : BitVec f.width.bits) (hi : i < j.samples.toNat)
    (hk : k < j.samples.toNat) (hf : f ∈ shapeFields sh) (hg : g ∈ shapeFields sh) :
    fieldRead (fieldWrite m (modelTarget j) sh i f v) j.input sh k g = fieldRead m j.input sh k g
      ∧ ((modelTarget j).base ≠ j.model.base →
          fieldRead (fieldWrite m (modelTarget j) sh i f v) j.model sh k g = fieldRead m j.model sh k g) := by
  have hkept := fieldWrite_keptOutside_samples m v hbuf.target hi hf
  refine ⟨fieldRead_of_samples_apart hkept hbuf.input hk hg hbuf.inputTarget, fun hne => ?_⟩
  exact fieldRead_of_samples_apart hkept hbuf.model hk hg
    (by rw [Extent.disjoint_comm]; exact hbuf.targetModel.resolve_left hne)

/-- A field of one buffer does not see a write to another place of that buffer. -/
theorem modelView_modelField_of_ne {p q : Nat × Field} (hp : p.1 < j.samples.toNat ∧ p.2 ∈ shapeFields sh)
    (hq : q.1 < j.samples.toNat ∧ q.2 ∈ shapeFields sh) (hne : q ≠ p) (m : Memory) :
    modelView j sh p (modelField j sh q.1 q.2 m) = modelView j sh p m := by
  obtain ⟨hpi, hpf⟩ := hp
  obtain ⟨hqi, hqf⟩ := hq
  have hplace : (p.1, p.2) ≠ (q.1, q.2) := fun he => hne he.symm
  rw [modelField_eq]
  generalize modelResidual _ _ _ = r
  generalize blended _ _ _ _ = b
  obtain ⟨hinModel, hinTarget⟩ := read_of_write_input hbuf m r hqi hpi hqf hpf
  obtain ⟨htInput, htModel⟩ := read_of_write_target hbuf (fieldWrite m j.input sh q.1 q.2 r) b hqi hpi hqf hpf
  have htarget : fieldRead (fieldWrite (fieldWrite m j.input sh q.1 q.2 r) (modelTarget j) sh q.1 q.2 b) (modelTarget j) sh
      p.1 p.2 = fieldRead m (modelTarget j) sh p.1 p.2 := by
    rw [fieldRead_fieldWrite_of_ne _ b (fieldFits_of_lt hbuf.target hqi hqf) (fieldFits_of_lt hbuf.target hpi hpf) hplace,
      hinTarget]
  simp only [modelView, htInput, htarget,
    fieldRead_fieldWrite_of_ne m r (fieldFits_of_lt hbuf.input hqi hqf) (fieldFits_of_lt hbuf.input hpi hpf) hplace]
  by_cases hsame : (modelTarget j).base = j.model.base
  · rw [← fieldRead_of_base_eq hsame, htarget, fieldRead_of_base_eq hsame]
  · rw [htModel hsame, hinModel]

theorem modelView_modelField_same {p : Nat × Field} (hp : p.1 < j.samples.toNat ∧ p.2 ∈ shapeFields sh) (m : Memory) :
    modelView j sh p (modelField j sh p.1 p.2 m) = modelStep j (modelView j sh p m) := by
  obtain ⟨hpi, hpf⟩ := hp
  rw [modelField_eq]
  simp only [modelStep, modelView]
  generalize modelResidual _ _ _ = r
  generalize blended _ _ _ _ = b
  obtain ⟨hinModel, -⟩ := read_of_write_input hbuf m r hpi hpi hpf hpf
  obtain ⟨htInput, htModel⟩ := read_of_write_target hbuf (fieldWrite m j.input sh p.1 p.2 r) b hpi hpi hpf hpf
  rw [htInput, fieldRead_fieldWrite_same m r (fieldFits_of_lt hbuf.input hpi hpf),
    fieldRead_fieldWrite_same _ b (fieldFits_of_lt hbuf.target hpi hpf)]
  split_ifs with hsame
  · rw [← fieldRead_of_base_eq hsame, fieldRead_fieldWrite_same _ b (fieldFits_of_lt hbuf.target hpi hpf)]
  · rw [htModel hsame, hinModel]

/-- Every place is transformed once, from the values it had before. -/
theorem modelView_modelMemory (m : Memory) {i : Nat} (hi : i < j.samples.toNat) {f : Field} (hf : f ∈ shapeFields sh) :
    modelView j sh (i, f) (modelMemory j sh m) = modelStep j (modelView j sh (i, f) m) := by
  have hplace : ∀ p ∈ List.range j.samples.toNat ×ˢ shapeFields sh, p.1 < j.samples.toNat ∧ p.2 ∈ shapeFields sh := by
    intro p hp
    obtain ⟨hsample, hfield⟩ := List.mem_product.mp hp
    exact ⟨List.mem_range.mp hsample, hfield⟩
  rw [modelMemory_eq_foldl]
  exact foldl_touches_once (List.nodup_range.product (shapeFields_nodup sh))
    (List.mem_product.mpr ⟨List.mem_range.mpr hi, hf⟩) (modelView_modelField_same hbuf ⟨hi, hf⟩)
    (fun m q hq hne => modelView_modelField_of_ne hbuf ⟨hi, hf⟩ (hplace q hq) hne m) m

theorem fieldRead_modelMemory_input (m : Memory) {i : Nat} (hi : i < j.samples.toNat) {f : Field} (hf : f ∈ shapeFields sh) :
    fieldRead (modelMemory j sh m) j.input sh i f
      = modelResidual j.round.toNat (fieldRead m j.input sh i f) (fieldRead m j.model sh i f) :=
  congrArg ModelView.input (modelView_modelMemory hbuf m hi hf)

theorem fieldRead_modelMemory_target (m : Memory) {i : Nat} (hi : i < j.samples.toNat) {f : Field}
    (hf : f ∈ shapeFields sh) :
    fieldRead (modelMemory j sh m) (modelTarget j) sh i f
      = blended j.round.toNat j.modelValue.toNat (fieldRead m j.input sh i f) (fieldRead m j.model sh i f) :=
  congrArg ModelView.target (modelView_modelMemory hbuf m hi hf)

theorem fieldRead_modelMemory_model (hne : (modelTarget j).base ≠ j.model.base) (m : Memory) {i : Nat}
    (hi : i < j.samples.toNat) {f : Field} (hf : f ∈ shapeFields sh) :
    fieldRead (modelMemory j sh m) j.model sh i f = fieldRead m j.model sh i f :=
  (congrArg ModelView.model (modelView_modelMemory hbuf m hi hf)).trans (if_neg hne)

theorem modelMemory_keptOutside (m : Memory) :
    KeptOutside [samplesExtent j.input sh j.samples.toNat, samplesExtent (modelTarget j) sh j.samples.toNat] m
      (modelMemory j sh m) := by
  rw [modelMemory_eq_foldl]
  refine keptOutside_foldl (fun m p hp => ?_) m
  obtain ⟨hsample, hfield⟩ := List.mem_product.mp hp
  have hi := List.mem_range.mp hsample
  exact keptOutside_trans
    (Launch.keptOutside_mono (by simp) (fieldWrite_keptOutside_samples m _ hbuf.input hi hfield))
    (Launch.keptOutside_mono (by simp) (fieldWrite_keptOutside_samples _ _ hbuf.target hi hfield))

end

/-- Settles O32: by the transform of one place; no other place is read or written with it. -/
theorem modelPhase : Obligations.ModelPhase := by
  intro s sh span input model target hwrap hin hit htm hpos
  have hbuf : ModelBuffers s.j sh :=
    { input := hwrap input (by simp)
      model := hwrap model (by simp)
      target := hwrap target (by simp)
      inputModel := hin
      inputTarget := hit
      targetModel := htm.imp_left fun he => BitVec.eq_of_toNat_eq (congrArg Extent.base he) }
  refine ⟨fun i hi f hf => fieldRead_modelMemory_input hbuf s.mem hi hf,
    fun i hi f hf => fieldRead_modelMemory_target hbuf s.mem hi hf, modelMemory_keptOutside hbuf s.mem,
    fun hu hne i hi f hf => fieldRead_modelMemory_model hbuf ?_ s.mem hi hf⟩
  rw [modelTarget, if_pos hu]
  exact hne

end Sys2Proof.Proofs.Preprocessor
end

section
/-! Normal codewords (43_entropy_encoder.md R170 to R173) and the reference decoder (46_decoder_reference.md R281 to R284): their
lengths by one formula over both kinds, their bits, the bound of MAX_SPILL, and the inverse. -/

namespace Sys2Proof.Proofs.Codes

open Sys2Proof.Machine Sys2Proof.Proofs.Rice

/-! ### The two kinds of setups -/

theorem isPow2_iff (m : Nat) : isPow2 m = true ↔ ∃ k, m = 2 ^ k := by
  rw [isPow2, Bool.and_eq_true, decide_eq_true_eq, beq_iff_eq, Nat.one_le_iff_ne_zero]
  exact Nat.ne_zero_and_sub_one_eq_zero_iff_isPowerOfTwo

theorem two_pow_ilog2_le {m : Nat} (hm : 1 ≤ m) : 2 ^ ilog2 m ≤ m := Nat.log2_self_le (by omega)

theorem lt_two_pow_ilog2_succ (m : Nat) : m < 2 ^ (ilog2 m + 1) := Nat.lt_log2_self

/-- The cutoff is a number between 1 and the parameter, and below it when that is no power of two. -/
theorem golombCutoff_bounds {m : Nat} (hm : 1 ≤ m) :
    1 ≤ golombCutoff m ∧ golombCutoff m ≤ m ∧ golombCutoff m + m = 2 ^ (ilog2 m + 1)
      ∧ ((∀ k, m ≠ 2 ^ k) → golombCutoff m < m) := by
  have hlow := two_pow_ilog2_le hm
  have hhigh := lt_two_pow_ilog2_succ m
  have hdouble : 2 ^ (ilog2 m + 1) = 2 * 2 ^ ilog2 m := Nat.pow_succ'
  unfold golombCutoff
  refine ⟨by omega, by omega, by omega, fun hne => ?_⟩
  have := hne (ilog2 m)
  omega

/-- `Setup` takes Rice for a power of two and Golomb otherwise (R170). -/
theorem encoderSetup_kind {m : Nat} (hm : 1 ≤ m) (spill : Nat) (esc : Escape) :
    (m = 2 ^ ilog2 m ∧ encoderSetup m spill esc = { m := m, log2m := ilog2 m, kind := .rice, spill := spill, esc := esc })
      ∨ ((∀ k, m ≠ 2 ^ k)
        ∧ encoderSetup m spill esc = { m := m, log2m := ilog2 m, kind := .golomb, spill := spill, esc := esc }) := by
  by_cases hpow : isPow2 m = true
  · obtain ⟨k, rfl⟩ := (isPow2_iff m).mp hpow
    exact .inl ⟨by rw [ilog2, Nat.log2_two_pow], by rw [encoderSetup, if_pos hpow]⟩
  · refine .inr ⟨fun k hk => hpow ((isPow2_iff m).mpr ⟨k, hk⟩), ?_⟩
    rw [encoderSetup, if_neg hpow]

/-! ### Lengths -/

/-- The length of the normal codeword of `u` for the parameter `m`, for both kinds. -/
def codeLength (m u : Nat) : Nat :=
  if u < golombCutoff m then ilog2 m + 1 else (u - golombCutoff m) / m + ilog2 m + 2

theorem golombCodeword_of_lt {m u : Nat} (hu : u < golombCutoff m) :
    golombCodeword u m (ilog2 m) = { value := u, len := ilog2 m + 1 } := if_pos hu

theorem golombCodeword_of_le {m u : Nat} (hu : golombCutoff m ≤ u) :
    golombCodeword u m (ilog2 m)
      = { value := (2 ^ ((u - golombCutoff m) / m) - 1) * 2 ^ (ilog2 m + 2) + 2 * golombCutoff m
            + (u - golombCutoff m - (u - golombCutoff m) / m * m)
          len := (u - golombCutoff m) / m + ilog2 m + 2 } := if_neg (Nat.not_lt_of_le hu)

theorem golombCodeword_len (u m : Nat) : (golombCodeword u m (ilog2 m)).len = codeLength m u := by
  unfold codeLength
  split_ifs with hu
  · rw [golombCodeword_of_lt hu]
  · rw [golombCodeword_of_le (Nat.le_of_not_lt hu)]

theorem normalCodeword_len {m : Nat} (hm : 1 ≤ m) (u spill : Nat) (esc : Escape) :
    (normalCodeword u (encoderSetup m spill esc)).len = codeLength m u := by
  rcases encoderSetup_kind hm spill esc with ⟨hpow, hsetup⟩ | ⟨_, hsetup⟩
  · have hcut : golombCutoff m = m := by
      have hdouble : 2 ^ (ilog2 m + 1) = 2 * 2 ^ ilog2 m := Nat.pow_succ'
      unfold golombCutoff
      omega
    have hrice : (normalCodeword u (encoderSetup m spill esc)).len = u / m + 1 + ilog2 m := by
      rw [hsetup]
      exact (riceCodeword_len u (ilog2 m)).trans (by rw [← hpow])
    rw [hrice, codeLength, hcut]
    split_ifs with hlt
    · rw [Nat.div_eq_of_lt hlt]
      omega
    · rw [Nat.div_eq_sub_div hm (Nat.le_of_not_lt hlt)]
      omega
  · rw [hsetup, normalCodeword]
    exact golombCodeword_len u m

/-- Codewords do not get shorter (R184). -/
theorem codeLength_mono {m u v : Nat} (huv : u ≤ v) : codeLength m u ≤ codeLength m v := by
  have hdiv : (u - golombCutoff m) / m ≤ (v - golombCutoff m) / m := Nat.div_le_div_right (by omega)
  rw [codeLength, codeLength]
  generalize (u - golombCutoff m) / m = g at hdiv ⊢
  generalize (v - golombCutoff m) / m = g' at hdiv ⊢
  split_ifs <;> omega

/-- Every codeword has a bit. -/
theorem codeLength_pos (m u : Nat) : 1 ≤ codeLength m u := by
  rw [codeLength]
  generalize (u - golombCutoff m) / m = g
  split_ifs <;> omega

/-! ### The bound of `MAX_SPILL` -/

theorem ilog2_le_fifteen {m : Nat} (hm : 1 ≤ m) (hle : m ≤ 65535) : ilog2 m ≤ 15 :=
  Nat.le_of_lt_succ ((Nat.log2_lt (by omega)).mpr (by omega))

/-- `MAX_SPILL` and 16 more is where the codewords reach 33 bits (R186). -/
theorem maxSpill_add {m : Nat} (hm : 1 ≤ m) (hle : m ≤ 65535) (mode : Word) :
    maxSpill m mode + 16 = (31 - ilog2 m) * m + golombCutoff m := by
  obtain ⟨hcut, -⟩ := golombCutoff_bounds hm
  have hlog := ilog2_le_fifteen hm hle
  have hprod : 16 * 1 ≤ (31 - ilog2 m) * m := Nat.mul_le_mul (by omega) hm
  have hform : maxSpill m mode = (31 - ilog2 m) * m + golombCutoff m - 15 - 1 :=
    if_neg (by unfold maxIcuGolombPar; omega)
  omega

theorem maxSpill_illegal {m : Nat} (h : m = 0 ∨ 65535 < m) (mode : Word) : maxSpill m mode = 0 := if_pos h

/-- The lengths around the bound. -/
theorem codeLength_at_maxSpill {m : Nat} (hm : 1 ≤ m) (hle : m ≤ 65535) (mode : Word) :
    codeLength m (maxSpill m mode + 15) = 32 ∧ codeLength m (maxSpill m mode + 16) = 33 := by
  have hadd := maxSpill_add hm hle mode
  have hlog := ilog2_le_fifteen hm hle
  have hfactor : (31 - ilog2 m) * m = (30 - ilog2 m) * m + m := by
    rw [show 31 - ilog2 m = 30 - ilog2 m + 1 by omega, Nat.succ_mul]
  have hbig : 1 ≤ (30 - ilog2 m) * m := Nat.mul_pos (by omega) hm
  constructor
  · have hdiv : (maxSpill m mode + 15 - golombCutoff m) / m = 30 - ilog2 m :=
      Nat.div_eq_of_lt_le (by omega) (by rw [Nat.succ_mul]; omega)
    rw [codeLength, if_neg (by omega), hdiv]
    omega
  · have hdiv : (maxSpill m mode + 16 - golombCutoff m) / m = 31 - ilog2 m := by
      rw [hadd, Nat.add_sub_cancel, Nat.mul_div_cancel _ hm]
    rw [codeLength, if_neg (by omega), hdiv]
    omega

/-- Settles O41: the bound is exact, and lengths do not decrease. -/
theorem maxSpillBudget : Obligations.MaxSpillBudget := by
  intro m mode spill esc
  refine ⟨fun hm hle => ?_, fun h => maxSpill_illegal h mode⟩
  obtain ⟨hlast, hfirst⟩ := codeLength_at_maxSpill hm hle mode
  simp only [normalCodeword_len hm]
  refine ⟨?_, fun u hu => hlast ▸ codeLength_mono hu, hlast, hfirst⟩
  have hadd := maxSpill_add hm hle mode
  have hlog := ilog2_le_fifteen hm hle
  obtain ⟨hcut, hcutle, -⟩ := golombCutoff_bounds hm
  rcases Nat.lt_or_ge m 2 with hone | htwo
  · obtain rfl : m = 1 := by omega
    rw [show ilog2 1 = 0 from rfl] at hadd
    omega
  · have hprod : 16 * 2 ≤ (31 - ilog2 m) * m := Nat.mul_le_mul (by omega) htwo
    omega

/-! ### The multi-escape offset -/

theorem calMultiOffset_le (d : Nat) : calMultiOffset d ≤ 15 := by
  unfold calMultiOffset
  cases h : (List.range 15).find? (fun k => decide (d ≤ 4 ^ (k + 1) - 1)) with
  | none => exact le_refl 15
  | some k =>
    obtain ⟨-, hk, -⟩ := List.find?_range_eq_some.mp h
    exact Nat.le_of_lt (List.mem_range.mp hk)

/-- The row found is the first that holds `d`. -/
theorem calMultiOffset_spec {d : Nat} (hd : d < 2 ^ 32) :
    d ≤ 4 ^ (calMultiOffset d + 1) - 1 ∧ ∀ k, k < calMultiOffset d → 4 ^ (k + 1) - 1 < d := by
  unfold calMultiOffset
  cases h : (List.range 15).find? (fun k => decide (d ≤ 4 ^ (k + 1) - 1)) with
  | none =>
    refine ⟨Nat.le_of_lt_succ hd, fun k hk => ?_⟩
    simpa using List.find?_range_eq_none.mp h k hk
  | some k =>
    obtain ⟨hrow, -, hbefore⟩ := List.find?_range_eq_some.mp h
    exact ⟨of_decide_eq_true hrow, fun i hi => by simpa using hbefore i hi⟩

theorem calMultiOffset_eq {d : Nat} (hd : d < 2 ^ 32) :
    calMultiOffset d = if d = 0 then 0 else min 15 (ilog2 d / 2) := by
  obtain ⟨hrow, hbefore⟩ := calMultiOffset_spec hd
  have hle := calMultiOffset_le d
  have hfour : ∀ k, 4 ^ k = 2 ^ (2 * k) := fun k => by rw [Nat.pow_mul]
  split_ifs with hzero
  · by_contra hne
    have := hbefore 0 (by omega)
    omega
  · have hhigh : ilog2 d < 2 * (calMultiOffset d + 1) := by
      refine (Nat.log2_lt hzero).mpr ?_
      rw [← hfour]
      have := Nat.pow_pos (n := calMultiOffset d + 1) (show 0 < 4 by decide)
      omega
    have hlow : 2 * calMultiOffset d ≤ ilog2 d := by
      refine (Nat.le_log2 hzero).mpr ?_
      rw [← hfour]
      cases hk : calMultiOffset d with
      | zero => exact Nat.pos_of_ne_zero hzero
      | succ k =>
        have := hbefore k (by omega)
        omega
    omega

/-- Settles O40: the first row by its definition, the closed form by the binary logarithm. -/
theorem multiOffsetTable : Obligations.MultiOffsetTable := by
  intro d hd
  obtain ⟨hrow, hbefore⟩ := calMultiOffset_spec hd
  exact ⟨calMultiOffset_le d, hrow, hbefore, calMultiOffset_eq hd⟩

/-! ### The budget of the two encoders -/

/-- The codeword that begins an emission: the value itself, or the escape symbol. -/
theorem headFits_encoderSetup {m : Nat} (hm : 1 ≤ m) (u spill : Nat) (esc : Escape) :
    headFits u (encoderSetup m spill esc) ↔ codeLength m (headSymbol u (encoderSetup m spill esc)) ≤ 32 := by
  rw [headFits, normalCodeword_len hm]

@[simp] theorem encoderSetup_spill (m spill : Nat) (esc : Escape) : (encoderSetup m spill esc).spill = spill := rfl
@[simp] theorem encoderSetup_esc (m spill : Nat) (esc : Escape) : (encoderSetup m spill esc).esc = esc := rfl

theorem outlier_zero_iff (u m spill : Nat) : outlier u (encoderSetup m spill .zero) = true ↔ spill ≤ u ∨ u = 0 := by
  show (decide (spill ≤ u) || u == 0) = true ↔ _
  rw [Bool.or_eq_true, decide_eq_true_eq, beq_iff_eq]

theorem outlier_multi_iff (u m spill : Nat) : outlier u (encoderSetup m spill .multi) = true ↔ spill ≤ u :=
  decide_eq_true_iff

theorem headSymbol_zero (u m spill : Nat) :
    headSymbol u (encoderSetup m spill .zero) = if spill ≤ u ∨ u = 0 then 0 else u :=
  if_congr (outlier_zero_iff u m spill) rfl rfl

theorem headSymbol_multi (u m spill : Nat) :
    headSymbol u (encoderSetup m spill .multi) = if spill ≤ u then spill + calMultiOffset (u - spill) else u :=
  if_congr (outlier_multi_iff u m spill) rfl rfl

theorem rawBits_zero (u w m spill : Nat) :
    rawBits u w (encoderSetup m spill .zero) = if spill ≤ u ∨ u = 0 then binBits w u else [] :=
  if_congr (outlier_zero_iff u m spill) rfl rfl

theorem rawBits_multi (u w m spill : Nat) :
    rawBits u w (encoderSetup m spill .multi)
      = if spill ≤ u then binBits ((calMultiOffset (u - spill) + 1) * 2) (u - spill) else [] :=
  if_congr (outlier_multi_iff u m spill) rfl rfl

/-- No head symbol is more than 15 above the spill. -/
theorem headSymbol_le (u m spill : Nat) (esc : Escape) : headSymbol u (encoderSetup m spill esc) ≤ spill + 15 := by
  have hoffset := calMultiOffset_le (u - spill)
  cases esc with
  | zero => rw [headSymbol_zero]; split_ifs <;> omega
  | multi => rw [headSymbol_multi]; split_ifs <;> omega

/-- Settles O42: a legal spill leaves 15 values of room below 33 bits. -/
theorem primaryEncoderWithinBudget : Obligations.PrimaryEncoderWithinBudget := by
  intro j esc u hv hraw
  obtain ⟨hm, hle⟩ : 1 ≤ j.golombPar.toNat ∧ j.golombPar.toNat ≤ 65535 := hv.golombParLegal hraw
  obtain ⟨-, hspill⟩ := hv.spillLegal hraw
  obtain ⟨hlast, -⟩ := codeLength_at_maxSpill hm hle j.mode
  refine (headFits_encoderSetup hm u _ esc).mpr (le_of_le_of_eq (codeLength_mono ?_) hlast)
  exact (headSymbol_le _ _ _ _).trans (Nat.add_le_add_right hspill 15)

/-- The codewords of the `exp_flags` encoder are unary (D4). -/
theorem codeLength_one (u : Nat) : codeLength golombParExposureFlags u = u + 1 := by
  have hone : golombCutoff 1 = 1 := rfl
  have hlog : ilog2 1 = 0 := rfl
  rw [golombParExposureFlags, codeLength, hone, hlog, Nat.div_one]
  split_ifs <;> omega

theorem headFits_exposureFlags (u spill : Nat) (esc : Escape) :
    headFits u (encoderSetup golombParExposureFlags spill esc)
      ↔ headSymbol u (encoderSetup golombParExposureFlags spill esc) < 32 := by
  rw [headFits_encoderSetup (show 1 ≤ golombParExposureFlags from le_refl 1), codeLength_one, Nat.succ_le_iff]

/-- An 8-bit value is at most three rows above its spill. -/
theorem calMultiOffset_le_three {d : Nat} (hd : d < 256) : calMultiOffset d ≤ 3 := by
  obtain ⟨-, hbefore⟩ := calMultiOffset_spec (show d < 2 ^ 32 by omega)
  by_contra hgt
  have := hbefore 3 (by omega)
  omega

/-- Settles O43: the head symbol of each path against 32. -/
theorem exposureFlagsBudget : Obligations.ExposureFlagsBudget := by
  intro spill u esc hu
  have hoffset := calMultiOffset_le_three (show u - spill < 256 by omega)
  cases esc with
  | zero =>
    simp only [headFits_exposureFlags, headSymbol_zero, reduceCtorEq, false_and, or_false, false_imp_iff, and_true, true_imp_iff]
    split_ifs <;> omega
  | multi =>
    simp only [headFits_exposureFlags, headSymbol_multi, reduceCtorEq, true_and, false_imp_iff, true_imp_iff]
    split_ifs <;> omega

/-! ### The bits of a codeword -/

/-- The Golomb codeword from the cutoff on, as ones and a suffix (R172). -/
theorem binBits_golombCodeword {m u : Nat} (hm : 1 ≤ m) (hu : golombCutoff m ≤ u) :
    binBits (golombCodeword u m (ilog2 m)).len (golombCodeword u m (ilog2 m)).value
      = List.replicate ((u - golombCutoff m) / m) true
        ++ binBits (ilog2 m + 2) (2 * golombCutoff m + (u - golombCutoff m) % m) := by
  obtain ⟨-, -, hsum, -⟩ := golombCutoff_bounds hm
  have hmod := Nat.mod_lt (u - golombCutoff m) hm
  have hdouble : 2 ^ (ilog2 m + 2) = 2 * 2 ^ (ilog2 m + 1) := Nat.pow_succ'
  have hrest : u - golombCutoff m - (u - golombCutoff m) / m * m = (u - golombCutoff m) % m := by
    have := Nat.div_add_mod' (u - golombCutoff m) m
    omega
  rw [golombCodeword_of_le hu, hrest, Nat.add_assoc, Nat.add_assoc, Nat.mul_comm,
    binBits_two_pow_mul_add _ _ _ (show 2 * golombCutoff m + (u - golombCutoff m) % m < 2 ^ (ilog2 m + 2) by omega),
    binBits_two_pow_sub_one]

/-- Settles O38: the two forms of a Golomb codeword. -/
theorem golombCodewordBits : Obligations.GolombCodewordBits := by
  intro u m spill esc hm hpow l c w
  have hm1 : 1 ≤ m := by omega
  obtain ⟨hcpos, -, -, hclt⟩ := golombCutoff_bounds hm1
  have hw : w = golombCodeword u m (ilog2 m) := by
    rcases encoderSetup_kind hm1 spill esc with ⟨h, -⟩ | ⟨-, hsetup⟩
    · exact absurd h (hpow _)
    · show normalCodeword u (encoderSetup m spill esc) = _
      rw [hsetup, normalCodeword]
  refine ⟨hcpos, hclt hpow, fun hu => ?_, fun hu => ⟨?_, ?_⟩⟩
  · rw [hw, golombCodeword_of_lt hu]
    exact ⟨rfl, rfl, rfl⟩
  · rw [hw, golombCodeword_len, codeLength]
    exact if_neg (Nat.not_lt_of_le hu)
  · have hrest : u - c - (u - c) / m * m = (u - c) % m := by
      have := Nat.div_add_mod' (u - c) m
      omega
    rw [hw, hrest]
    exact binBits_golombCodeword hm1 hu

theorem golombBits_of_lt {m u : Nat} (hu : u < golombCutoff m) : golombBits u m (ilog2 m) = binBits (ilog2 m + 1) u :=
  if_pos hu

theorem golombBits_of_le {m u : Nat} (hu : golombCutoff m ≤ u) :
    golombBits u m (ilog2 m) = List.replicate ((u - golombCutoff m) / m) true
      ++ binBits (ilog2 m + 2) (2 * golombCutoff m + (u - golombCutoff m) % m) :=
  if_neg (Nat.not_lt_of_le hu)

/-- The bit string of a normal codeword is that of its value (R173). -/
theorem normalBits_eq {m : Nat} (hm : 1 ≤ m) (u spill : Nat) (esc : Escape) :
    normalBits u (encoderSetup m spill esc)
      = binBits (normalCodeword u (encoderSetup m spill esc)).len (normalCodeword u (encoderSetup m spill esc)).value := by
  rcases encoderSetup_kind hm spill esc with ⟨_, hsetup⟩ | ⟨_, hsetup⟩
  · rw [hsetup]
    exact (binBits_riceCodeword u (ilog2 m)).symm
  · rw [hsetup, normalBits, normalCodeword]
    rcases Nat.lt_or_ge u (golombCutoff m) with hu | hu
    · show golombBits u m (ilog2 m) = binBits (golombCodeword u m (ilog2 m)).len (golombCodeword u m (ilog2 m)).value
      rw [golombBits_of_lt hu, golombCodeword_of_lt hu]
    · exact (golombBits_of_le hu).trans (binBits_golombCodeword hm hu).symm

@[simp] theorem length_binBits (n v : Nat) : (binBits n v).length = n := by
  simp [binBits]

theorem length_normalBits {m : Nat} (hm : 1 ≤ m) (u spill : Nat) (esc : Escape) :
    (normalBits u (encoderSetup m spill esc)).length = codeLength m u := by
  rw [normalBits_eq hm, length_binBits, normalCodeword_len hm]

/-! ### Reading bits -/

theorem bitsValue_append (xs ys : List Bool) :
    bitsValue (xs ++ ys) = bitsValue xs * 2 ^ ys.length + bitsValue ys := by
  have hfrom : ∀ (ys : List Bool) (v : Nat), ys.foldl (fun v b => 2 * v + b.toNat) v = v * 2 ^ ys.length + bitsValue ys := by
    intro ys
    induction ys with
    | nil => simp [bitsValue]
    | cons b rest ih =>
      intro v
      rw [bitsValue, List.foldl_cons, List.foldl_cons, ih, ih (2 * 0 + b.toNat), List.length_cons, Nat.pow_succ]
      ring
  rw [bitsValue, List.foldl_append, hfrom]
  rfl

theorem binBits_succ (n v : Nat) : binBits (n + 1) v = binBits n (v / 2) ++ [v.testBit 0] := by
  rw [binBits, List.range_succ, List.map_append, binBits]
  congr 1
  · refine List.map_congr_left fun k hk => ?_
    have hk : k < n := List.mem_range.mp hk
    rw [← Nat.testBit_succ]
    congr 1
    omega
  · simp

/-- The bits of a number spell its low bits. -/
theorem bitsValue_binBits (n v : Nat) : bitsValue (binBits n v) = v % 2 ^ n := by
  induction n generalizing v with
  | zero => simp [binBits, bitsValue, Nat.mod_one]
  | succ n ih =>
    have hlast : bitsValue [v.testBit 0] = v % 2 := by
      rw [Nat.testBit_zero]
      rcases Nat.mod_two_eq_zero_or_one v with h | h <;> simp [bitsValue, h]
    rw [binBits_succ, bitsValue_append, ih, hlast, List.length_singleton, pow_one, Nat.pow_succ', Nat.mod_mul]
    omega

/-- `GetBits` reads back what was written. -/
theorem getBits_binBits {n v : Nat} (hv : v < 2 ^ n) (rest : List Bool) :
    getBits n (binBits n v ++ rest) = some (v, rest) := by
  have hlen := length_binBits n v
  rw [getBits, if_pos (by rw [List.length_append]; omega), List.take_left' hlen, List.drop_left' hlen, bitsValue_binBits,
    Nat.mod_eq_of_lt hv]

theorem getUnary_replicate (q : Nat) (rest : List Bool) :
    getUnary (List.replicate q true ++ false :: rest) = some (q, rest) := by
  induction q with
  | zero => rfl
  | succ q ih => rw [List.replicate_succ, List.cons_append, getUnary, ih]; rfl

theorem decodeRice_riceBits (u l : Nat) (rest : List Bool) : decodeRice l (riceBits u l ++ rest) = some (u, rest) := by
  have hr : u % 2 ^ l < 2 ^ l := Nat.mod_lt u (Nat.two_pow_pos l)
  rw [riceBits, List.append_assoc, List.append_assoc, List.singleton_append, decodeRice, getUnary_replicate,
    Option.bind_some, getBits_binBits hr, Option.map_some, Nat.div_add_mod']

/-! ### The Golomb loop -/

/-- The bits of a codeword of group `g` with the suffix `s`, and what follows. -/
def golombWord (l g s : Nat) (rest : List Bool) : List Bool := List.replicate g true ++ (binBits (l + 2) s ++ rest)

theorem golombWord_succ (l g s : Nat) (rest : List Bool) : golombWord l (g + 1) s rest = true :: golombWord l g s rest := rfl

theorem le_length_golombWord (l g s : Nat) (rest : List Bool) : l + 2 ≤ (golombWord l g s rest).length := by
  simp only [golombWord, List.length_append, List.length_replicate, length_binBits]
  omega

theorem getBits_of_le {n : Nat} {bs : List Bool} (h : n ≤ bs.length) :
    getBits n bs = some (bitsValue (bs.take n), bs.drop n) := if_pos h

/-- The number that the first `n + 1` bits spell, from that of the first `n`. -/
theorem bitsValue_take_succ {n : Nat} {bs : List Bool} (h : n < bs.length) :
    bitsValue (bs.take (n + 1)) / 2 = bitsValue (bs.take n) := by
  have hbit : bitsValue [bs[n]] ≤ 1 := by cases bs[n] <;> decide
  rw [List.take_succ_eq_append_getElem h, bitsValue_append, List.length_singleton, pow_one]
  omega

/-- A one in front of the bits. -/
theorem bitsValue_take_cons {n : Nat} {bs : List Bool} (h : n ≤ bs.length) :
    bitsValue ((true :: bs).take (n + 1)) = 2 ^ n + bitsValue (bs.take n) := by
  rw [List.take_succ_cons, ← List.singleton_append, bitsValue_append, List.length_take, Nat.min_eq_left h]
  simp [bitsValue]

theorem suffix_lt {m s : Nat} (hm : 1 ≤ m) (hhigh : s < 2 * golombCutoff m + m) : s < 2 ^ (ilog2 m + 2) := by
  obtain ⟨-, -, hsum, -⟩ := golombCutoff_bounds hm
  have hdouble : 2 ^ (ilog2 m + 2) = 2 * 2 ^ (ilog2 m + 1) := Nat.pow_succ'
  omega

section
variable {m s : Nat} (hm : 1 ≤ m) (hlow : 2 * golombCutoff m ≤ s) (hhigh : s < 2 * golombCutoff m + m)
include hm hlow hhigh

/-- The first `l + 1` bits of a word of any group are not those of group 0. -/
theorem golombCutoff_le_first (g : Nat) (rest : List Bool) :
    golombCutoff m ≤ bitsValue ((golombWord (ilog2 m) g s rest).take (ilog2 m + 1)) := by
  induction g with
  | zero =>
    have hlen : (binBits (ilog2 m + 2) s).length = ilog2 m + 2 := length_binBits _ _
    have hhalf := bitsValue_take_succ (n := ilog2 m + 1) (bs := golombWord (ilog2 m) 0 s rest)
      (by have := le_length_golombWord (ilog2 m) 0 s rest; omega)
    rw [show (golombWord (ilog2 m) 0 s rest).take (ilog2 m + 1 + 1) = binBits (ilog2 m + 2) s from List.take_left' hlen,
      bitsValue_binBits, Nat.mod_eq_of_lt (suffix_lt hm hhigh)] at hhalf
    omega
  | succ g ih =>
    obtain ⟨-, hle, hsum, -⟩ := golombCutoff_bounds hm
    have hlen := le_length_golombWord (ilog2 m) g s rest
    have hhalf := bitsValue_take_succ (n := ilog2 m) (bs := golombWord (ilog2 m) g s rest) (by omega)
    have hdouble : 2 ^ (ilog2 m + 1) = 2 * 2 ^ ilog2 m := Nat.pow_succ'
    rw [golombWord_succ, bitsValue_take_cons (by omega)]
    omega

theorem golombSuffix_zero (g : Nat) (rest : List Bool) :
    golombSuffix m (ilog2 m) g (golombWord (ilog2 m) 0 s rest)
      = some (golombCutoff m + g * m + (s - 2 * golombCutoff m), rest) := by
  show (getBits (ilog2 m + 2) (binBits (ilog2 m + 2) s ++ rest)).bind _ = _
  rw [getBits_binBits (suffix_lt hm hhigh), Option.bind_some]
  exact if_pos ⟨hlow, show s ≤ 2 * golombCutoff m + m - 1 by omega⟩

/-- With a one in front the bits are no suffix. -/
theorem golombSuffix_succ (g k : Nat) (rest : List Bool) :
    golombSuffix m (ilog2 m) g (golombWord (ilog2 m) (k + 1) s rest) = none := by
  obtain ⟨-, -, hsum, -⟩ := golombCutoff_bounds hm
  have hlen := le_length_golombWord (ilog2 m) k s rest
  have hfirst := golombCutoff_le_first hm hlow hhigh k rest
  rw [golombSuffix, golombWord_succ, getBits_of_le (by rw [List.length_cons]; omega), Option.bind_some,
    bitsValue_take_cons (n := ilog2 m + 1) (by omega)]
  refine if_neg fun h => ?_
  have hle : 2 ^ (ilog2 m + 1) + bitsValue ((golombWord (ilog2 m) k s rest).take (ilog2 m + 1))
      ≤ 2 * golombCutoff m + m - 1 := h.2
  omega

/-- The loop skips the ones and reads the suffix. -/
theorem decodeGolombLoop_golombWord (g k : Nat) (rest : List Bool) :
    decodeGolombLoop m (ilog2 m) g (golombWord (ilog2 m) k s rest)
      = some (golombCutoff m + (g + k) * m + (s - 2 * golombCutoff m), rest) := by
  induction k generalizing g with
  | zero =>
    have hlen := le_length_golombWord (ilog2 m) 0 s rest
    have hsuffix := golombSuffix_zero hm hlow hhigh g rest
    rw [Nat.add_zero]
    cases hw : golombWord (ilog2 m) 0 s rest with
    | nil => rw [hw, List.length_nil] at hlen; omega
    | cons b bs =>
      rw [hw] at hsuffix
      simp only [decodeGolombLoop, hsuffix]
  | succ k ih =>
    have hsuffix := golombSuffix_succ hm hlow hhigh g k rest
    rw [golombWord_succ] at hsuffix ⊢
    simp only [decodeGolombLoop, hsuffix]
    rw [ih, show g + 1 + k = g + (k + 1) by omega]

end

theorem decodeGolomb_golombBits {m : Nat} (hm : 1 ≤ m) (u : Nat) (rest : List Bool) :
    decodeGolomb m (ilog2 m) (golombBits u m (ilog2 m) ++ rest) = some (u, rest) := by
  obtain ⟨-, hle, hsum, -⟩ := golombCutoff_bounds hm
  rcases Nat.lt_or_ge u (golombCutoff m) with hu | hu
  · rw [golombBits_of_lt hu, decodeGolomb, getBits_binBits (by omega)]
    exact if_pos hu
  · have hmod := Nat.mod_lt (u - golombCutoff m) hm
    have hlow : 2 * golombCutoff m ≤ 2 * golombCutoff m + (u - golombCutoff m) % m := Nat.le_add_right _ _
    have hhigh : 2 * golombCutoff m + (u - golombCutoff m) % m < 2 * golombCutoff m + m := by omega
    have hword : golombBits u m (ilog2 m) ++ rest = golombWord (ilog2 m) ((u - golombCutoff m) / m)
        (2 * golombCutoff m + (u - golombCutoff m) % m) rest := by
      rw [golombBits_of_le hu, List.append_assoc, golombWord]
    have hlen := le_length_golombWord (ilog2 m) ((u - golombCutoff m) / m)
      (2 * golombCutoff m + (u - golombCutoff m) % m) rest
    have hfirst := golombCutoff_le_first hm hlow hhigh ((u - golombCutoff m) / m) rest
    have hsplit := Nat.div_add_mod' (u - golombCutoff m) m
    rw [hword, decodeGolomb, getBits_of_le (by omega)]
    refine (if_neg (Nat.not_lt_of_le hfirst)).trans ?_
    rw [decodeGolombLoop_golombWord hm hlow hhigh, Nat.zero_add, Nat.add_sub_cancel_left]
    congr 2
    omega

/-- The decoder reads back a normal codeword and stops right after it (46_decoder_reference.md R282). -/
theorem decodeNormal_normalBits {m : Nat} (hm : 1 ≤ m) (u spill : Nat) (esc : Escape) (rest : List Bool) :
    decodeNormal (encoderSetup m spill esc) (normalBits u (encoderSetup m spill esc) ++ rest) = some (u, rest) := by
  rcases encoderSetup_kind hm spill esc with ⟨-, hsetup⟩ | ⟨-, hsetup⟩
  · rw [hsetup]
    exact decodeRice_riceBits u (ilog2 m) rest
  · rw [hsetup]
    exact decodeGolomb_golombBits hm u rest

/-- Settles O39: a codeword that begins another one is decoded from it, so their values agree. -/
theorem normalCodePrefixFree : Obligations.NormalCodePrefixFree := by
  intro m spill u v esc hm
  refine ⟨normalBits_eq hm u spill esc, fun huv => ?_, fun hne hbegins => hne ?_⟩
  · rw [normalCodeword_len hm, normalCodeword_len hm]
    exact codeLength_mono huv
  · obtain ⟨rest, hrest⟩ := hbegins
    have hu := decodeNormal_normalBits hm u spill esc rest
    have hv := decodeNormal_normalBits hm v spill esc []
    rw [hrest] at hu
    rw [List.append_nil, hu] at hv
    exact congrArg Prod.fst (Option.some.inj hv)

/-! ### Reading back an emission -/

/-- The raw bits of a multi-escape outlier hold the distance to the spill. -/
theorem lt_two_pow_offset {d : Nat} (hd : d < 2 ^ 32) : d < 2 ^ ((calMultiOffset d + 1) * 2) := by
  obtain ⟨hrow, -⟩ := calMultiOffset_spec hd
  have hpos := Nat.pow_pos (n := calMultiOffset d + 1) (show 0 < 4 by decide)
  rw [Nat.mul_comm, Nat.pow_mul]
  show d < 4 ^ (calMultiOffset d + 1)
  omega

/-- Settles O45: the head symbol tells the decoder whether raw bits follow, and how many. -/
theorem decodeInvertsEmission : Obligations.DecodeInvertsEmission := by
  intro m spill u w esc rest hm hw hu
  have hu32 : u < 2 ^ 32 := hu.trans_le (Nat.pow_le_pow_right two_pos hw)
  rw [decodeValue, emissionBits, List.append_assoc, decodeNormal_normalBits hm, Option.bind_some]
  cases esc with
  | zero =>
    show (if headSymbol u (encoderSetup m spill .zero) = 0 then _ else _) = _
    by_cases hout : spill ≤ u ∨ u = 0
    · rw [headSymbol_zero, rawBits_zero, if_pos hout, if_pos rfl, if_pos hout, getBits_binBits hu]
    · rw [headSymbol_zero, rawBits_zero, if_neg hout, if_neg (fun h => hout (.inr h)), if_neg hout, List.nil_append]
  | multi =>
    show (if headSymbol u (encoderSetup m spill .multi) < spill then _ else _) = _
    by_cases hout : spill ≤ u
    · rw [headSymbol_multi, rawBits_multi, if_pos hout, if_neg (by omega), if_pos hout, encoderSetup_spill,
        Nat.add_sub_cancel_left, getBits_binBits (lt_two_pow_offset (by omega)), Option.map_some, Nat.add_sub_cancel' hout]
    · rw [headSymbol_multi, rawBits_multi, if_neg hout, if_pos (by omega), if_neg hout, List.nil_append]

end Sys2Proof.Proofs.Codes
end

section
/-! The emission of field values (43_entropy_encoder.md R174 to R180) and the loop over all of them (R188 to R190): which bits go
to the stream, and what stops the phase. -/

namespace Sys2Proof.Proofs.Emission

open Sys2Proof.Machine Sys2Proof.Proofs.Fields Sys2Proof.Proofs.Bitpacker Sys2Proof.Proofs.Codes
  Sys2Proof.Proofs.Preprocessor

/-! ### `Put`, by the stream -/

/-- The bytes of the output buffer of a compressing job (44_bitpacker.md R211). -/
def outputBytes (j : JobRecord) : Extent := { base := j.output.base.toNat, len := capacity j / 8 }

/-- The output buffer does not run over the top of MEM, and the cursor is within the capacity. -/
structure CursorFits (s : State) : Prop where
  cursor : s.enc.streamLen ≤ capacity s.j
  noWrap : s.j.output.base.toNat + capacity s.j / 8 ≤ 2 ^ 32

/-- The state after `n` bits have been written. -/
def advance (s : State) (m : Memory) (n : Nat) : State :=
  { s with mem := m, enc := { s.enc with streamLen := s.enc.streamLen + n } }

/-- MEM `m` is that of `s` with `bits` appended to the stream at the cursor. -/
structure Appended (s : State) (bits : List Bool) (m : Memory) : Prop where
  stream : ∀ p, p < capacity s.j → streamBit m s.j.output p
    = if s.enc.streamLen ≤ p ∧ p < s.enc.streamLen + bits.length then bits.getD (p - s.enc.streamLen) false
      else streamBit s.mem s.j.output p
  kept : KeptOutside [outputBytes s.j] s.mem m

theorem appended_nil (s : State) : Appended s [] s.mem where
  stream := fun p _ => by
    rw [List.length_nil, if_neg (by omega)]
  kept := keptOutside_refl _ _

/-- Appending twice appends both. -/
theorem Appended.append {s : State} {xs ys : List Bool} {m m' : Memory} (hx : Appended s xs m)
    (hy : Appended (advance s m xs.length) ys m') : Appended s (xs ++ ys) m' where
  stream := fun p hp => by
    have hfirst := hx.stream p hp
    have hsecond : streamBit m' s.j.output p
        = if s.enc.streamLen + xs.length ≤ p ∧ p < s.enc.streamLen + xs.length + ys.length then
            ys.getD (p - (s.enc.streamLen + xs.length)) false
          else streamBit m s.j.output p := hy.stream p hp
    rw [hsecond, hfirst, List.length_append]
    by_cases hlow : p < s.enc.streamLen + xs.length
    · rw [if_neg (by omega)]
      refine if_ctx_congr (by omega) (fun hin => ?_) fun _ => rfl
      rw [List.getD_append _ _ _ _ (by omega)]
    · rw [if_neg (show ¬ (s.enc.streamLen ≤ p ∧ p < s.enc.streamLen + xs.length) by omega)]
      refine if_ctx_congr (by omega) (fun hin => ?_) fun _ => rfl
      rw [List.getD_append_right _ _ _ _ (by omega)]
      congr 1
      omega
  kept := keptOutside_trans hx.kept hy.kept

theorem binBits_getD {n k : Nat} (v : Nat) (hk : k < n) : (binBits n v).getD k false = v.testBit (n - 1 - k) := by
  rw [binBits, List.getD_eq_getElem _ _ (by simpa using hk)]
  simp

/-- A `Put` that fits appends its bits (44_bitpacker.md R220); no bits are no bits. -/
theorem put_fits {s : State} (hs : CursorFits s) (v : Nat) {n : Nat} (hn : n ≤ 32)
    (hfit : s.enc.streamLen + n ≤ capacity s.j) :
    ∃ m, put v n s = .go (advance s m n) ∧ Appended s (binBits n v) m := by
  rcases Nat.eq_zero_or_pos n with rfl | hpos
  · exact ⟨s.mem, put_noOp v s (.inl rfl), appended_nil s⟩
  · have hbuf : BufferFits s.j.output (capacity s.j) := ⟨capacity_mod s.j, hs.noWrap⟩
    refine ⟨_, ?_, fun p hp => ?_, putNBits32_keptOutside hbuf (BitVec.ofNat 32 v) s.mem hpos hn hfit⟩
    · rw [put_eq, if_neg (by omega), if_neg (by omega)]
      rfl
    · rw [streamBit_putNBits32 hbuf _ s.mem hpos hn hfit hp, length_binBits]
      refine if_ctx_congr Iff.rfl (fun hin => ?_) fun _ => rfl
      rw [binBits_getD v (by omega), BitVec.getLsbD_ofNat, decide_eq_true (by omega), Bool.true_and]
      congr 1
      omega

theorem put_overflows {s : State} (v : Nat) {n : Nat} (hpos : 1 ≤ n) (hn : n ≤ 32)
    (hfull : capacity s.j < s.enc.streamLen + n) : put v n s = .stop .smallBuffer s := by
  rw [put_eq, if_neg (by omega), if_pos hfull]

/-! ### One value, as two `Put`s -/

/-- The number of raw bits that end the emission of `u` (43_entropy_encoder.md R177 to R179). -/
def rawWidth (u w : Nat) (e : EncSetup) : Nat :=
  if outlier u e then
    match e.esc with
    | .zero => w
    | .multi => (calMultiOffset (u - e.spill) + 1) * 2
  else 0

/-- The number that the raw bits spell. -/
def rawValue (u : Nat) (e : EncSetup) : Nat :=
  match e.esc with
  | .zero => u
  | .multi => u - e.spill

theorem rawBits_eq (u w : Nat) (e : EncSetup) : rawBits u w e = binBits (rawWidth u w e) (rawValue u e) := by
  unfold rawBits rawWidth rawValue
  split_ifs
  · cases e.esc <;> rfl
  · rfl

theorem rawWidth_le {u w : Nat} (hw : w ≤ 32) (e : EncSetup) : rawWidth u w e ≤ 32 := by
  have hoffset := calMultiOffset_le (u - e.spill)
  unfold rawWidth
  split_ifs
  · cases e.esc
    · exact hw
    · show (calMultiOffset (u - e.spill) + 1) * 2 ≤ 32
      omega
  · omega

/-- Every path of `EncodeValue` is the codeword of the head symbol and then the raw bits, none on the normal path. -/
theorem encodeValue_eq (u w : Nat) (e : EncSetup) (s : State) :
    encodeValue u w e s = (emitNormal (headSymbol u e) e s).andThen (put (rawValue u e) (rawWidth u w e)) := by
  unfold encodeValue headSymbol rawWidth
  split_ifs
  · cases hesc : e.esc with
    | zero => simp only [emitZeroEscape, rawValue, hesc]
    | multi => simp only [emitMultiEscape, rawValue, hesc]
  · cases hr : emitNormal u e s with
    | go t => rw [Run.andThen_go, put_noOp _ t (.inl rfl)]
    | stop err t => rfl

section
variable {e : EncSetup} (he : e.coherent)
include he

theorem coherent_length_normalBits (u : Nat) : (normalBits u e).length = (normalCodeword u e).len := by
  obtain ⟨hm, hsetup⟩ := he
  rw [hsetup, length_normalBits hm, normalCodeword_len hm]

theorem coherent_normalBits (u : Nat) : binBits (normalCodeword u e).len (normalCodeword u e).value = normalBits u e := by
  obtain ⟨hm, hsetup⟩ := he
  rw [hsetup, normalBits_eq hm]

theorem coherent_len_pos (u : Nat) : 1 ≤ (normalCodeword u e).len := by
  obtain ⟨hm, hsetup⟩ := he
  rw [hsetup, normalCodeword_len hm]
  exact codeLength_pos _ _

/-- The length of an emission: the head codeword and the raw bits. -/
theorem length_emissionBits (u w : Nat) :
    (emissionBits u w e).length = (normalCodeword (headSymbol u e) e).len + rawWidth u w e := by
  rw [emissionBits, List.length_append, rawBits_eq, length_binBits, coherent_length_normalBits he]

theorem emitNormal_fits {s : State} (hs : CursorFits s) {u : Nat} (hlen : (normalCodeword u e).len ≤ 32)
    (hfit : s.enc.streamLen + (normalCodeword u e).len ≤ capacity s.j) :
    ∃ m, emitNormal u e s = .go (advance s m (normalCodeword u e).len) ∧ Appended s (normalBits u e) m := by
  rw [emitNormal, if_neg (Nat.not_lt_of_le hlen), ← coherent_normalBits he]
  exact put_fits hs _ hlen hfit

/-- An emission that fits is appended bit for bit. -/
theorem encodeValue_fits {s : State} (hs : CursorFits s) {u w : Nat} (hw : w ≤ 32) (hhead : headFits u e)
    (hfit : s.enc.streamLen + (emissionBits u w e).length ≤ capacity s.j) :
    ∃ m, encodeValue u w e s = .go (advance s m (emissionBits u w e).length) ∧ Appended s (emissionBits u w e) m := by
  have hlen := length_emissionBits he u w
  obtain ⟨m, hgo, happ⟩ := emitNormal_fits he hs hhead (by omega)
  have hcursor : (advance s m (normalCodeword (headSymbol u e) e).len).enc.streamLen
      = s.enc.streamLen + (normalCodeword (headSymbol u e) e).len := rfl
  have hnext : CursorFits (advance s m (normalCodeword (headSymbol u e) e).len) :=
    ⟨by rw [hcursor]; show _ ≤ capacity s.j; omega, hs.noWrap⟩
  obtain ⟨m', hgo', happ'⟩ := put_fits hnext (rawValue u e) (rawWidth_le (u := u) hw e)
    (by rw [hcursor]; show _ ≤ capacity s.j; omega)
  refine ⟨m', ?_, ?_⟩
  · rw [encodeValue_eq, hgo, Run.andThen_go, hgo', hlen, advance, advance, advance, Nat.add_assoc]
  · rw [emissionBits, rawBits_eq]
    refine happ.append ?_
    rw [coherent_length_normalBits he]
    exact happ'

omit he in
/-- A codeword that is too long stops the phase before anything is written. -/
theorem encodeValue_internal (s : State) {u : Nat} (w : Nat) (hhead : ¬ headFits u e) :
    encodeValue u w e s = .stop .internal s := by
  rw [encodeValue_eq, emitNormal, if_pos (Nat.lt_of_not_le hhead)]
  rfl

/-- An emission that does not fit stops the phase, after its head codeword or before it. -/
theorem encodeValue_overflows {s : State} (hs : CursorFits s) {u w : Nat} (hw : w ≤ 32) (hhead : headFits u e)
    (hfull : capacity s.j < s.enc.streamLen + (emissionBits u w e).length) :
    ∃ m n, encodeValue u w e s = .stop .smallBuffer { s with mem := m, enc := { s.enc with streamLen := n } }
      ∧ s.enc.streamLen ≤ n ∧ n ≤ capacity s.j ∧ KeptOutside [outputBytes s.j] s.mem m := by
  have hlen := length_emissionBits he u w
  by_cases hfit : s.enc.streamLen + (normalCodeword (headSymbol u e) e).len ≤ capacity s.j
  · obtain ⟨m, hgo, happ⟩ := emitNormal_fits he hs hhead hfit
    refine ⟨m, s.enc.streamLen + (normalCodeword (headSymbol u e) e).len, ?_, by omega, hfit, happ.kept⟩
    rw [encodeValue_eq, hgo, Run.andThen_go]
    refine put_overflows _ (by omega) (rawWidth_le hw e) ?_
    show capacity s.j < s.enc.streamLen + (normalCodeword (headSymbol u e) e).len + rawWidth u w e
    omega
  · refine ⟨s.mem, s.enc.streamLen, ?_, le_refl _, hs.cursor, keptOutside_refl _ _⟩
    rw [encodeValue_eq, emitNormal, if_neg (Nat.not_lt_of_le hhead),
      put_overflows _ (coherent_len_pos he _) hhead (Nat.lt_of_not_le hfit)]
    rfl

end

/-- Settles O44: by the head codeword and the raw bits of the emission. -/
theorem encodeValueAppendsEmission : Obligations.EncodeValueAppendsEmission := by
  intro s e u w he hw hcursor hwrap bits
  have hs : CursorFits s := ⟨hcursor, hwrap⟩
  have hw32 : w ≤ 32 := by
    simp only [List.mem_cons, List.not_mem_nil, or_false] at hw
    omega
  refine ⟨fun hhead hfit => ?_, encodeValue_internal s w, fun hhead hfull => encodeValue_overflows he hs hw32 hhead hfull⟩
  obtain ⟨m, hgo, happ⟩ := encodeValue_fits he hs hw32 hhead hfit
  exact ⟨m, hgo, happ.stream, happ.kept⟩

/-! ### The encode loop as one list -/

/-- Where a field stands: its sample, the field and its position in the field list. -/
abbrev Place := Nat × Field × Nat

/-- The fields of the first `n` samples in emission order (43_entropy_encoder.md R188). -/
def placesOf (sh : Shape) (n : Nat) : List Place := (List.range n).flatMap fun i => (shapeFields sh).zipIdx.map (Prod.mk i)

/-- Two nested loops are one loop over the pairs. -/
theorem runEach_flatMap {α β : Type} (body : α → β → State → Run) (inner : List β) (xs : List α) (s : State) :
    runEach (fun x => runEach (body x) inner) xs s
      = runEach (fun p => body p.1 p.2) (xs.flatMap fun x => inner.map (Prod.mk x)) s := by
  have hinner : ∀ x (ys : List β) s, runEach (body x) ys s
      = runEach (fun p : α × β => body p.1 p.2) (ys.map (Prod.mk x)) s := by
    intro x ys
    induction ys with
    | nil => exact fun _ => rfl
    | cons y rest ih =>
      intro s
      rw [List.map_cons, runEach_cons, runEach_cons]
      exact congrArg _ (funext ih)
  induction xs generalizing s with
  | nil => rfl
  | cons x rest ih =>
    rw [List.flatMap_cons, runEach_append, runEach_cons, hinner]
    exact congrArg _ (funext ih)

/-- The emission of one place. -/
def encodePlace (sh : Shape) (x : Place) : State → Run := encodeField sh x.1 x.2.2 x.2.1

theorem encodeAll_eq (sh : Shape) (s : State) :
    encodeAll sh s = runEach (encodePlace sh) (placesOf sh s.j.samples.toNat) s :=
  runEach_flatMap (fun i (p : Field × Nat) => encodeField sh i p.2 p.1) _ _ s

theorem mem_placesOf {sh : Shape} {n : Nat} {x : Place} (hx : x ∈ placesOf sh n) : x.1 < n ∧ x.2.1 ∈ shapeFields sh := by
  obtain ⟨i, hi, hx⟩ := List.mem_flatMap.mp hx
  obtain ⟨p, hp, rfl⟩ := List.mem_map.mp hx
  exact ⟨List.mem_range.mp hi, List.fst_mem_of_mem_zipIdx hp⟩

/-- The places without their positions, in the order of R188. -/
theorem map_placesOf (sh : Shape) (n : Nat) :
    (placesOf sh n).map (fun x => (x.1, x.2.1))
      = (List.range n).flatMap (fun i => (shapeFields sh).map (fun f => (i, f))) := by
  rw [placesOf, List.map_flatMap]
  refine congrArg (fun g => (List.range n).flatMap g) (funext fun i => ?_)
  rw [List.map_map, ← List.zipIdx_map_fst 0 (shapeFields sh), List.map_map, List.zipIdx_map_fst]
  rfl

/-! ### The ENCODE phase from its start -/

/-- A state in which the ENCODE phase can start: the cursor at zero, setups that `Setup` makes, and an input that the
stream does not run into. -/
structure EncodeStart (sh : Shape) (s₀ : State) : Prop where
  cursor : s₀.enc.streamLen = 0
  primary : s₀.enc.pri.coherent
  secondary : s₀.enc.sec.coherent
  outputNoWrap : s₀.j.output.base.toNat + capacity s₀.j / 8 ≤ 2 ^ 32
  inputNoWrap : s₀.j.input.base.toNat + s₀.j.samples.toNat * sampleBytes sh ≤ 2 ^ 32
  apart : (samplesExtent s₀.j.input sh s₀.j.samples.toNat).disjoint (outputBytes s₀.j) = true

/-- The setup that serves a field. -/
def setupFor (s₀ : State) (f : Field) : EncSetup := if f.secondary then s₀.enc.sec else s₀.enc.pri

/-- The value that a place holds when the phase starts. -/
def valueAt (sh : Shape) (s₀ : State) (x : Place) : Nat := (fieldRead s₀.mem s₀.j.input sh x.1 x.2.1).toNat

/-- The codeword that begins the emission of a place is within the budget. -/
def placeFits (sh : Shape) (s₀ : State) (x : Place) : Prop := headFits (valueAt sh s₀ x) (setupFor s₀ x.2.1)

/-- The emission of a place. -/
def placeBits (sh : Shape) (s₀ : State) (x : Place) : List Bool :=
  emissionBits (valueAt sh s₀ x) x.2.1.width.bits (setupFor s₀ x.2.1)

/-- The phase that started in `s₀` has put `bits` to the stream in `s`. -/
structure Encoded (s₀ : State) (bits : List Bool) (s : State) : Prop where
  frame : EncodeFrame s₀ s
  cursor : s.enc.streamLen = bits.length
  stream : ∀ p, p < capacity s₀.j →
    streamBit s.mem s₀.j.output p = if p < bits.length then bits.getD p false else streamBit s₀.mem s₀.j.output p
  kept : KeptOutside [outputBytes s₀.j] s₀.mem s.mem

theorem width_bits_le (w : Width) : w.bits ≤ 32 := by
  cases w <;> decide

section
variable {sh : Shape} {s₀ : State} (h₀ : EncodeStart sh s₀)
include h₀

theorem EncodeStart.coherent (f : Field) : (setupFor s₀ f).coherent := by
  unfold setupFor
  split_ifs
  · exact h₀.secondary
  · exact h₀.primary

theorem EncodeStart.encoded : Encoded s₀ [] s₀ where
  frame := EncodeFrame.refl (by rw [h₀.cursor]; exact Nat.zero_le _)
  cursor := h₀.cursor
  stream := fun p _ => (if_neg (Nat.not_lt_zero p)).symm
  kept := keptOutside_refl _ _

variable {s : State} {bits : List Bool} (hs : Encoded s₀ bits s)
include hs

omit hs in
/-- Writing the output does not change the input. -/
theorem EncodeStart.fieldRead_eq {m : Memory} (hkept : KeptOutside [outputBytes s₀.j] s₀.mem m) {i : Nat}
    (hi : i < s₀.j.samples.toNat) {f : Field} (hf : f ∈ shapeFields sh) :
    fieldRead m s₀.j.input sh i f = fieldRead s₀.mem s₀.j.input sh i f :=
  fieldRead_of_samples_apart hkept h₀.inputNoWrap hi hf h₀.apart

/-- The emission of a place takes the value that the phase found there. -/
theorem encodePlace_eq {x : Place} (hi : x.1 < s₀.j.samples.toNat) (hf : x.2.1 ∈ shapeFields sh) :
    encodePlace sh x s
      = encodeValue (valueAt sh s₀ x) x.2.1.width.bits (setupFor s₀ x.2.1) (setCursor x.1 x.2.2 s) := by
  rw [encodePlace, encodeField, hs.frame.j, hs.frame.primary, hs.frame.secondary, h₀.fieldRead_eq hs.kept hi hf]
  rfl

theorem cursorFits_setCursor (x : Place) : CursorFits (setCursor x.1 x.2.2 s) where
  cursor := hs.frame.cursor
  noWrap := by
    show s.j.output.base.toNat + capacity s.j / 8 ≤ 2 ^ 32
    rw [hs.frame.j]
    exact h₀.outputNoWrap

/-- A place whose emission fits. -/
theorem encodePlace_fits {x : Place} (hi : x.1 < s₀.j.samples.toNat) (hf : x.2.1 ∈ shapeFields sh)
    (hhead : placeFits sh s₀ x) (hfit : (bits ++ placeBits sh s₀ x).length ≤ capacity s₀.j) :
    ∃ t, encodePlace sh x s = .go t ∧ Encoded s₀ (bits ++ placeBits sh s₀ x) t := by
  have hj : (setCursor x.1 x.2.2 s).j = s₀.j := hs.frame.j
  have hlen : (setCursor x.1 x.2.2 s).enc.streamLen = bits.length := hs.cursor
  obtain ⟨m, hgo, happ⟩ := encodeValue_fits (h₀.coherent x.2.1) (cursorFits_setCursor h₀ hs x) (width_bits_le _) hhead
    (by rw [hlen, hj, ← List.length_append]; exact hfit)
  have hframe := encodeValue_frame (s₀ := s₀) (s := setCursor x.1 x.2.2 s) (valueAt sh s₀ x) x.2.1.width.bits
    (setupFor s₀ x.2.1) { hs.frame with }
  rw [hgo] at hframe
  refine ⟨_, (encodePlace_eq h₀ hs hi hf).trans hgo, hframe, ?_, fun p hp => ?_, ?_⟩
  · rw [List.length_append, ← hlen]
    rfl
  · have hstream := happ.stream p (by rw [hj]; exact hp)
    rw [hj, hlen] at hstream
    show streamBit m s₀.j.output p = _
    rw [hstream, List.length_append]
    by_cases hlow : p < bits.length
    · rw [if_neg (by omega), if_pos (by omega), List.getD_append _ _ _ _ hlow]
      exact (hs.stream p hp).trans (if_pos hlow)
    · refine if_ctx_congr (by unfold placeBits; omega) (fun hin => ?_) fun _ => (hs.stream p hp).trans (if_neg hlow)
      rw [List.getD_append_right _ _ _ _ (by omega)]
      rfl
  · have hkept := happ.kept
    rw [hj] at hkept
    exact keptOutside_trans hs.kept hkept

/-- A place whose codeword is too long. -/
theorem encodePlace_internal {x : Place} (hi : x.1 < s₀.j.samples.toNat) (hf : x.2.1 ∈ shapeFields sh)
    (hhead : ¬ placeFits sh s₀ x) :
    ∃ t, encodePlace sh x s = .stop .internal t ∧ KeptOutside [outputBytes s₀.j] s₀.mem t.mem :=
  ⟨_, (encodePlace_eq h₀ hs hi hf).trans (encodeValue_internal _ _ hhead), hs.kept⟩

/-- A place whose emission exceeds the capacity. -/
theorem encodePlace_overflows {x : Place} (hi : x.1 < s₀.j.samples.toNat) (hf : x.2.1 ∈ shapeFields sh)
    (hhead : placeFits sh s₀ x) (hfull : capacity s₀.j < (bits ++ placeBits sh s₀ x).length) :
    ∃ t, encodePlace sh x s = .stop .smallBuffer t ∧ KeptOutside [outputBytes s₀.j] s₀.mem t.mem := by
  have hj : (setCursor x.1 x.2.2 s).j = s₀.j := hs.frame.j
  have hlen : (setCursor x.1 x.2.2 s).enc.streamLen = bits.length := hs.cursor
  obtain ⟨m, n, hstop, -, -, hkept⟩ := encodeValue_overflows (h₀.coherent x.2.1) (cursorFits_setCursor h₀ hs x)
    (width_bits_le x.2.1.width) hhead (by rw [hlen, hj, ← List.length_append]; exact hfull)
  rw [hj] at hkept
  exact ⟨_, (encodePlace_eq h₀ hs hi hf).trans hstop, keptOutside_trans hs.kept hkept⟩

/-- Places whose emissions all fit. -/
theorem encodePlaces_fit {xs : List Place} (hplaces : ∀ x ∈ xs, x.1 < s₀.j.samples.toNat ∧ x.2.1 ∈ shapeFields sh)
    (hheads : ∀ x ∈ xs, placeFits sh s₀ x) (hfit : (bits ++ xs.flatMap (placeBits sh s₀)).length ≤ capacity s₀.j) :
    ∃ t, runEach (encodePlace sh) xs s = .go t ∧ Encoded s₀ (bits ++ xs.flatMap (placeBits sh s₀)) t := by
  induction xs generalizing s bits with
  | nil => exact ⟨s, rfl, by rwa [List.flatMap_nil, List.append_nil]⟩
  | cons x rest ih =>
    obtain ⟨⟨hi, hf⟩, hrest⟩ := List.forall_mem_cons.mp hplaces
    obtain ⟨hhead, hheads⟩ := List.forall_mem_cons.mp hheads
    rw [List.flatMap_cons, ← List.append_assoc] at hfit ⊢
    obtain ⟨t, hgo, ht⟩ := encodePlace_fits h₀ hs hi hf hhead
      ((Nat.le_add_right _ _).trans (List.length_append ▸ hfit))
    obtain ⟨t', hgo', ht'⟩ := ih ht hrest hheads hfit
    exact ⟨t', by rw [runEach_cons, hgo, Run.andThen_go, hgo'], ht'⟩

end

/-! ### Where the phase ends -/

/-- The emissions of a list of places can all be made. -/
structure AllFit (sh : Shape) (s₀ : State) (xs : List Place) : Prop where
  heads : ∀ x ∈ xs, placeFits sh s₀ x
  bits : (xs.flatMap (placeBits sh s₀)).length ≤ capacity s₀.j

/-- Either all emissions can be made, or there is a first that cannot. -/
theorem allFit_or_first_failure (sh : Shape) (s₀ : State) (xs : List Place) :
    AllFit sh s₀ xs ∨ ∃ before x after,
      xs = before ++ x :: after ∧ AllFit sh s₀ before ∧ ¬ AllFit sh s₀ (before ++ [x]) := by
  induction xs using List.reverseRecOn with
  | nil => exact .inl ⟨fun x hx => absurd hx List.not_mem_nil, Nat.zero_le _⟩
  | append_singleton xs x ih =>
    rcases ih with hfit | ⟨before, y, after, rfl, hbefore, hfails⟩
    · by_cases hall : AllFit sh s₀ (xs ++ [x])
      · exact .inl hall
      · exact .inr ⟨xs, x, [], rfl, hfit, hall⟩
    · exact .inr ⟨before, y, after ++ [x], by simp, hbefore, hfails⟩

/-- The error that a place raises after emissions that can be made (60_exceptions.md R307). -/
def failure (sh : Shape) (s₀ : State) (x : Place) (err : JobError) : Prop :=
  (¬ placeFits sh s₀ x ∧ err = .internal) ∨ (placeFits sh s₀ x ∧ err = .smallBuffer)

theorem not_allFit_snoc {sh : Shape} {s₀ : State} {before : List Place} {x : Place} (hbefore : AllFit sh s₀ before)
    (hfails : ¬ AllFit sh s₀ (before ++ [x])) :
    ¬ placeFits sh s₀ x
      ∨ placeFits sh s₀ x ∧ capacity s₀.j < ((before ++ [x]).flatMap (placeBits sh s₀)).length := by
  by_cases hhead : placeFits sh s₀ x
  · refine .inr ⟨hhead, Nat.lt_of_not_le fun hbits => hfails ⟨fun y hy => ?_, hbits⟩⟩
    rcases List.mem_append.mp hy with hy | hy
    · exact hbefore.heads y hy
    · exact List.mem_singleton.mp hy ▸ hhead
  · exact .inl hhead

section
variable {sh : Shape} {s₀ : State} (h₀ : EncodeStart sh s₀)
include h₀

/-- The whole phase, when every emission can be made. -/
theorem encodeAll_fits (hfit : AllFit sh s₀ (placesOf sh s₀.j.samples.toNat)) :
    ∃ t, encodeAll sh s₀ = .go t
      ∧ Encoded s₀ ((placesOf sh s₀.j.samples.toNat).flatMap (placeBits sh s₀)) t := by
  rw [encodeAll_eq]
  exact encodePlaces_fit h₀ h₀.encoded (fun _ hx => mem_placesOf hx) hfit.heads hfit.bits

/-- The first emission that cannot be made ends the phase with its error (43_entropy_encoder.md R190). -/
theorem encodeAll_fails {before after : List Place} {x : Place} {err : JobError}
    (horder : placesOf sh s₀.j.samples.toNat = before ++ x :: after) (hbefore : AllFit sh s₀ before)
    (hfails : ¬ AllFit sh s₀ (before ++ [x])) (herr : failure sh s₀ x err) :
    ∃ t, encodeAll sh s₀ = .stop err t ∧ KeptOutside [outputBytes s₀.j] s₀.mem t.mem := by
  have hplaces : ∀ y ∈ before ++ x :: after, y.1 < s₀.j.samples.toNat ∧ y.2.1 ∈ shapeFields sh :=
    fun y hy => mem_placesOf (horder ▸ hy)
  obtain ⟨hi, hf⟩ := hplaces x (by simp)
  obtain ⟨t, hgo, ht⟩ := encodePlaces_fit h₀ h₀.encoded (fun y hy => hplaces y (List.mem_append_left _ hy))
    hbefore.heads hbefore.bits
  have hrun : ∀ u, encodePlace sh x t = .stop err u → encodeAll sh s₀ = .stop err u := by
    intro u hu
    rw [encodeAll_eq, horder, runEach_append, hgo, Run.andThen_go, runEach_cons, hu, Run.andThen_stop]
  rcases herr with ⟨hhead, rfl⟩ | ⟨hhead, rfl⟩
  · obtain ⟨u, hu, hkept⟩ := encodePlace_internal h₀ ht hi hf hhead
    exact ⟨u, hrun u hu, hkept⟩
  · have hfull := (not_allFit_snoc hbefore hfails).resolve_left (not_not_intro hhead)
    obtain ⟨u, hu, hkept⟩ := encodePlace_overflows h₀ ht hi hf hhead (by
      have hbits := hfull.2
      rw [List.flatMap_append, List.flatMap_singleton] at hbits
      exact hbits)
    exact ⟨u, hrun u hu, hkept⟩

/-- All that the phase can do. -/
theorem encodeAll_cases :
    (AllFit sh s₀ (placesOf sh s₀.j.samples.toNat)
      ∧ ∃ t, encodeAll sh s₀ = .go t ∧ Encoded s₀ ((placesOf sh s₀.j.samples.toNat).flatMap (placeBits sh s₀)) t)
    ∨ ∃ err t x, x ∈ placesOf sh s₀.j.samples.toNat ∧ failure sh s₀ x err ∧ encodeAll sh s₀ = .stop err t
        ∧ KeptOutside [outputBytes s₀.j] s₀.mem t.mem := by
  rcases allFit_or_first_failure sh s₀ (placesOf sh s₀.j.samples.toNat) with
    hfit | ⟨before, x, after, horder, hbefore, hfails⟩
  · exact .inl ⟨hfit, encodeAll_fits h₀ hfit⟩
  · have hx : x ∈ placesOf sh s₀.j.samples.toNat := by rw [horder]; simp
    rcases not_allFit_snoc hbefore hfails with hhead | ⟨hhead, -⟩
    · have herr : failure sh s₀ x .internal := .inl ⟨hhead, rfl⟩
      obtain ⟨t, ht, hkept⟩ := encodeAll_fails h₀ horder hbefore hfails herr
      exact .inr ⟨_, t, x, hx, herr, ht, hkept⟩
    · have herr : failure sh s₀ x .smallBuffer := .inr ⟨hhead, rfl⟩
      obtain ⟨t, ht, hkept⟩ := encodeAll_fails h₀ horder hbefore hfails herr
      exact .inr ⟨_, t, x, hx, herr, ht, hkept⟩

end

end Sys2Proof.Proofs.Emission
end

section
/-! Whole jobs (45_dispatcher.md R230 to R233, R240 to R269): what a launch that the premises let pass does to its buffers and
its registers, in the raw modes and in the compressing modes, on success and on an error. -/

namespace Sys2Proof.Proofs.Jobs

open Sys2Proof.Machine Sys2Proof.Proofs.Encoding Sys2Proof.Proofs.Validator Sys2Proof.Proofs.Fields
  Sys2Proof.Proofs.Bitpacker Sys2Proof.Proofs.Launch Sys2Proof.Proofs.Grains Sys2Proof.Proofs.Dependence
  Sys2Proof.Proofs.ByteOrder Sys2Proof.Proofs.Preprocessor Sys2Proof.Proofs.Codes Sys2Proof.Proofs.Emission

/-! ### The buffers of a compressing launch -/

/-- The buffers of a compressing launch (70_reset_and_hazards.md R335, R336): none runs over the top of MEM, and the output is
apart from all that PRE and MAP touch. -/
structure CompressBuffers (j : JobRecord) (sh : Shape) (pre : Pre) : Prop where
  output : j.output.base.toNat + capacity j / 8 ≤ 2 ^ 32
  input : j.input.base.toNat + j.samples.toNat * sampleBytes sh ≤ 2 ^ 32
  apart : (samplesExtent j.input sh j.samples.toNat).disjoint (outputBytes j) = true
  model : pre = .model →
    ModelBuffers j sh ∧ (samplesExtent (modelTarget j) sh j.samples.toNat).disjoint (outputBytes j) = true

theorem sampleExtent_eq (j : JobRecord) (d : Descriptor) (h : Handle) :
    sampleExtent j d h = samplesExtent h d.shape j.samples.toNat := rfl

theorem outputExtent_of_compressing {j : JobRecord} {d : Descriptor} (hpre : d.pre ≠ .none) :
    outputExtent j d = outputBytes j := by
  rw [outputExtent, if_neg hpre, outputWords_mul_four, outputBytes]

/-- Buffers with one base have one extent. -/
theorem samplesExtent_of_base_eq {h h' : Handle} (hb : h.base = h'.base) (sh : Shape) (n : Nat) :
    samplesExtent h sh n = samplesExtent h' sh n := by
  rw [samplesExtent, samplesExtent, hb]

/-- The target of the model update is the model buffer, or one more buffer of the launch. -/
theorem modelExtents_cases {j : JobRecord} {d : Descriptor} (hpre : d.pre = .model) (hm : j.model.present = true) :
    ((modelTarget j).base = j.model.base ∧ sampleExtent j d j.model ∈ modelExtents j d)
      ∨ modelExtents j d = [sampleExtent j d j.model, sampleExtent j d (modelTarget j)] := by
  have hmodel : modelExtents j d = sampleExtent j d j.model ::
      (if j.updatedModel.same j.model then [] else ifPresent j.updatedModel (sampleExtent j d j.updatedModel)) := by
    rw [modelExtents, if_pos hpre, ifPresent_present hm, List.singleton_append]
  have hfirst : sampleExtent j d j.model ∈ modelExtents j d := by rw [hmodel]; exact List.mem_cons_self
  unfold modelTarget
  by_cases hu : j.updatedModel.present = true
  · rw [if_pos hu]
    by_cases hb : j.updatedModel.base = j.model.base
    · exact .inl ⟨hb, hfirst⟩
    · have hsame : ¬ j.updatedModel.same j.model = true := by
        rw [Bool.not_eq_true, same_eq_false_iff]
        exact fun _ _ => hb
      exact .inr (by rw [hmodel, if_neg hsame, ifPresent_present hu])
  · rw [if_neg hu]
    exact .inl ⟨rfl, hfirst⟩

theorem launchable_buffers {j : JobRecord} {d : Descriptor} (hd : descriptor j.mode = some d) (hl : Launchable j d)
    (hpre : d.pre ≠ .none) : CompressBuffers j d.shape d.pre := by
  have hwrap : ∀ e ∈ usedExtents j d, e.base + e.len ≤ 2 ^ 32 := hl.premises.noWrap
  have hpair := hl.premises.disjoint
  rw [usedExtents_eq hl.valid.inputPresent hl.valid.outputPresent, outputExtent_of_compressing hpre] at hwrap hpair
  obtain ⟨hwin, hwrest⟩ := List.forall_mem_cons.mp hwrap
  obtain ⟨hwout, hwmodel⟩ := List.forall_mem_cons.mp hwrest
  obtain ⟨hin, hpair⟩ := List.pairwise_cons.mp hpair
  obtain ⟨hinout, hinmodel⟩ := List.forall_mem_cons.mp hin
  obtain ⟨hout, hmodels⟩ := List.pairwise_cons.mp hpair
  refine ⟨hwout, hwin, hinout, fun hmodel => ?_⟩
  have hm : j.model.present = true := hl.valid.modelPresent ((isModel_of_descriptor hd).mpr hmodel)
  rcases modelExtents_cases hmodel hm with ⟨hbase, hmem⟩ | hlist
  · have htarget : samplesExtent (modelTarget j) d.shape j.samples.toNat = samplesExtent j.model d.shape j.samples.toNat :=
      samplesExtent_of_base_eq hbase _ _
    refine ⟨⟨hwin, hwmodel _ hmem, ?_, hinmodel _ hmem, ?_, .inl hbase⟩, ?_⟩
    · rw [hbase]
      exact hwmodel _ hmem
    · rw [htarget]
      exact hinmodel _ hmem
    · rw [htarget, Extent.disjoint_comm]
      exact hout _ hmem
  · rw [hlist] at hwmodel hinmodel hout hmodels
    have hapart : (sampleExtent j d j.model).disjoint (sampleExtent j d (modelTarget j)) = true :=
      (List.pairwise_cons.mp hmodels).1 _ List.mem_cons_self
    have hlast : sampleExtent j d (modelTarget j) ∈ [sampleExtent j d j.model, sampleExtent j d (modelTarget j)] := by
      simp
    refine ⟨⟨hwin, hwmodel _ List.mem_cons_self, hwmodel _ hlast, hinmodel _ List.mem_cons_self,
      hinmodel _ hlast, .inr ?_⟩, ?_⟩
    · rw [Extent.disjoint_comm]
      exact hapart
    · rw [Extent.disjoint_comm]
      exact hout _ hlast

/-! ### PRE and MAP together -/

/-- MEM after PRE and MAP. -/
def transformed (j : JobRecord) (sh : Shape) (pre : Pre) (esc : Escape) (launch : Memory) : Memory :=
  mapMemory j sh esc (preMemory j sh pre launch)

section
variable {j : JobRecord} {sh : Shape} {pre : Pre} (hb : CompressBuffers j sh pre)
include hb

theorem fieldRead_preMemory (m : Memory) {i : Nat} (hi : i < j.samples.toNat) {f : Field} (hf : f ∈ shapeFields sh) :
    fieldRead (preMemory j sh pre m) j.input sh i f = Machine.residual j sh pre m i f := by
  cases pre with
  | none => rfl
  | diff =>
    rw [preMemory, fieldRead_diffMemory hb.input m hi hf, Machine.residual]
    exact if_ctx_congr Iff.rfl (fun hzero => by rw [hzero]) fun _ => rfl
  | model =>
    obtain ⟨hmodel, -⟩ := hb.model rfl
    exact fieldRead_modelMemory_input hmodel m hi hf

/-- The input holds the mapped values (42_mapper.md R165). -/
theorem inputMapped_transformed (esc : Escape) (m : Memory) :
    InputMapped j sh pre esc m (transformed j sh pre esc m) := by
  intro i hi f hf
  rw [transformed, Mapper.fieldRead_mapMemory esc _ hb.input hi hf, fieldRead_preMemory hb m hi hf, mappedValue]

/-- The model target holds the updated model (41_preprocessor.md R136). -/
theorem modelUpdated_transformed (esc : Escape) (m : Memory) : ModelUpdated j sh pre m (transformed j sh pre esc m) := by
  intro hpre i hi f hf
  subst hpre
  obtain ⟨hmodel, -⟩ := hb.model rfl
  have hkept := Mapper.mapMemory_keptOutside esc (preMemory j sh .model m) hb.input
  rw [transformed, fieldRead_of_samples_apart hkept hmodel.target hi hf
    (by rw [Extent.disjoint_comm]; exact hmodel.inputTarget)]
  exact fieldRead_modelMemory_target hmodel m hi hf

/-- PRE and MAP write the input and the model target only (20_memory.md R67). -/
theorem transformed_keptOutside (hpos : 0 < j.samples.toNat) (hpre : pre ≠ .none) (esc : Escape) (m : Memory) :
    KeptOutside (transformedExtents j { shape := sh, pre := pre, esc := some esc }) m (transformed j sh pre esc m) := by
  have hmap := Mapper.mapMemory_keptOutside esc (preMemory j sh pre m) hb.input
  cases pre with
  | none => exact absurd rfl hpre
  | diff => exact keptOutside_trans (diffMemory_keptOutside hb.input hpos m) hmap
  | model =>
    obtain ⟨hmodel, -⟩ := hb.model rfl
    refine keptOutside_trans (modelMemory_keptOutside hmodel m) (keptOutside_mono ?_ hmap)
    exact List.cons_subset.mpr ⟨List.mem_cons_self, List.nil_subset _⟩

/-- Writing the output keeps the mapped values. -/
theorem InputMapped.of_kept {esc : Escape} {launch m m' : Memory} (h : InputMapped j sh pre esc launch m)
    (hkept : KeptOutside [outputBytes j] m m') : InputMapped j sh pre esc launch m' :=
  fun i hi f hf => (fieldRead_of_samples_apart hkept hb.input hi hf hb.apart).trans (h i hi f hf)

/-- Writing the output keeps the updated model. -/
theorem ModelUpdated.of_kept {launch m m' : Memory} (h : ModelUpdated j sh pre launch m)
    (hkept : KeptOutside [outputBytes j] m m') : ModelUpdated j sh pre launch m' := by
  intro hpre i hi f hf
  obtain ⟨hmodel, hapart⟩ := hb.model hpre
  exact (fieldRead_of_samples_apart hkept hmodel.target hi hf hapart).trans (h hpre i hi f hf)

end

/-! ### A compressing launch -/

/-- The state in which the ENCODE phase of a compressing launch starts. -/
def encodeEntry (j : JobRecord) (sh : Shape) (pre : Pre) (esc : Escape) (s : State) : State :=
  setupEncoders esc (enterPhase .encode (mapPhase sh esc (prePhase sh pre (depositBits (latchJob j s)))))

section
variable {i : Instr} {sh : Shape} {pre : Pre} {esc : Escape}
  (hd : descriptor (jobOf i).mode = some { shape := sh, pre := pre, esc := some esc })
  (hl : Launchable (jobOf i) { shape := sh, pre := pre, esc := some esc })
include hd

theorem pre_ne_none : pre ≠ .none := fun hp => nomatch (esc_eq_none_iff hd).mpr hp

include hl

theorem buffers : CompressBuffers (jobOf i) sh pre := launchable_buffers hd hl (pre_ne_none hd)

omit hl in
theorem not_isRaw : isRaw (jobOf i).mode = false := by
  rw [← Bool.not_eq_true, isRaw_of_descriptor hd]
  exact pre_ne_none hd

/-- A launch lets the ENCODE phase start. -/
theorem encodeStart (s : State) : EncodeStart sh (encodeEntry (jobOf i) sh pre esc s) where
  cursor := rfl
  primary := Invariant.coherent_encoderSetup (hl.valid.golombParLegal (not_isRaw hd)).1 _ _
  secondary := Invariant.coherent_encoderSetup (le_refl 1) _ _
  outputNoWrap := (buffers hd hl).output
  inputNoWrap := (buffers hd hl).input
  apart := (buffers hd hl).apart

omit hl in
/-- A launch answers what its ENCODE phase leads to. -/
theorem exec_of_launchable {s : State} (hl : Launchable (jobOf i) { shape := sh, pre := pre, esc := some esc }) :
    exec i s = afterEncode (encodeAll sh (encodeEntry (jobOf i) sh pre esc s)) (fun t => .next (completeCompressed t)) := by
  rcases exec_cases hd s with ⟨hn, _⟩ | ⟨_, hs, _⟩ | ⟨_, _, hp, _⟩ | ⟨_, h⟩
  · exact absurd hl.valid (not_validConfig_of_pos hn)
  · exact absurd hl.someSamples (by omega)
  · exact absurd hl.premises hp
  · rw [h, jobBody_of_esc rfl]
    rfl

/-- What the ENCODE phase finds at a place is the mapped value of the launch content. -/
theorem valueAt_encodeEntry (s : State) {x : Place} (hx : x ∈ placesOf sh (jobOf i).samples.toNat) :
    valueAt sh (encodeEntry (jobOf i) sh pre esc s) x = (mappedValue (jobOf i) sh pre esc s.mem x.1 x.2.1).toNat := by
  obtain ⟨hi, hf⟩ := mem_placesOf hx
  exact congrArg BitVec.toNat (inputMapped_transformed (buffers hd hl) esc s.mem x.1 hi x.2.1 hf)

omit hd hl in
theorem setupFor_encodeEntry (j : JobRecord) (s : State) (f : Field) :
    setupFor (encodeEntry j sh pre esc s) f = setupOf j esc f := rfl

theorem placeFits_iff (s : State) {x : Place} (hx : x ∈ placesOf sh (jobOf i).samples.toNat) :
    placeFits sh (encodeEntry (jobOf i) sh pre esc s) x
      ↔ headFits (mappedValue (jobOf i) sh pre esc s.mem x.1 x.2.1).toNat (setupOf (jobOf i) esc x.2.1) := by
  rw [placeFits, valueAt_encodeEntry hd hl s hx, setupFor_encodeEntry]

theorem placeBits_eq (s : State) {x : Place} (hx : x ∈ placesOf sh (jobOf i).samples.toNat) :
    placeBits sh (encodeEntry (jobOf i) sh pre esc s) x = fieldBits (jobOf i) sh pre esc s.mem x.1 x.2.1 := by
  rw [placeBits, valueAt_encodeEntry hd hl s hx, setupFor_encodeEntry, fieldBits]

/-- The emissions of some places, as those of their samples and fields. -/
theorem flatMap_placeBits (s : State) {xs : List Place} (hxs : xs ⊆ placesOf sh (jobOf i).samples.toNat) :
    xs.flatMap (placeBits sh (encodeEntry (jobOf i) sh pre esc s))
      = (xs.map (fun x => (x.1, x.2.1))).flatMap (fun y => fieldBits (jobOf i) sh pre esc s.mem y.1 y.2) := by
  rw [List.flatMap_map]
  exact List.flatMap_congr fun x hx => placeBits_eq hd hl s (hxs hx)

/-- All emissions together are the stream of the job (43_entropy_encoder.md R188). -/
theorem flatMap_placesOf (s : State) :
    (placesOf sh (jobOf i).samples.toNat).flatMap (placeBits sh (encodeEntry (jobOf i) sh pre esc s))
      = jobBits (jobOf i) sh pre esc s.mem := by
  rw [flatMap_placeBits hd hl s (List.Subset.refl _), map_placesOf, List.flatMap_assoc]
  simp only [List.flatMap_map]
  rfl

/-- Only `exp_flags` can have a codeword over 32 bits (43_entropy_encoder.md R191). -/
theorem headFits_of_primary {f : Field} (hf : f.secondary = false) (u : Nat) : headFits u (setupOf (jobOf i) esc f) := by
  rw [setupOf, hf]
  exact primaryEncoderWithinBudget (jobOf i) esc u hl.valid (not_isRaw hd)

/-! ### Success -/

omit hd hl in
/-- Every byte of an output buffer from its stream bits (20_memory.md R55). -/
theorem readByte_eq_of_streamBits {m m' : Memory} {out : Handle} {k : Nat} (hk : out.base.toNat + k < 2 ^ 32)
    (h : ∀ b, b < 8 → streamBit m' out (8 * k + b) = streamBit m out (8 * k + b)) :
    m'.readByte (out.base.toNat + k) = m.readByte (out.base.toNat + k) := by
  refine BitVec.eq_of_getLsbD_eq fun b hb => ?_
  have hbit := h (7 - b) (by omega)
  simp only [streamBit, show (8 * k + (7 - b)) / 8 = k by omega, show 7 - (8 * k + (7 - b)) % 8 = b by omega,
    wrapAddress_of_lt hk] at hbit
  exact hbit

/-- MEM after a success: the bits, the padding, and nothing else of the output. -/
structure StreamWritten (j : JobRecord) (bits : List Bool) (before after : Memory) : Prop where
  stream : ∀ p, p < capacity j → streamBit after j.output p
    = if p < bits.length then bits.getD p false
      else if p < paddedLen bits.length then false else streamBit before j.output p
  kept : KeptOutside [outputBytes j] before after

omit hd hl in
theorem streamWritten_of_encoded {s₀ t : State} {bits : List Bool} (h : Encoded s₀ bits t)
    (hwrap : s₀.j.output.base.toNat + capacity s₀.j / 8 ≤ 2 ^ 32) :
    StreamWritten s₀.j bits s₀.mem (completeCompressed t).mem := by
  have hlen : bits.length ≤ capacity s₀.j := by rw [← h.cursor, ← h.frame.j]; exact h.frame.cursor
  rw [completeCompressed_mem, h.frame.j, h.cursor]
  refine ⟨fun p hp => ?_, ?_⟩
  · rw [streamBit_padMemory hlen hwrap t.mem hp, h.stream p hp]
    have hbounds := paddedLen_bounds bits.length
    by_cases hlow : p < bits.length
    · rw [if_neg (by omega), if_pos hlow, if_pos hlow]
    · rw [if_neg hlow, if_neg hlow]
      by_cases hpad : p < paddedLen bits.length
      · rw [if_pos ⟨by omega, hpad⟩, if_pos hpad]
      · rw [if_neg (by omega), if_neg hpad]
  · refine keptOutside_trans h.kept (keptOutside_widen (padMemory_keptOutside hlen hwrap t.mem) (le_refl _) ?_)
    show s₀.j.output.base.toNat + 4 * ceilDiv bits.length 32 ≤ s₀.j.output.base.toNat + capacity s₀.j / 8
    have := paddedLen_le hlen (capacity_mod s₀.j)
    unfold paddedLen at this
    omega

omit hd hl in
theorem StreamWritten.streamOf {j : JobRecord} {bits : List Bool} {before after : Memory}
    (h : StreamWritten j bits before after) (hlen : bits.length ≤ capacity j) :
    streamOf after j.output bits.length = bits := by
  refine List.ext_getElem (by simp [Machine.streamOf]) fun p hp hp' => ?_
  have hbit := h.stream p (by omega)
  rw [if_pos hp', List.getD_eq_getElem _ _ hp'] at hbit
  simpa [Machine.streamOf] using hbit

omit hd hl in
theorem StreamWritten.stored {j : JobRecord} {bits : List Bool} {before after : Memory}
    (h : StreamWritten j bits before after) (hlen : bits.length ≤ capacity j) : StreamStored j bits after := by
  have hpad := paddedLen_le hlen (capacity_mod j)
  obtain ⟨hle, -, -⟩ := paddedLen_bounds bits.length
  show Machine.streamOf after j.output (paddedLen bits.length)
    = bits ++ List.replicate (paddedLen bits.length - bits.length) false
  have hlength : (Machine.streamOf after j.output (paddedLen bits.length)).length = paddedLen bits.length := by
    simp [Machine.streamOf]
  refine List.ext_getElem (by simp only [hlength, List.length_append, List.length_replicate]; omega) fun p hp hp' => ?_
  rw [hlength] at hp
  have hbit := h.stream p (by omega)
  have hget : (Machine.streamOf after j.output (paddedLen bits.length))[p]'(by rw [hlength]; exact hp)
      = streamBit after j.output p := by simp [Machine.streamOf]
  rw [hget, hbit]
  by_cases hlow : p < bits.length
  · rw [if_pos hlow, List.getElem_append_left hlow, List.getD_eq_getElem _ _ hlow]
  · rw [if_neg hlow, if_pos hp, List.getElem_append_right (by omega), List.getElem_replicate]

omit hd hl in
/-- Whole words up to the padded end are all that the stream takes. -/
theorem StreamWritten.keptOutside_stream {j : JobRecord} {bits : List Bool} {before after : Memory}
    (h : StreamWritten j bits before after) (hwrap : j.output.base.toNat + capacity j / 8 ≤ 2 ^ 32) :
    KeptOutside [streamExtent j bits.length] before after := by
  intro a ha
  have hout := ha _ List.mem_cons_self
  rw [← Bool.not_eq_true, Extent.covers_iff] at hout
  change ¬ (j.output.base.toNat ≤ a ∧ a < j.output.base.toNat + 4 * ceilDiv bits.length 32) at hout
  by_cases hin : j.output.base.toNat ≤ a ∧ a < j.output.base.toNat + capacity j / 8
  · obtain ⟨k, rfl⟩ := Nat.exists_eq_add_of_le hin.1
    obtain ⟨hle, -, -⟩ := paddedLen_bounds bits.length
    refine readByte_eq_of_streamBits (out := j.output) (k := k) (by omega) fun b hb => ?_
    have hbeyond : paddedLen bits.length ≤ 8 * k + b := by unfold paddedLen; omega
    rw [h.stream (8 * k + b) (by omega), if_neg (by omega), if_neg (by omega)]
  · refine h.kept a fun e he => ?_
    rw [List.mem_singleton.mp he, ← Bool.not_eq_true, Extent.covers_iff]
    exact hin

omit hd hl in
/-- The registers that a job in ENCODE has kept. -/
theorem inProgress_encodeEntry {j : JobRecord} {d : Descriptor} (hl : Launchable j d) (sh : Shape) (pre : Pre) (esc : Escape)
    (s : State) : InProgress j s (encodeEntry j sh pre esc s) 0 :=
  { inProgress_of_launchable hl s with }

/-- A launch whose emissions can all be made succeeds with its stream. -/
theorem exec_of_allFit {s : State}
    (hfit : AllFit sh (encodeEntry (jobOf i) sh pre esc s) (placesOf sh (jobOf i).samples.toNat)) :
    ∃ t, exec i s = .next (completeCompressed t)
      ∧ Encoded (encodeEntry (jobOf i) sh pre esc s) (jobBits (jobOf i) sh pre esc s.mem) t := by
  obtain ⟨t, ht, henc⟩ := encodeAll_fits (encodeStart hd hl s) hfit
  have hbits := flatMap_placesOf hd hl s
  refine ⟨t, ?_, hbits ▸ henc⟩
  rw [exec_of_launchable hd hl, ht, afterEncode_go]

omit hd in
theorem finished_of_encoded {s t : State} {bits : List Bool} (h : Encoded (encodeEntry (jobOf i) sh pre esc s) bits t) :
    Finished (jobOf i) s (completeCompressed t) .ok 0 0 bits.length := by
  have hprogress := inProgress_of_frame (inProgress_encodeEntry hl sh pre esc s) h.frame
  rw [completeCompressed, h.cursor]
  exact InProgress.succeed (r := padPhase t) { hprogress with } bits.length

omit hl in
/-- A compressing mode completes (45_dispatcher.md R241 to R269). -/
theorem compressionCompletes : CompressionCompletes i sh pre esc := by
  intro s hl hflags hlen
  have hb := buffers hd hl
  have hfit : AllFit sh (encodeEntry (jobOf i) sh pre esc s) (placesOf sh (jobOf i).samples.toNat) := by
    refine ⟨fun x hx => ?_, ?_⟩
    · obtain ⟨hi, hf⟩ := mem_placesOf hx
      rw [placeFits_iff hd hl s hx]
      cases hsec : x.2.1.secondary with
      | true => exact hflags x.1 hi x.2.1 hf hsec
      | false => exact headFits_of_primary hd hl hsec _
    · rw [flatMap_placesOf hd hl s]
      exact hlen
  obtain ⟨t, ht, henc⟩ := exec_of_allFit hd hl hfit
  have hwritten : StreamWritten (jobOf i) (jobBits (jobOf i) sh pre esc s.mem) (transformed (jobOf i) sh pre esc s.mem)
      (completeCompressed t).mem := streamWritten_of_encoded henc hb.output
  refine ⟨completeCompressed t, ht, finished_of_encoded hl henc, ?_,
    InputMapped.of_kept hb (inputMapped_transformed hb esc s.mem) hwritten.kept,
    ModelUpdated.of_kept hb (modelUpdated_transformed hb esc s.mem) hwritten.kept, hwritten.stored hlen, ?_⟩
  · rw [completeCompressed_enc]
    exact congr (congrArg₂ Enc.mk henc.cursor henc.frame.primary) henc.frame.secondary
  · exact keptOutside_trans
      (keptOutside_mono (List.subset_cons_self _ _)
        (transformed_keptOutside hb hl.someSamples (pre_ne_none hd) esc s.mem))
      (keptOutside_mono (List.cons_subset.mpr ⟨List.mem_cons_self, List.nil_subset _⟩)
        (hwritten.keptOutside_stream hb.output))

/-! ### Errors of the ENCODE phase -/

omit hd in
/-- What a compressing job may write: the output and what PRE and MAP transform. -/
theorem writableExtents_eq (hd : descriptor (jobOf i).mode = some { shape := sh, pre := pre, esc := some esc }) :
    writableExtents (jobOf i) { shape := sh, pre := pre, esc := some esc }
      = outputBytes (jobOf i) :: transformedExtents (jobOf i) { shape := sh, pre := pre, esc := some esc } := by
  have hpre := pre_ne_none hd
  have hi := hl.valid.inputPresent
  have houtput : outputExtent (jobOf i) { shape := sh, pre := pre, esc := some esc } = outputBytes (jobOf i) :=
    outputExtent_of_compressing hpre
  rw [writableExtents, ifPresent_present hl.valid.outputPresent, houtput, List.singleton_append, transformedExtents]
  congr 1
  cases pre with
  | none => exact absurd rfl hpre
  | diff => exact ifPresent_present hi _
  | model =>
    have hm := hl.valid.modelPresent ((isModel_of_descriptor hd).mpr rfl)
    have htarget : (modelTarget (jobOf i)).present = true := by
      unfold modelTarget
      split_ifs with hu
      · exact hu
      · exact hm
    show ifPresent _ _ ++ ifPresent _ _ = _
    rw [ifPresent_present hi, ifPresent_present htarget]
    rfl

/-- MEM after an error of the ENCODE phase (20_memory.md R68). -/
theorem abandonedMemory_of_kept {s t : State} (hj : t.j = jobOf i)
    (hkept : KeptOutside [outputBytes (jobOf i)] (transformed (jobOf i) sh pre esc s.mem) t.mem) :
    AbandonedMemory (jobOf i) sh pre esc s.mem (abandonOutput t).mem := by
  have hb := buffers hd hl
  have hfree : KeptOutside [outputBytes (jobOf i)] t.mem (abandonOutput t).mem := by
    rw [abandonOutput_mem, hj, outputWords_mul_four]
    exact fillFree_keptOutside t.mem t.freeDraws hb.output
  have hall := keptOutside_trans hkept hfree
  refine ⟨InputMapped.of_kept hb (inputMapped_transformed hb esc s.mem) hall,
    ModelUpdated.of_kept hb (modelUpdated_transformed hb esc s.mem) hall, ?_⟩
  rw [writableExtents_eq hl hd]
  exact keptOutside_trans
    (keptOutside_mono (List.subset_cons_self _ _) (transformed_keptOutside hb hl.someSamples (pre_ne_none hd) esc s.mem))
    (keptOutside_mono (List.cons_subset.mpr ⟨List.mem_cons_self, List.nil_subset _⟩) hall)

/-- A stopped ENCODE phase ends the job with its error. -/
theorem exec_of_stop {s t : State} {err : JobError} (ht : encodeAll sh (encodeEntry (jobOf i) sh pre esc s) = .stop err t)
    (hkept : KeptOutside [outputBytes (jobOf i)] (transformed (jobOf i) sh pre esc s.mem) t.mem) :
    exec i s = .next (raiseError err (abandonOutput t))
      ∧ Finished (jobOf i) s (raiseError err (abandonOutput t)) err.kind (errorResult err) (err.errBits 0) 0
      ∧ AbandonedMemory (jobOf i) sh pre esc s.mem (raiseError err (abandonOutput t)).mem := by
  have hframe := encodeAll_frame (s := encodeEntry (jobOf i) sh pre esc s) sh (EncodeFrame.refl (Nat.zero_le _))
  rw [ht] at hframe
  have hprogress := inProgress_of_frame (inProgress_encodeEntry hl sh pre esc s) hframe
  refine ⟨?_, InProgress.raise (r := abandonOutput t) { hprogress with } err,
    abandonedMemory_of_kept hd hl hprogress.latched hkept⟩
  rw [exec_of_launchable hd hl, ht, afterEncode_stop]

omit hl in
/-- A compressing mode ends in the error of its first impossible emission (43_entropy_encoder.md R190). -/
theorem compressionFails : CompressionFails i sh pre esc := by
  intro s before p q after hl hfirst
  obtain ⟨horder, hheads, hbits⟩ := hfirst
  rw [← map_placesOf, List.map_eq_append_iff] at horder
  obtain ⟨xs, rest, hplaces, rfl, hrest⟩ := horder
  obtain ⟨x, ys, rfl, hx, rfl⟩ := List.map_eq_cons_iff.mp hrest
  obtain ⟨rfl, rfl⟩ := Prod.mk.inj hx
  have hsub : xs ⊆ placesOf sh (jobOf i).samples.toNat := by
    rw [hplaces]
    exact List.subset_append_left _ _
  have hxmem : x ∈ placesOf sh (jobOf i).samples.toNat := by rw [hplaces]; simp
  have hsubx : xs ++ [x] ⊆ placesOf sh (jobOf i).samples.toNat := by
    rw [hplaces]
    exact List.append_subset.mpr ⟨List.subset_append_left _ _, by simp⟩
  have hbefore : AllFit sh (encodeEntry (jobOf i) sh pre esc s) xs := by
    refine ⟨fun y hy => (placeFits_iff hd hl s (hsub hy)).mpr (hheads _ (List.mem_map_of_mem hy)), ?_⟩
    rw [flatMap_placeBits hd hl s hsub]
    exact hbits
  have hends : ∀ err, ¬ AllFit sh (encodeEntry (jobOf i) sh pre esc s) (xs ++ [x]) →
      failure sh (encodeEntry (jobOf i) sh pre esc s) x err →
      ∃ t, exec i s = .next t ∧ Finished (jobOf i) s t err.kind (errorResult err) (err.errBits 0) 0
        ∧ AbandonedMemory (jobOf i) sh pre esc s.mem t.mem := by
    intro err hfails herr
    obtain ⟨t, ht, hkept⟩ := encodeAll_fails (encodeStart hd hl s) hplaces hbefore hfails herr
    exact ⟨_, exec_of_stop hd hl ht hkept⟩
  rw [← placeFits_iff hd hl s hxmem]
  refine ⟨fun hhead => ?_, fun hhead hfull => ?_⟩
  · exact hends .internal (fun hall => hhead (hall.heads x (by simp))) (.inl ⟨hhead, rfl⟩)
  · have hfails : ¬ AllFit sh (encodeEntry (jobOf i) sh pre esc s) (xs ++ [x]) := by
      intro hall
      have hbits' := hall.bits
      rw [flatMap_placeBits hd hl s hsubx, List.map_append] at hbits'
      exact Nat.not_le_of_lt hfull hbits'
    exact hends .smallBuffer hfails (.inr ⟨hhead, rfl⟩)

end

/-- Settles O49: each of the twelve modes has the descriptor that its meaning runs. -/
theorem scalarModesComplete : Obligations.ScalarModesComplete := by
  intro o
  exact ⟨compressionCompletes rfl, compressionCompletes rfl, compressionCompletes rfl, compressionCompletes rfl,
    compressionCompletes rfl, compressionCompletes rfl, compressionCompletes rfl, compressionCompletes rfl,
    compressionCompletes rfl, compressionCompletes rfl, compressionCompletes rfl, compressionCompletes rfl⟩

/-- Settles O50: as O49, for the shapes with exposure flags. -/
theorem exposureModesComplete : Obligations.ExposureModesComplete := by
  intro o
  exact ⟨compressionCompletes rfl, compressionCompletes rfl, compressionCompletes rfl, compressionCompletes rfl,
    compressionCompletes rfl, compressionCompletes rfl, compressionCompletes rfl, compressionCompletes rfl,
    compressionCompletes rfl, compressionCompletes rfl, compressionCompletes rfl, compressionCompletes rfl,
    compressionCompletes rfl, compressionCompletes rfl, compressionCompletes rfl, compressionCompletes rfl⟩

/-- Settles O51: each of the 28 modes has the descriptor that its meaning runs. -/
theorem firstErrorEndsJob : Obligations.FirstErrorEndsJob := by
  intro o
  exact ⟨compressionFails rfl, compressionFails rfl, compressionFails rfl, compressionFails rfl, compressionFails rfl,
    compressionFails rfl, compressionFails rfl, compressionFails rfl, compressionFails rfl, compressionFails rfl,
    compressionFails rfl, compressionFails rfl, compressionFails rfl, compressionFails rfl, compressionFails rfl,
    compressionFails rfl, compressionFails rfl, compressionFails rfl, compressionFails rfl, compressionFails rfl,
    compressionFails rfl, compressionFails rfl, compressionFails rfl, compressionFails rfl, compressionFails rfl,
    compressionFails rfl, compressionFails rfl, compressionFails rfl⟩

/-! ### The raw modes -/

/-- The copy moves every byte and writes nothing else, where the buffers are apart and do not run over the top of MEM. -/
theorem copy_spec (m : Memory) {src dst n : Nat} (hsrc : src + n ≤ 2 ^ 32) (hdst : dst + n ≤ 2 ^ 32)
    (hapart : src + n ≤ dst ∨ dst + n ≤ src) :
    (∀ k, k < n → (m.copy src dst n).readByte (dst + k) = m.readByte (src + k))
      ∧ ∀ a, (a < dst ∨ dst + n ≤ a) → (m.copy src dst n).readByte a = m.readByte a := by
  induction n with
  | zero => exact ⟨fun k hk => absurd hk (Nat.not_lt_zero k), fun _ _ => rfl⟩
  | succ n ih =>
    obtain ⟨hcopied, hkept⟩ := ih (by omega) (by omega) (by omega)
    have hstep : m.copy src dst (n + 1)
        = (m.copy src dst n).writeByte (dst + n) ((m.copy src dst n).readByte (src + n)) := by
      rw [Memory.copy, wrapAddress_of_lt (by omega), wrapAddress_of_lt (by omega)]
    rw [hstep]
    refine ⟨fun k hk => ?_, fun a ha => ?_⟩
    · rcases Nat.lt_succ_iff_lt_or_eq.mp hk with hlt | rfl
      · rw [Memory.readByte_writeByte_of_ne _ _ (by omega), hcopied k hlt]
      · rw [Memory.readByte_writeByte_self, hkept _ (by omega)]
    · rw [Memory.readByte_writeByte_of_ne _ _ (by omega), hkept a (by omega)]

section
variable {i : Instr} {sh : Shape} (hd : descriptor (jobOf i).mode = some { shape := sh, pre := .none, esc := none })
  (hl : Launchable (jobOf i) { shape := sh, pre := .none, esc := none })
include hd hl

theorem exec_of_raw_launchable (s : State) : exec i s = .next (rawPhase sh (depositBits (latchJob (jobOf i) s))) := by
  rcases exec_cases hd s with ⟨hn, _⟩ | ⟨_, hs, _⟩ | ⟨_, _, hp, _⟩ | ⟨_, h⟩
  · exact absurd hl.valid (not_validConfig_of_pos hn)
  · exact absurd hl.someSamples (by omega)
  · exact absurd hl.premises hp
  · rw [h, jobBody_of_raw rfl]

omit hd in
/-- The buffers of a raw launch (70_reset_and_hazards.md R335, R336). -/
theorem raw_buffers :
    (jobOf i).input.base.toNat + sampleSpan (jobOf i) sh ≤ 2 ^ 32
      ∧ (jobOf i).output.base.toNat + sampleSpan (jobOf i) sh ≤ 2 ^ 32
      ∧ ((jobOf i).input.base.toNat + sampleSpan (jobOf i) sh ≤ (jobOf i).output.base.toNat
        ∨ (jobOf i).output.base.toNat + sampleSpan (jobOf i) sh ≤ (jobOf i).input.base.toNat) := by
  have hwrap := hl.premises.noWrap
  have hpair := hl.premises.disjoint
  rw [usedExtents_eq hl.valid.inputPresent hl.valid.outputPresent] at hwrap hpair
  obtain ⟨hwin, hwrest⟩ := List.forall_mem_cons.mp hwrap
  obtain ⟨hwout, -⟩ := List.forall_mem_cons.mp hwrest
  exact ⟨hwin, hwout, (disjoint_iff _ _).mp ((List.pairwise_cons.mp hpair).1 _ List.mem_cons_self)⟩

/-- A copy that fits: the registers and MEM it leaves. -/
theorem exec_of_raw_fits (s : State) (hfit : sampleSpan (jobOf i) sh ≤ capacity (jobOf i) / 8) :
    ∃ t, exec i s = .next t
      ∧ Finished (jobOf i) s t .ok 0 0 ((jobOf i).samples.toNat * sampleBits sh)
      ∧ t.seq = { s.seq with phase := .done } ∧ t.enc = { s.enc with streamLen := 0 }
      ∧ t.mem = s.mem.copy (jobOf i).input.base.toNat (jobOf i).output.base.toNat (sampleSpan (jobOf i) sh) := by
  have hprogress := inProgress_of_launchable hl s
  refine ⟨_, (exec_of_raw_launchable hd hl s).trans (congrArg Host.Outcome.next (if_neg (Nat.not_lt_of_le hfit))),
    InProgress.succeed (r := { enterPhase .encode (depositBits (latchJob (jobOf i) s)) with mem := _ }) { hprogress with } _,
    rfl, rfl, rfl⟩

/-- A copy that does not fit is not begun. -/
theorem exec_of_raw_overflows (s : State) (hfull : capacity (jobOf i) / 8 < sampleSpan (jobOf i) sh) :
    ∃ t, exec i s = .next t ∧ Finished (jobOf i) s t .smallBuf (-2) 1 0
      ∧ t.seq = { s.seq with phase := .done } ∧ t.enc = { s.enc with streamLen := 0 } ∧ t.mem = s.mem := by
  have hprogress := inProgress_of_launchable hl s
  refine ⟨_, (exec_of_raw_launchable hd hl s).trans (congrArg Host.Outcome.next (if_pos hfull)),
    InProgress.raise (r := enterPhase .encode (depositBits (latchJob (jobOf i) s))) { hprogress with } .smallBuffer,
    rfl, rfl, rfl⟩

omit hl in
theorem rawCompletes : RawCompletes i sh := by
  intro s hl hfit
  obtain ⟨hsrc, hdst, hapart⟩ := raw_buffers hl
  obtain ⟨hcopied, hkept⟩ := copy_spec s.mem hsrc hdst hapart
  obtain ⟨t, ht, hfin, hseq, henc, hmem⟩ := exec_of_raw_fits hd hl s hfit
  refine ⟨t, ht, hfin, hseq, henc, fun k hk => ?_, fun a ha => ?_⟩
  · rw [hmem, hcopied k hk]
  · have hout := ha _ List.mem_cons_self
    rw [← Bool.not_eq_true, Extent.covers_iff] at hout
    rw [hmem, hkept a (by simp only at hout; omega)]

end

/-- Settles O47: both raw modes run the copy. -/
theorem rawModesComplete : Obligations.RawModesComplete :=
  fun _ => ⟨rawCompletes rfl, rawCompletes rfl⟩

/-- Settles O48: the capacity check comes first; V10 leaves room for two bytes a sample. -/
theorem rawCapacityError : Obligations.RawCapacityError := by
  intro o s
  refine ⟨fun hl hfull => exec_of_raw_overflows rfl hl s hfull, fun hv => ?_⟩
  have hfits : (jobOf (.raw o)).samples.toNat ≤ (jobOf (.raw o)).bufferLength.toNat := hv.rawFits rfl
  rw [sampleSpan, sampleBytes, capacity_eq]
  omega

/-! ### The ends of any job -/

/-- A mode without exposure flags has primary fields only. -/
theorem mem_exposureModeCodes {mode : Word} {d : Descriptor} (hd : descriptor mode = some d) (hpre : d.pre ≠ .none)
    {f : Field} (hf : f ∈ shapeFields d.shape) (hsec : f.secondary = true) : mode ∈ exposureModeCodes := by
  obtain ⟨hraw, -, -, -, -, -, hflags⟩ := classesOf_descriptor hd
  refine (hflags.mp ⟨f, hf, hsec⟩).resolve_left fun h100 => hpre (hraw.mpr ?_)
  rw [h100]
  decide

/-- What a launch leaves, by the way it ends: registers, and MEM outside what it may write. -/
theorem exec_launchable_cases {i : Instr} {s t : State} {d : Descriptor} (hd : descriptor (jobOf i).mode = some d)
    (hl : Launchable (jobOf i) d) (ht : exec i s = .next t) :
    ((∃ size, Finished (jobOf i) s t .ok 0 0 size) ∨ Finished (jobOf i) s t .smallBuf (-2) 1 0
        ∨ (Finished (jobOf i) s t .internal (-1) 0 0 ∧ (jobOf i).mode ∈ exposureModeCodes))
      ∧ KeptOutside (writableExtents (jobOf i) d) s.mem t.mem := by
  obtain ⟨sh, pre, esc⟩ := d
  cases esc with
  | none =>
    obtain rfl : pre = .none := (esc_eq_none_iff hd).mp rfl
    have houtput : writableExtents (jobOf i) { shape := sh, pre := .none, esc := none }
        = [{ base := (jobOf i).output.base.toNat, len := sampleSpan (jobOf i) sh }] := by
      rw [writableExtents, ifPresent_present hl.valid.outputPresent]
      rfl
    rw [houtput]
    rcases Nat.lt_or_ge (capacity (jobOf i) / 8) (sampleSpan (jobOf i) sh) with hfull | hfit
    · obtain ⟨t', ht', hfin, -, -, hmem⟩ := exec_of_raw_overflows hd hl s hfull
      cases ht'.symm.trans ht
      exact ⟨.inr (.inl hfin), hmem ▸ keptOutside_refl _ _⟩
    · obtain ⟨t', ht', hfin, -, -, -, hkept⟩ := rawCompletes hd s hl hfit
      cases ht'.symm.trans ht
      exact ⟨.inl ⟨_, hfin⟩, hkept⟩
  | some esc =>
    have hb := buffers hd hl
    rcases encodeAll_cases (encodeStart hd hl s) with ⟨hfit, -⟩ | ⟨err, u, x, hx, herr, hu, hkept⟩
    · obtain ⟨u, hu, henc⟩ := exec_of_allFit hd hl hfit
      cases hu.symm.trans ht
      have hwritten := streamWritten_of_encoded henc hb.output
      refine ⟨.inl ⟨_, finished_of_encoded hl henc⟩, ?_⟩
      rw [writableExtents_eq hl hd]
      exact keptOutside_trans
        (keptOutside_mono (List.subset_cons_self _ _)
          (transformed_keptOutside hb hl.someSamples (pre_ne_none hd) esc s.mem))
        (keptOutside_mono (List.cons_subset.mpr ⟨List.mem_cons_self, List.nil_subset _⟩) hwritten.kept)
    · obtain ⟨hexec, hfin, -, -, hmem⟩ := exec_of_stop hd hl hu hkept
      cases hexec.symm.trans ht
      refine ⟨.inr ?_, hmem⟩
      rcases herr with ⟨hhead, rfl⟩ | ⟨-, rfl⟩
      · refine .inr ⟨hfin, ?_⟩
        have hsec : x.2.1.secondary = true := by
          by_contra hno
          exact hhead ((placeFits_iff hd hl s hx).mpr (headFits_of_primary hd hl (Bool.not_eq_true _ ▸ hno) _))
        exact mem_exposureModeCodes hd (pre_ne_none hd) (mem_placesOf hx).2 hsec
      · exact .inl hfin

/-- Settles O52: a job ends in VALIDATE, or as its launch ends. -/
theorem fourOutcomes : Obligations.FourOutcomes := by
  intro i s t ht
  obtain ⟨d, hd⟩ := exists_descriptor i
  rcases exec_cases hd s with ⟨hn, h⟩ | ⟨hv, _, h⟩ | ⟨_, _, _, r, h⟩ | ⟨hl, _⟩
  · cases h.symm.trans ht
    exact .inr (.inl ⟨_, hn, validateCount_le _, rfl, (inProgress_depositBits _ _).raise _, rfl⟩)
  · cases h.symm.trans ht
    have hfin := (inProgress_depositBits (jobOf i) s).finish
    rw [validateBits_of_valid ((noCheckFiresIffValid _).mpr hv)] at hfin
    exact .inl ⟨0, hfin⟩
  · exact nomatch h.symm.trans ht
  · obtain ⟨hok | hsmall | hinternal, -⟩ := exec_launchable_cases hd hl ht
    · exact .inl hok
    · exact .inr (.inr (.inl hsmall))
    · exact .inr (.inr (.inr hinternal))

/-- Settles O53: a job that ends in VALIDATE leaves MEM alone, a launch writes its own extents. -/
theorem storesOnlyWritable : Obligations.StoresOnlyWritable := by
  intro i s t d ht hd
  rcases exec_cases hd s with ⟨_, h⟩ | ⟨_, _, h⟩ | ⟨_, _, _, r, h⟩ | ⟨hl, _⟩
  · cases h.symm.trans ht
    exact ⟨keptOutside_refl _ _, fun _ => rfl⟩
  · cases h.symm.trans ht
    exact ⟨keptOutside_refl _ _, fun _ => rfl⟩
  · exact nomatch h.symm.trans ht
  · refine ⟨(exec_launchable_cases hd hl ht).2, fun hnone => ?_⟩
    rcases hnone with hn | hs
    · exact absurd hl.valid (not_validConfig_of_pos hn)
    · have hpos := hl.someSamples
      rw [hs] at hpos
      exact absurd hpos (Nat.lt_irrefl 0)

end Sys2Proof.Proofs.Jobs
end

section
/-! The round trip (46_decoder_reference.md R280 to R291): the reference decoder over the stream of a compressing job, its
model update, and the output bytes of a raw job. -/

namespace Sys2Proof.Proofs.Decoder

open Sys2Proof.Machine Sys2Proof.Proofs.Encoding Sys2Proof.Proofs.Fields Sys2Proof.Proofs.Bitpacker Sys2Proof.Proofs.Launch
  Sys2Proof.Proofs.Grains Sys2Proof.Proofs.Preprocessor Sys2Proof.Proofs.Codes Sys2Proof.Proofs.Emission Sys2Proof.Proofs.Jobs

/-! ### One sample of the stream -/

/-- A field's setup is built from a legal parameter (43_entropy_encoder.md R170, R187). -/
theorem exists_setupOf_eq {j : JobRecord} (hm : 1 ≤ j.golombPar.toNat) (esc : Escape) (f : Field) :
    ∃ m, 1 ≤ m ∧ setupOf j esc f = encoderSetup m j.spill.toNat esc := by
  cases hsec : f.secondary with
  | true => exact ⟨golombParExposureFlags, le_refl 1, if_pos hsec⟩
  | false => exact ⟨j.golombPar.toNat, hm, if_neg (by rw [hsec]; exact Bool.false_ne_true)⟩

theorem decodeValue_fieldBits {j : JobRecord} (hm : 1 ≤ j.golombPar.toNat) (sh : Shape) (pre : Pre) (esc : Escape)
    (launch : Memory) (i : Nat) (f : Field) (rest : List Bool) :
    decodeValue f.width.bits (setupOf j esc f) (fieldBits j sh pre esc launch i f ++ rest)
      = some ((mappedValue j sh pre esc launch i f).toNat, rest) := by
  obtain ⟨m, hpos, hsetup⟩ := exists_setupOf_eq hm esc f
  rw [fieldBits, hsetup]
  exact decodeInvertsEmission m _ _ _ esc rest hpos (width_bits_le f.width) (BitVec.isLt _)

/-- The mapped values of some fields come back in field order. -/
theorem decodeSample_flatMap {j : JobRecord} (hm : 1 ≤ j.golombPar.toNat) (sh : Shape) (pre : Pre) (esc : Escape)
    (launch : Memory) (i : Nat) (fs : List Field) (rest : List Bool) :
    decodeSample j esc fs (fs.flatMap (fieldBits j sh pre esc launch i) ++ rest)
      = some (fs.map (fun f => (mappedValue j sh pre esc launch i f).toNat), rest) := by
  induction fs with
  | nil => rfl
  | cons f fs ih =>
    rw [List.flatMap_cons, List.append_assoc, decodeSample, decodeValue_fieldBits hm]
    simp [ih]

/-! ### Lists over the fields of a sample -/

theorem undoSample_map (esc : Escape) (fs : List Field) (u b : (f : Field) → BitVec f.width.bits) :
    undoSample esc fs (fs.map (fun f => (u f).toNat)) (fs.map (fun f => (b f).toNat))
      = fs.map (fun f => (unmapValue esc f.biased (u f) + b f).toNat) := by
  induction fs with
  | nil => rfl
  | cons f fs ih => simp [undoSample, ih]

theorem roundBack_map (k : Nat) (fs : List Field) (y : (f : Field) → BitVec f.width.bits) :
    roundBack k fs (fs.map (fun f => (y f).toNat)) = fs.map (fun f => (roundInv (y f) k).toNat) := by
  induction fs with
  | nil => rfl
  | cons f fs ih => simp [roundBack, ih]

theorem decodedModelSample_map (weight : Nat) (fs : List Field) (x m : Field → Nat) :
    decodedModelSample weight fs (fs.map x) (fs.map m)
      = fs.map (fun f => (BitVec.ofNat f.width.bits (calUpModel (x f) (m f) weight)).toNat) := by
  induction fs with
  | nil => rfl
  | cons f fs ih => simp [decodedModelSample, ih]

/-! ### The decode loop -/

/-- Field `f` of sample `i`, rounded as PRE rounds it (41_preprocessor.md R131). -/
def roundedField (j : JobRecord) (sh : Shape) (launch : Memory) (i : Nat) (f : Field) : BitVec f.width.bits :=
  roundFwd (fieldRead launch j.input sh i f) j.round.toNat

/-- What PRE subtracted from field `f` of sample `i` (41_preprocessor.md R133, R135). -/
def basisValue (j : JobRecord) (sh : Shape) (pre : Pre) (launch : Memory) (i : Nat) (f : Field) : BitVec f.width.bits :=
  match pre, i with
  | .model, i => roundFwd (fieldRead launch j.model sh i f) j.round.toNat
  | _, 0 => 0
  | _, i + 1 => roundedField j sh launch i f

/-- The rounded sample that the decoder holds when it comes to sample `i` (46_decoder_reference.md R285). -/
def roundedBefore (j : JobRecord) (sh : Shape) (launch : Memory) : Nat → List Nat
  | 0 => List.replicate (shapeFields sh).length 0
  | i + 1 => (shapeFields sh).map (fun f => (roundedField j sh launch i f).toNat)

theorem residual_add_basisValue (j : JobRecord) (sh : Shape) {pre : Pre} (hpre : pre ≠ .none) (launch : Memory) (i : Nat)
    (f : Field) : Machine.residual j sh pre launch i f + basisValue j sh pre launch i f = roundedField j sh launch i f := by
  cases pre with
  | none => exact absurd rfl hpre
  | model => exact BitVec.sub_add_cancel _ _
  | diff =>
    cases i with
    | zero => exact BitVec.add_zero _
    | succ i => exact BitVec.sub_add_cancel _ _

theorem basisOf_roundedBefore (j : JobRecord) (sh : Shape) {pre : Pre} (hpre : pre ≠ .none) (launch : Memory) (i : Nat) :
    basisOf j sh pre launch i (roundedBefore j sh launch i)
      = (shapeFields sh).map (fun f => (basisValue j sh pre launch i f).toNat) := by
  cases pre with
  | none => exact absurd rfl hpre
  | model => rfl
  | diff =>
    cases i with
    | zero =>
      show List.replicate (shapeFields sh).length 0 = _
      rw [← List.map_const']
      exact List.map_congr_left fun f _ => BitVec.toNat_zero.symm
    | succ i => rfl

/-- Undoing the map and the pre-processing of sample `i` gives the rounded sample. -/
theorem undoSample_mappedValue (j : JobRecord) (sh : Shape) {pre : Pre} (hpre : pre ≠ .none) (esc : Escape)
    (launch : Memory) (i : Nat) :
    undoSample esc (shapeFields sh) ((shapeFields sh).map (fun f => (mappedValue j sh pre esc launch i f).toNat))
        (basisOf j sh pre launch i (roundedBefore j sh launch i))
      = roundedBefore j sh launch (i + 1) := by
  rw [basisOf_roundedBefore j sh hpre, undoSample_map]
  refine List.map_congr_left fun f _ => congrArg BitVec.toNat ?_
  rw [mappedValue, unmapValue_mapValue, residual_add_basisValue j sh hpre]

/-- Field `f` of sample `i` with its `k` low bits cleared, `k` the rounding of the job (46_decoder_reference.md R290). -/
def clearedField (j : JobRecord) (sh : Shape) (launch : Memory) (i : Nat) (f : Field) : BitVec f.width.bits :=
  roundInv (roundedField j sh launch i f) j.round.toNat

/-- Sample `i` as the decompressor must return it. -/
def clearedSample (j : JobRecord) (sh : Shape) (launch : Memory) (i : Nat) : List Nat :=
  (shapeFields sh).map (fun f => (clearedField j sh launch i f).toNat)

/-- The decode loop over the emissions of `n` samples from sample `i` on. -/
theorem decompress_samples {j : JobRecord} (hm : 1 ≤ j.golombPar.toNat) (sh : Shape) {pre : Pre} (hpre : pre ≠ .none)
    (esc : Escape) (launch : Memory) (n i : Nat) (rest : List Bool) :
    decompress j sh pre esc launch n i (roundedBefore j sh launch i)
        ((List.range' i n).flatMap (fun i => (shapeFields sh).flatMap (fieldBits j sh pre esc launch i)) ++ rest)
      = some ((List.range' i n).map (clearedSample j sh launch), rest) := by
  induction n generalizing i with
  | zero => rfl
  | succ n ih =>
    have hback : roundBack j.round.toNat (shapeFields sh) (roundedBefore j sh launch (i + 1)) = clearedSample j sh launch i :=
      roundBack_map _ _ _
    rw [List.range'_succ, List.flatMap_cons, List.append_assoc, decompress, decodeSample_flatMap hm, Option.bind_some]
    simp only [undoSample_mappedValue j sh hpre, ih, hback, Option.map_some, List.map_cons]

theorem decompress_jobBits {j : JobRecord} (hm : 1 ≤ j.golombPar.toNat) (sh : Shape) {pre : Pre} (hpre : pre ≠ .none)
    (esc : Escape) (launch : Memory) :
    decompress j sh pre esc launch j.samples.toNat 0 (List.replicate (shapeFields sh).length 0) (jobBits j sh pre esc launch)
      = some ((List.range j.samples.toNat).map (clearedSample j sh launch), []) := by
  have h := decompress_samples hm sh hpre esc launch j.samples.toNat 0 []
  rw [List.append_nil, ← List.range_eq_range'] at h
  exact h

/-! ### The updated model -/

/-- The decoder's model update is the machine's (46_decoder_reference.md R286, R291). -/
theorem decodedModel_eq {j : JobRecord} {sh : Shape} {launch after : Memory} (h : ModelUpdated j sh .model launch after) :
    List.zipWith (decodedModelSample j.modelValue.toNat (shapeFields sh))
        ((List.range j.samples.toNat).map (clearedSample j sh launch)) (samplesOf launch j.model sh j.samples.toNat)
      = samplesOf after (modelTarget j) sh j.samples.toNat := by
  rw [samplesOf, samplesOf, List.zipWith_map, List.zipWith_self]
  refine List.map_congr_left fun i hi => ?_
  rw [clearedSample, decodedModelSample_map]
  refine List.map_congr_left fun f hf => ?_
  rw [h rfl i (List.mem_range.mp hi) f hf]
  rfl

theorem roundedSamples_of_compressing (j : JobRecord) {d : Descriptor} (hpre : d.pre ≠ .none) (launch : Memory) :
    roundedSamples j d launch = (List.range j.samples.toNat).map (clearedSample j d.shape launch) := by
  rw [roundedSamples, lostBits, if_neg hpre]
  rfl

/-! ### Raw jobs -/

/-- Two runs of bytes with the same content read the same. -/
theorem read_eq_of_bytes {m m' : Memory} {a a' n : Nat}
    (h : ∀ k, k < n → m'.readByte (wrapAddress (a' + k)) = m.readByte (wrapAddress (a + k))) : m'.read a' n = m.read a n := by
  induction n with
  | zero => rfl
  | succ n ih =>
    rw [Memory.read, Memory.read, ih fun k hk => h k (Nat.lt_succ_of_lt hk), h n (Nat.lt_succ_self n)]

/-- A byte-for-byte copy has the samples of its source. -/
theorem samplesOf_eq_of_bytes {m m' : Memory} {src dst : Handle} {sh : Shape} {n : Nat}
    (hsrc : src.base.toNat + n * sampleBytes sh ≤ 2 ^ 32) (hdst : dst.base.toNat + n * sampleBytes sh ≤ 2 ^ 32)
    (h : ∀ k, k < n * sampleBytes sh → m'.readByte (dst.base.toNat + k) = m.readByte (src.base.toNat + k)) :
    samplesOf m' dst sh n = samplesOf m src sh n := by
  refine List.map_congr_left fun i hi => List.map_congr_left fun f hf => ?_
  have hsample := sample_end_le sh (List.mem_range.mp hi)
  have hfield := field_end_le_sampleBytes f hf
  have hread : m'.read (fieldAddress dst sh i f) f.width.bytes = m.read (fieldAddress src sh i f) f.width.bytes := by
    refine read_eq_of_bytes fun k hk => ?_
    have hbyte := h (i * sampleBytes sh + f.off + k) (by omega)
    rw [wrapAddress_of_lt (by unfold fieldAddress; omega), wrapAddress_of_lt (by unfold fieldAddress; omega)]
    simpa only [fieldAddress, Nat.add_assoc] using hbyte
  rw [fieldRead, fieldRead, hread]

/-- A raw job loses no bit (46_decoder_reference.md R288). -/
theorem roundedSamples_of_raw (j : JobRecord) {d : Descriptor} (hpre : d.pre = .none) (launch : Memory) :
    roundedSamples j d launch = samplesOf launch j.input d.shape j.samples.toNat := by
  rw [roundedSamples, lostBits, if_pos hpre]
  refine List.map_congr_left fun i _ => List.map_congr_left fun f _ => congrArg BitVec.toNat ?_
  rw [roundInv, roundFwd, BitVec.ushiftRight_zero, BitVec.shiftLeft_zero]

/-! ### Whole jobs -/

/-- What the decoder has to return for a job. -/
def RoundTrip (j : JobRecord) (d : Descriptor) (launch : Memory) (t : State) : Prop :=
  decompressJob j launch t.mem t.info.cmpSize.toNat
    = some {
        samples := roundedSamples j d launch
        updatedModel := if d.pre = .model then samplesOf t.mem (modelTarget j) d.shape j.samples.toNat else []
        rest := [] }

theorem roundTrip_of_raw {j : JobRecord} {sh : Shape} {launch : Memory} {t : State}
    (hd : descriptor j.mode = some { shape := sh, pre := .none, esc := none })
    (hsamples : samplesOf t.mem j.output sh j.samples.toNat = samplesOf launch j.input sh j.samples.toNat) :
    RoundTrip j { shape := sh, pre := .none, esc := none } launch t := by
  rw [RoundTrip, decompressJob, hd, roundedSamples_of_raw j rfl, ← hsamples]
  rfl

/-- A compressing job whose output holds its stream, and whose target holds the updated model. -/
theorem roundTrip_of_compressing {j : JobRecord} {sh : Shape} {pre : Pre} {esc : Escape} {launch : Memory} {t : State}
    (hd : descriptor j.mode = some { shape := sh, pre := pre, esc := some esc }) (hpre : pre ≠ .none)
    (hm : 1 ≤ j.golombPar.toNat) (hstream : streamOf t.mem j.output t.info.cmpSize.toNat = jobBits j sh pre esc launch)
    (hmodel : ModelUpdated j sh pre launch t.mem) :
    RoundTrip j { shape := sh, pre := pre, esc := some esc } launch t := by
  rw [RoundTrip, roundedSamples_of_compressing j hpre, decompressJob, hd]
  simp only [hstream, decompress_jobBits hm sh hpre, Option.map_some]
  by_cases hmod : pre = .model
  · subst hmod
    rw [if_pos rfl, if_pos rfl, decodedModel_eq hmodel]
  · rw [if_neg hmod, if_neg hmod]

/-- A job without samples: the stream is empty, and so is what comes back. -/
theorem roundTrip_of_empty {j : JobRecord} {d : Descriptor} {launch : Memory} {t : State} (hd : descriptor j.mode = some d)
    (hs : j.samples.toNat = 0) (hsize : t.info.cmpSize.toNat = 0) : RoundTrip j d launch t := by
  obtain ⟨sh, pre, esc⟩ := d
  rw [RoundTrip, decompressJob, hd, hs, hsize]
  cases esc with
  | none =>
    obtain rfl : pre = .none := (esc_eq_none_iff hd).mp rfl
    simp [roundedSamples, samplesOf, hs]
  | some esc => simp [roundedSamples, samplesOf, streamOf, decompress, hs]

theorem JobError.kind_ne_ok (err : JobError) : err.kind ≠ .ok := by
  cases err <;> exact nofun

theorem kind_eq_of_finished {j : JobRecord} {s t : State} {kind : JobKind} {retval : Int} {err : BitVec 16} {size : Nat}
    (h : Finished j s t kind retval err size) : t.status.kind = kind := by
  rw [h.status]

section
variable {i : Instr} {s t : State} (ht : exec i s = .next t) (hok : t.status.kind = .ok)
include ht hok

theorem roundTrip_of_raw_launch {sh : Shape}
    (hd : descriptor (jobOf i).mode = some { shape := sh, pre := .none, esc := none })
    (hl : Launchable (jobOf i) { shape := sh, pre := .none, esc := none }) :
    RoundTrip (jobOf i) { shape := sh, pre := .none, esc := none } s.mem t := by
  rcases Nat.lt_or_ge (capacity (jobOf i) / 8) (sampleSpan (jobOf i) sh) with hfull | hfit
  · obtain ⟨t', ht', hfin, -⟩ := exec_of_raw_overflows hd hl s hfull
    cases ht'.symm.trans ht
    exact nomatch hok.symm.trans (kind_eq_of_finished hfin)
  · obtain ⟨hsrc, hdst, -⟩ := raw_buffers hl
    obtain ⟨t', ht', -, -, -, hcopied, -⟩ := rawCompletes hd s hl hfit
    cases ht'.symm.trans ht
    exact roundTrip_of_raw hd (samplesOf_eq_of_bytes hsrc hdst hcopied)

theorem roundTrip_of_compressing_launch {sh : Shape} {pre : Pre} {esc : Escape}
    (hd : descriptor (jobOf i).mode = some { shape := sh, pre := pre, esc := some esc })
    (hl : Launchable (jobOf i) { shape := sh, pre := pre, esc := some esc }) :
    RoundTrip (jobOf i) { shape := sh, pre := pre, esc := some esc } s.mem t := by
  have hb := buffers hd hl
  rcases encodeAll_cases (encodeStart hd hl s) with ⟨hfit, -⟩ | ⟨err, u, x, -, -, hu, hkept⟩
  · obtain ⟨u, hu, henc⟩ := exec_of_allFit hd hl hfit
    cases hu.symm.trans ht
    have hwritten : StreamWritten (jobOf i) (jobBits (jobOf i) sh pre esc s.mem) (transformed (jobOf i) sh pre esc s.mem)
        (completeCompressed u).mem := streamWritten_of_encoded henc hb.output
    have hlen : (jobBits (jobOf i) sh pre esc s.mem).length ≤ capacity (jobOf i) := by
      rw [← flatMap_placesOf hd hl s]
      exact hfit.bits
    have hsize : (completeCompressed u).info.cmpSize.toNat = (jobBits (jobOf i) sh pre esc s.mem).length := by
      have hcap := hl.premises.capacityFits (pre_ne_none hd)
      rw [(finished_of_encoded hl henc).info]
      exact Nat.mod_eq_of_lt (Nat.lt_of_le_of_lt hlen hcap)
    refine roundTrip_of_compressing hd (pre_ne_none hd) (hl.valid.golombParLegal (not_isRaw hd)).1 ?_
      (ModelUpdated.of_kept hb (modelUpdated_transformed hb esc s.mem) hwritten.kept)
    rw [hsize]
    exact hwritten.streamOf hlen
  · obtain ⟨hexec, hfin, -⟩ := exec_of_stop hd hl hu hkept
    cases hexec.symm.trans ht
    exact absurd ((kind_eq_of_finished hfin).symm.trans hok) (JobError.kind_ne_ok err)

end

/-- Settles O46: a job that succeeds has no samples, or is a copy that fits, or has written its stream. -/
theorem decompressRoundTrip : Obligations.DecompressRoundTrip := by
  intro i s t d hd ht hok
  rcases exec_cases hd s with ⟨_, h⟩ | ⟨_, hs, h⟩ | ⟨_, _, _, r, h⟩ | ⟨hl, _⟩
  · cases h.symm.trans ht
    exact nomatch hok
  · cases h.symm.trans ht
    have hsize : (finishJob (depositBits (latchJob (jobOf i) s))).info.cmpSize.toNat = 0 := by
      rw [(inProgress_depositBits (jobOf i) s).finish.info]
      rfl
    exact roundTrip_of_empty hd hs hsize
  · exact nomatch h.symm.trans ht
  · obtain ⟨sh, pre, esc⟩ := d
    cases esc with
    | none =>
      obtain rfl : pre = .none := (esc_eq_none_iff hd).mp rfl
      exact roundTrip_of_raw_launch ht hok hd hl
    | some esc => exact roundTrip_of_compressing_launch ht hok hd hl

end Sys2Proof.Proofs.Decoder
end
